-- ==== Sys2Proof/Word.lean ====
section
/-! DEFINITION. The word types of the core and the two narrowing functions of 00_scope.md R8. -/

namespace Sys2Proof

/-- A byte: a general register, a timer, a cell of memory (R5 `REG_BITS`, R50). -/
abbrev Byte := BitVec 8

/-- A 12-bit address: `I`, `pc` and the stack's elements (R5 `ADDR_BITS`). -/
abbrev Addr := BitVec 12

/-- An instruction word, bit 15 the most significant (R5 `INSTR_BITS`, R8). -/
abbrev Word := BitVec 16

/-- A 4-bit field: a register number or the immediate `n` (R71). -/
abbrev Nibble := BitVec 4

/-- `u8(v) = v mod 256` (R8). -/
def u8 (v : Nat) : Byte := BitVec.ofNat 8 v

/-- `u12(v) = v mod 4096` (R8). -/
def u12 (v : Nat) : Addr := BitVec.ofNat 12 v

end Sys2Proof
end

