-- ==== Sys2Proof/Syntax.lean ====
section
/-! DEFINITION. The instructions: one constructor per row of spec/opcode_table.json (30_encoding.md R75). -/

namespace Sys2Proof

/-- The 42 instructions of R75, with the operand fields their format names (R72). -/
inductive Instr where
  /-- 00E0 CLS -/
  | cls
  /-- 00EE RET -/
  | ret
  /-- 00Cn SCD n -/
  | scd (n : Nibble)
  /-- 00FB SCR -/
  | scr
  /-- 00FC SCL -/
  | scl
  /-- 00FE LOW -/
  | low
  /-- 00FF HIGH -/
  | high
  /-- 0230 HIRES64 -/
  | hires64
  /-- 0nnn (not otherwise listed) SYS nnn -/
  | sys (nnn : Addr)
  /-- 1nnn JP nnn -/
  | jp (nnn : Addr)
  /-- 2nnn CALL nnn -/
  | call (nnn : Addr)
  /-- 3xnn SE Vx,nn -/
  | seImm (x : Nibble) (nn : Byte)
  /-- 4xnn SNE Vx,nn -/
  | sneImm (x : Nibble) (nn : Byte)
  /-- 5xy0 SE Vx,Vy -/
  | seReg (x y : Nibble)
  /-- 6xnn LD Vx,nn -/
  | ldImm (x : Nibble) (nn : Byte)
  /-- 7xnn ADD Vx,nn -/
  | addImm (x : Nibble) (nn : Byte)
  /-- 8xy0 LD Vx,Vy -/
  | ldReg (x y : Nibble)
  /-- 8xy1 OR Vx,Vy -/
  | or (x y : Nibble)
  /-- 8xy2 AND Vx,Vy -/
  | and (x y : Nibble)
  /-- 8xy3 XOR Vx,Vy -/
  | xor (x y : Nibble)
  /-- 8xy4 ADD Vx,Vy -/
  | addReg (x y : Nibble)
  /-- 8xy5 SUB Vx,Vy -/
  | sub (x y : Nibble)
  /-- 8xy6 SHR Vx,Vy -/
  | shr (x y : Nibble)
  /-- 8xy7 SUBN Vx,Vy -/
  | subn (x y : Nibble)
  /-- 8xyE SHL Vx,Vy -/
  | shl (x y : Nibble)
  /-- 9xy0 SNE Vx,Vy -/
  | sneReg (x y : Nibble)
  /-- Annn LD I,nnn -/
  | ldI (nnn : Addr)
  /-- Bnnn JP V0,nnn (its `x` is the top nibble of `nnn`, R109) -/
  | jpV0 (nnn : Addr)
  /-- Cxnn RND Vx,nn -/
  | rnd (x : Nibble) (nn : Byte)
  /-- Dxyn DRW Vx,Vy,n -/
  | drw (x y n : Nibble)
  /-- Ex9E SKP Vx -/
  | skp (x : Nibble)
  /-- ExA1 SKNP Vx -/
  | sknp (x : Nibble)
  /-- Fx07 LD Vx,DT -/
  | ldVxDT (x : Nibble)
  /-- Fx0A LD Vx,K -/
  | ldVxK (x : Nibble)
  /-- Fx15 LD DT,Vx -/
  | ldDTVx (x : Nibble)
  /-- Fx18 LD ST,Vx -/
  | ldSTVx (x : Nibble)
  /-- Fx1E ADD I,Vx -/
  | addI (x : Nibble)
  /-- Fx29 LD F,Vx -/
  | ldF (x : Nibble)
  /-- Fx30 LD HF,Vx -/
  | ldHF (x : Nibble)
  /-- Fx33 LD B,Vx -/
  | ldB (x : Nibble)
  /-- Fx55 LD [I],Vx -/
  | storeRegs (x : Nibble)
  /-- Fx65 LD Vx,[I] -/
  | loadRegs (x : Nibble)
  deriving DecidableEq, Repr, Inhabited

end Sys2Proof
end

