-- ==== Sys2Proof/WellFormed.lean ====
section
/-! DEFINITION. Which instruction terms have an encoding of their own. Every operand field has exactly the width
its format gives it, so the only terms without one are SYS with an `nnn` that another family-0 row takes
(30_encoding.md R74, R75 row 1: "not otherwise listed"). -/

namespace Sys2Proof

/-- No scroll-down word: 00C0 to 00CF are SCD. -/
def notScdWord (nnn : Addr) : Bool := nnn.toNat / 16 != 0x0C

/-- None of the seven fixed family-0 words CLS, RET, SCR, SCL, LOW, HIGH, HIRES64. -/
def notFixedWord (nnn : Addr) : Bool :=
  !([0x0E0#12, 0x0EE#12, 0x0FB#12, 0x0FC#12, 0x0FE#12, 0x0FF#12, 0x230#12].contains nnn)

/-- `SYS nnn` takes only the family-0 words no other row lists (R74, R101). -/
def sysOperandOk (nnn : Addr) : Bool := notScdWord nnn && notFixedWord nnn

/-- The check: every constructor's operands, by name. -/
def Instr.wellFormed : Instr → Bool
  | .sys nnn => sysOperandOk nnn
  | .cls => true
  | .ret => true
  | .scd _ => true
  | .scr => true
  | .scl => true
  | .low => true
  | .high => true
  | .hires64 => true
  | .jp _ => true
  | .call _ => true
  | .seImm _ _ => true
  | .sneImm _ _ => true
  | .seReg _ _ => true
  | .ldImm _ _ => true
  | .addImm _ _ => true
  | .ldReg _ _ => true
  | .or _ _ => true
  | .and _ _ => true
  | .xor _ _ => true
  | .addReg _ _ => true
  | .sub _ _ => true
  | .shr _ _ => true
  | .subn _ _ => true
  | .shl _ _ => true
  | .sneReg _ _ => true
  | .ldI _ => true
  | .jpV0 _ => true
  | .rnd _ _ => true
  | .drw _ _ _ => true
  | .skp _ => true
  | .sknp _ => true
  | .ldVxDT _ => true
  | .ldVxK _ => true
  | .ldDTVx _ => true
  | .ldSTVx _ => true
  | .addI _ => true
  | .ldF _ => true
  | .ldHF _ => true
  | .ldB _ => true
  | .storeRegs _ => true
  | .loadRegs _ => true

end Sys2Proof
end

