-- ==== Sys2Proof/Decode.lean ====
section
/-! DEFINITION. Decoding (30_encoding.md R70 to R77): total on any bytes, rejecting by name. After it, the opcode
table as data and the encoder, written from the same rows. The bit patterns are the spec's own general knowledge
(93_implementation_defined.md G1), followed as R75 states them. -/

namespace Sys2Proof

/-- Why bytes are no instruction. -/
inductive Reject where
  /-- A 16-bit word that no row of R75 matches (R76). Stepping it raises Fatal; the decoder only reports it. -/
  | unrecognized (w : Word)
  /-- Fewer than two bytes (R70: every instruction is 16 bits). Only a caller of `decodeBytes` can meet it. -/
  | tooShort
  deriving DecidableEq, Repr

/-- `op = w[15:12]`, the opcode family (R71). -/
def fieldOp (w : Word) : Nibble := w.extractLsb' 12 4
/-- `x = w[11:8]` (R71). -/
def fieldX (w : Word) : Nibble := w.extractLsb' 8 4
/-- `y = w[7:4]` (R71). -/
def fieldY (w : Word) : Nibble := w.extractLsb' 4 4
/-- `n = w[3:0]` (R71). -/
def fieldN (w : Word) : Nibble := w.extractLsb' 0 4
/-- `nn = w[7:0]` (R71). -/
def fieldNN (w : Word) : Byte := w.extractLsb' 0 8
/-- `nnn = w[11:0]` (R71). -/
def fieldNNN (w : Word) : Addr := w.extractLsb' 0 12

/-- Family 0 (R74): the fixed words and SCD first, everything else SYS. -/
def decodeFamily0 (w : Word) : Instr :=
  if w = 0x00E0#16 then .cls
  else if w = 0x00EE#16 then .ret
  else if w.extractLsb' 4 12 = 0x00C#12 then .scd (fieldN w)
  else if w = 0x00FB#16 then .scr
  else if w = 0x00FC#16 then .scl
  else if w = 0x00FE#16 then .low
  else if w = 0x00FF#16 then .high
  else if w = 0x0230#16 then .hires64
  else .sys (fieldNNN w)

/-- Family 8 by `n` (R74). -/
def decodeFamily8 (w : Word) : Except Reject Instr :=
  match (fieldN w).toNat with
  | 0x0 => .ok (.ldReg (fieldX w) (fieldY w))
  | 0x1 => .ok (.or (fieldX w) (fieldY w))
  | 0x2 => .ok (.and (fieldX w) (fieldY w))
  | 0x3 => .ok (.xor (fieldX w) (fieldY w))
  | 0x4 => .ok (.addReg (fieldX w) (fieldY w))
  | 0x5 => .ok (.sub (fieldX w) (fieldY w))
  | 0x6 => .ok (.shr (fieldX w) (fieldY w))
  | 0x7 => .ok (.subn (fieldX w) (fieldY w))
  | 0xE => .ok (.shl (fieldX w) (fieldY w))
  | _ => .error (.unrecognized w)

/-- Family E by `nn` (R74). -/
def decodeFamilyE (w : Word) : Except Reject Instr :=
  if fieldNN w = 0x9E#8 then .ok (.skp (fieldX w))
  else if fieldNN w = 0xA1#8 then .ok (.sknp (fieldX w))
  else .error (.unrecognized w)

/-- Family F by `nn` (R74). -/
def decodeFamilyF (w : Word) : Except Reject Instr :=
  if fieldNN w = 0x07#8 then .ok (.ldVxDT (fieldX w))
  else if fieldNN w = 0x0A#8 then .ok (.ldVxK (fieldX w))
  else if fieldNN w = 0x15#8 then .ok (.ldDTVx (fieldX w))
  else if fieldNN w = 0x18#8 then .ok (.ldSTVx (fieldX w))
  else if fieldNN w = 0x1E#8 then .ok (.addI (fieldX w))
  else if fieldNN w = 0x29#8 then .ok (.ldF (fieldX w))
  else if fieldNN w = 0x30#8 then .ok (.ldHF (fieldX w))
  else if fieldNN w = 0x33#8 then .ok (.ldB (fieldX w))
  else if fieldNN w = 0x55#8 then .ok (.storeRegs (fieldX w))
  else if fieldNN w = 0x65#8 then .ok (.loadRegs (fieldX w))
  else .error (.unrecognized w)

/-- `decode(w)` of R74: every word selects exactly one instruction or is unrecognized. -/
def decode (w : Word) : Except Reject Instr :=
  match (fieldOp w).toNat with
  | 0x0 => .ok (decodeFamily0 w)
  | 0x1 => .ok (.jp (fieldNNN w))
  | 0x2 => .ok (.call (fieldNNN w))
  | 0x3 => .ok (.seImm (fieldX w) (fieldNN w))
  | 0x4 => .ok (.sneImm (fieldX w) (fieldNN w))
  | 0x5 => if fieldN w = 0#4 then .ok (.seReg (fieldX w) (fieldY w)) else .error (.unrecognized w)
  | 0x6 => .ok (.ldImm (fieldX w) (fieldNN w))
  | 0x7 => .ok (.addImm (fieldX w) (fieldNN w))
  | 0x8 => decodeFamily8 w
  | 0x9 => if fieldN w = 0#4 then .ok (.sneReg (fieldX w) (fieldY w)) else .error (.unrecognized w)
  | 0xA => .ok (.ldI (fieldNNN w))
  | 0xB => .ok (.jpV0 (fieldNNN w))
  | 0xC => .ok (.rnd (fieldX w) (fieldNN w))
  | 0xD => .ok (.drw (fieldX w) (fieldY w) (fieldN w))
  | 0xE => decodeFamilyE w
  | _ => decodeFamilyF w

/-- The word of two bytes, the byte at the lower address in bits 15 to 8 (R53). -/
def wordOfBytes (hi lo : Byte) : Word := BitVec.ofNat 16 (hi.toNat * 256 + lo.toNat)

/-- The byte stored at the lower address: bits 15 to 8 (R53). -/
def highByte (w : Word) : Byte := w.extractLsb' 8 8

/-- The byte stored at the higher address: bits 7 to 0 (R53). -/
def lowByte (w : Word) : Byte := w.extractLsb' 0 8

/-- Decode the first instruction of a list of bytes and give the bytes after it. -/
def decodeBytes : List Byte → Except Reject (Instr × List Byte)
  | hi :: lo :: rest =>
    match decode (wordOfBytes hi lo) with
    | .ok i => .ok (i, rest)
    | .error r => .error r
  | _ => .error .tooShort

/-- The instruction the decoder reads from a table row's word of `nbits` bits, laid out as the hardware stores it
(bits above `nbits` are 0). -/
def decodeTableWord (nbits w : Nat) : Option Instr :=
  let word : Word := BitVec.ofNat 16 (w % 2 ^ nbits)
  match decodeBytes [highByte word, lowByte word] with
  | .ok (i, _) => some i
  | .error _ => none

/-- One row of spec/opcode_table.json: its mnemonic there, its mask and its match value. -/
structure TableRow where
  mnemonic : String
  mask : Word
  pattern : Word
  deriving DecidableEq, Repr

/-- `w & mask == match` (R74). -/
def TableRow.selects (r : TableRow) (w : Word) : Bool := w &&& r.mask == r.pattern

/-- Rows of R75 in the order of spec/opcode_table.json. -/
def tableRowsA : List TableRow :=
  [⟨"CLS", 0xFFFF#16, 0x00E0#16⟩,
   ⟨"RET", 0xFFFF#16, 0x00EE#16⟩,
   ⟨"SCD_n", 0xFFF0#16, 0x00C0#16⟩,
   ⟨"SCR", 0xFFFF#16, 0x00FB#16⟩,
   ⟨"SCL", 0xFFFF#16, 0x00FC#16⟩,
   ⟨"LOW", 0xFFFF#16, 0x00FE#16⟩,
   ⟨"HIGH", 0xFFFF#16, 0x00FF#16⟩,
   ⟨"HIRES64", 0xFFFF#16, 0x0230#16⟩,
   ⟨"SYS_nnn", 0xF000#16, 0x0000#16⟩]

/-- Rows of R75 in the order of spec/opcode_table.json. -/
def tableRowsB : List TableRow :=
  [⟨"JP_nnn", 0xF000#16, 0x1000#16⟩,
   ⟨"CALL_nnn", 0xF000#16, 0x2000#16⟩,
   ⟨"SE_Vx_nn", 0xF000#16, 0x3000#16⟩,
   ⟨"SNE_Vx_nn", 0xF000#16, 0x4000#16⟩,
   ⟨"SE_Vx_Vy", 0xF00F#16, 0x5000#16⟩,
   ⟨"LD_Vx_nn", 0xF000#16, 0x6000#16⟩,
   ⟨"ADD_Vx_nn", 0xF000#16, 0x7000#16⟩,
   ⟨"LD_Vx_Vy", 0xF00F#16, 0x8000#16⟩,
   ⟨"OR_Vx_Vy", 0xF00F#16, 0x8001#16⟩]

/-- Rows of R75 in the order of spec/opcode_table.json. -/
def tableRowsC : List TableRow :=
  [⟨"AND_Vx_Vy", 0xF00F#16, 0x8002#16⟩,
   ⟨"XOR_Vx_Vy", 0xF00F#16, 0x8003#16⟩,
   ⟨"ADD_Vx_Vy", 0xF00F#16, 0x8004#16⟩,
   ⟨"SUB_Vx_Vy", 0xF00F#16, 0x8005#16⟩,
   ⟨"SHR_Vx_Vy", 0xF00F#16, 0x8006#16⟩,
   ⟨"SUBN_Vx_Vy", 0xF00F#16, 0x8007#16⟩,
   ⟨"SHL_Vx_Vy", 0xF00F#16, 0x800E#16⟩,
   ⟨"SNE_Vx_Vy", 0xF00F#16, 0x9000#16⟩,
   ⟨"LD_I_nnn", 0xF000#16, 0xA000#16⟩]

/-- Rows of R75 in the order of spec/opcode_table.json. -/
def tableRowsD : List TableRow :=
  [⟨"JP_V0_nnn", 0xF000#16, 0xB000#16⟩,
   ⟨"RND_Vx_nn", 0xF000#16, 0xC000#16⟩,
   ⟨"DRW_Vx_Vy_n", 0xF000#16, 0xD000#16⟩,
   ⟨"SKP_Vx", 0xF0FF#16, 0xE09E#16⟩,
   ⟨"SKNP_Vx", 0xF0FF#16, 0xE0A1#16⟩,
   ⟨"LD_Vx_DT", 0xF0FF#16, 0xF007#16⟩,
   ⟨"LD_Vx_K", 0xF0FF#16, 0xF00A#16⟩,
   ⟨"LD_DT_Vx", 0xF0FF#16, 0xF015#16⟩,
   ⟨"LD_ST_Vx", 0xF0FF#16, 0xF018#16⟩]

/-- Rows of R75 in the order of spec/opcode_table.json. -/
def tableRowsE : List TableRow :=
  [⟨"ADD_I_Vx", 0xF0FF#16, 0xF01E#16⟩,
   ⟨"LD_F_Vx", 0xF0FF#16, 0xF029#16⟩,
   ⟨"LD_HF_Vx", 0xF0FF#16, 0xF030#16⟩,
   ⟨"LD_B_Vx", 0xF0FF#16, 0xF033#16⟩,
   ⟨"LD__I__Vx", 0xF0FF#16, 0xF055#16⟩,
   ⟨"LD_Vx__I", 0xF0FF#16, 0xF065#16⟩]

/-- The 42 rows of spec/opcode_table.json, in file order (R74: a word selects the first row it matches). -/
def opcodeTable : List TableRow := tableRowsA ++ tableRowsB ++ tableRowsC ++ tableRowsD ++ tableRowsE

/-- The table row an instruction belongs to (R75). -/
def Instr.row : Instr → TableRow
  | .cls => ⟨"CLS", 0xFFFF#16, 0x00E0#16⟩
  | .ret => ⟨"RET", 0xFFFF#16, 0x00EE#16⟩
  | .scd _ => ⟨"SCD_n", 0xFFF0#16, 0x00C0#16⟩
  | .scr => ⟨"SCR", 0xFFFF#16, 0x00FB#16⟩
  | .scl => ⟨"SCL", 0xFFFF#16, 0x00FC#16⟩
  | .low => ⟨"LOW", 0xFFFF#16, 0x00FE#16⟩
  | .high => ⟨"HIGH", 0xFFFF#16, 0x00FF#16⟩
  | .hires64 => ⟨"HIRES64", 0xFFFF#16, 0x0230#16⟩
  | .sys _ => ⟨"SYS_nnn", 0xF000#16, 0x0000#16⟩
  | .jp _ => ⟨"JP_nnn", 0xF000#16, 0x1000#16⟩
  | .call _ => ⟨"CALL_nnn", 0xF000#16, 0x2000#16⟩
  | .seImm _ _ => ⟨"SE_Vx_nn", 0xF000#16, 0x3000#16⟩
  | .sneImm _ _ => ⟨"SNE_Vx_nn", 0xF000#16, 0x4000#16⟩
  | .seReg _ _ => ⟨"SE_Vx_Vy", 0xF00F#16, 0x5000#16⟩
  | .ldImm _ _ => ⟨"LD_Vx_nn", 0xF000#16, 0x6000#16⟩
  | .addImm _ _ => ⟨"ADD_Vx_nn", 0xF000#16, 0x7000#16⟩
  | .ldReg _ _ => ⟨"LD_Vx_Vy", 0xF00F#16, 0x8000#16⟩
  | .or _ _ => ⟨"OR_Vx_Vy", 0xF00F#16, 0x8001#16⟩
  | .and _ _ => ⟨"AND_Vx_Vy", 0xF00F#16, 0x8002#16⟩
  | .xor _ _ => ⟨"XOR_Vx_Vy", 0xF00F#16, 0x8003#16⟩
  | .addReg _ _ => ⟨"ADD_Vx_Vy", 0xF00F#16, 0x8004#16⟩
  | .sub _ _ => ⟨"SUB_Vx_Vy", 0xF00F#16, 0x8005#16⟩
  | .shr _ _ => ⟨"SHR_Vx_Vy", 0xF00F#16, 0x8006#16⟩
  | .subn _ _ => ⟨"SUBN_Vx_Vy", 0xF00F#16, 0x8007#16⟩
  | .shl _ _ => ⟨"SHL_Vx_Vy", 0xF00F#16, 0x800E#16⟩
  | .sneReg _ _ => ⟨"SNE_Vx_Vy", 0xF00F#16, 0x9000#16⟩
  | .ldI _ => ⟨"LD_I_nnn", 0xF000#16, 0xA000#16⟩
  | .jpV0 _ => ⟨"JP_V0_nnn", 0xF000#16, 0xB000#16⟩
  | .rnd _ _ => ⟨"RND_Vx_nn", 0xF000#16, 0xC000#16⟩
  | .drw _ _ _ => ⟨"DRW_Vx_Vy_n", 0xF000#16, 0xD000#16⟩
  | .skp _ => ⟨"SKP_Vx", 0xF0FF#16, 0xE09E#16⟩
  | .sknp _ => ⟨"SKNP_Vx", 0xF0FF#16, 0xE0A1#16⟩
  | .ldVxDT _ => ⟨"LD_Vx_DT", 0xF0FF#16, 0xF007#16⟩
  | .ldVxK _ => ⟨"LD_Vx_K", 0xF0FF#16, 0xF00A#16⟩
  | .ldDTVx _ => ⟨"LD_DT_Vx", 0xF0FF#16, 0xF015#16⟩
  | .ldSTVx _ => ⟨"LD_ST_Vx", 0xF0FF#16, 0xF018#16⟩
  | .addI _ => ⟨"ADD_I_Vx", 0xF0FF#16, 0xF01E#16⟩
  | .ldF _ => ⟨"LD_F_Vx", 0xF0FF#16, 0xF029#16⟩
  | .ldHF _ => ⟨"LD_HF_Vx", 0xF0FF#16, 0xF030#16⟩
  | .ldB _ => ⟨"LD_B_Vx", 0xF0FF#16, 0xF033#16⟩
  | .storeRegs _ => ⟨"LD__I__Vx", 0xF0FF#16, 0xF055#16⟩
  | .loadRegs _ => ⟨"LD_Vx__I", 0xF0FF#16, 0xF065#16⟩

/-- The first row, in file order, that a word matches (R74). -/
def firstRow (w : Word) : Option TableRow := opcodeTable.find? (fun r => r.selects w)

/-- `op ++ nnn` (format NNN of R72). -/
def packNNN (op : Nibble) (nnn : Addr) : Word := BitVec.ofNat 16 (op.toNat * 4096 + nnn.toNat)

/-- `op ++ x ++ nn` (formats XNN and X of R72). -/
def packXNN (op x : Nibble) (nn : Byte) : Word := BitVec.ofNat 16 (op.toNat * 4096 + x.toNat * 256 + nn.toNat)

/-- `op ++ x ++ y ++ n` (formats XY, XYN and N of R72). -/
def packXYN (op x y n : Nibble) : Word :=
  BitVec.ofNat 16 (op.toNat * 4096 + x.toNat * 256 + y.toNat * 16 + n.toNat)

/-- The word of an instruction, from the rows of R75 and the formats of R72. -/
def encode : Instr → Word
  | .cls => 0x00E0#16
  | .ret => 0x00EE#16
  | .scd n => packXYN 0x0#4 0x0#4 0xC#4 n
  | .scr => 0x00FB#16
  | .scl => 0x00FC#16
  | .low => 0x00FE#16
  | .high => 0x00FF#16
  | .hires64 => 0x0230#16
  | .sys nnn => packNNN 0x0#4 nnn
  | .jp nnn => packNNN 0x1#4 nnn
  | .call nnn => packNNN 0x2#4 nnn
  | .seImm x nn => packXNN 0x3#4 x nn
  | .sneImm x nn => packXNN 0x4#4 x nn
  | .seReg x y => packXYN 0x5#4 x y 0x0#4
  | .ldImm x nn => packXNN 0x6#4 x nn
  | .addImm x nn => packXNN 0x7#4 x nn
  | .ldReg x y => packXYN 0x8#4 x y 0x0#4
  | .or x y => packXYN 0x8#4 x y 0x1#4
  | .and x y => packXYN 0x8#4 x y 0x2#4
  | .xor x y => packXYN 0x8#4 x y 0x3#4
  | .addReg x y => packXYN 0x8#4 x y 0x4#4
  | .sub x y => packXYN 0x8#4 x y 0x5#4
  | .shr x y => packXYN 0x8#4 x y 0x6#4
  | .subn x y => packXYN 0x8#4 x y 0x7#4
  | .shl x y => packXYN 0x8#4 x y 0xE#4
  | .sneReg x y => packXYN 0x9#4 x y 0x0#4
  | .ldI nnn => packNNN 0xA#4 nnn
  | .jpV0 nnn => packNNN 0xB#4 nnn
  | .rnd x nn => packXNN 0xC#4 x nn
  | .drw x y n => packXYN 0xD#4 x y n
  | .skp x => packXNN 0xE#4 x 0x9E#8
  | .sknp x => packXNN 0xE#4 x 0xA1#8
  | .ldVxDT x => packXNN 0xF#4 x 0x07#8
  | .ldVxK x => packXNN 0xF#4 x 0x0A#8
  | .ldDTVx x => packXNN 0xF#4 x 0x15#8
  | .ldSTVx x => packXNN 0xF#4 x 0x18#8
  | .addI x => packXNN 0xF#4 x 0x1E#8
  | .ldF x => packXNN 0xF#4 x 0x29#8
  | .ldHF x => packXNN 0xF#4 x 0x30#8
  | .ldB x => packXNN 0xF#4 x 0x33#8
  | .storeRegs x => packXNN 0xF#4 x 0x55#8
  | .loadRegs x => packXNN 0xF#4 x 0x65#8

end Sys2Proof
end

