-- ==== Sys2Proof/Machine/Sparse.lean ====
section
/-! DEFINITION. Sparse stores: a list of (key, value) pairs in ONE canonical form (keys strictly rising, no entry
equal to what an unlisted key reads as), so that equal stores are equal lists. Memory and the display are stores. -/

namespace Sys2Proof.Machine

/-- The value at a key; `dflt k` where `k` is not listed. -/
def Sparse.get {α : Type} (dflt : Nat → α) : List (Nat × α) → Nat → α
  | [], k => dflt k
  | e :: m, k => if e.1 = k then e.2 else Sparse.get dflt m k

/-- The store without the key `k`. -/
def Sparse.erase {α : Type} (m : List (Nat × α)) (k : Nat) : List (Nat × α) :=
  m.filter (fun e => e.1 != k)

/-- The store with an entry put before the first larger key. -/
def Sparse.insert {α : Type} : List (Nat × α) → Nat → α → List (Nat × α)
  | [], k, v => [(k, v)]
  | e :: m, k, v => if k < e.1 then (k, v) :: e :: m else e :: Sparse.insert m k v

/-- The store with the value at `k` changed to `v`; a value that an unlisted key reads as removes the entry. -/
def Sparse.set {α : Type} [DecidableEq α] (dflt : Nat → α) (m : List (Nat × α)) (k : Nat) (v : α) :
    List (Nat × α) :=
  if v = dflt k then Sparse.erase m k else Sparse.insert (Sparse.erase m k) k v

/-- Every value replaced by `f` of it; `f` must leave what an unlisted key reads as alone. -/
def Sparse.mapVals {α : Type} [DecidableEq α] (dflt : Nat → α) (f : α → α) (m : List (Nat × α)) :
    List (Nat × α) :=
  m.filterMap (fun e => if f e.2 = dflt e.1 then none else some (e.1, f e.2))

/-- Every entry moved to the key `g` gives it, or dropped. -/
def Sparse.rekey {α : Type} (g : Nat → Option Nat) (m : List (Nat × α)) : List (Nat × α) :=
  m.filterMap (fun e => (g e.1).map (fun k => (k, e.2)))

/-- A store in canonical form built from any list of entries: the first entry of a key wins, keys at or above
`bound` are dropped. -/
def Sparse.ofList {α : Type} [DecidableEq α] (bound : Nat) (dflt : Nat → α) (l : List (Nat × α)) :
    List (Nat × α) :=
  l.foldr (fun e m => if e.1 < bound then Sparse.set dflt m e.1 e.2 else m) []

/-- The canonical form: keys strictly rising and below `bound`, no entry equal to what its key reads as unlisted. -/
abbrev Sparse.WF {α : Type} (bound : Nat) (dflt : Nat → α) (m : List (Nat × α)) : Prop :=
  m.Pairwise (fun a b => a.1 < b.1) ∧ ∀ e ∈ m, e.1 < bound ∧ e.2 ≠ dflt e.1

end Sys2Proof.Machine
end

