-- ==== Sys2Proof/Config.lean ====
section
/-! DEFINITION. What one load fixes for the machine (the quirk record and rate of R6, the open parameters of R7),
the metadata record the host supplies with an image (R210, R211), and the free values. -/

namespace Sys2Proof

/-- `q.shiftSource` (R6): whether SHR and SHL copy V[y] into V[x] first. -/
inductive ShiftSource where
  | vx
  | vy
  deriving DecidableEq, Repr, Inhabited

/-- `q.jumpSource` (R6): the register JP V0,nnn adds. -/
inductive JumpSource where
  | v0
  | vx
  deriving DecidableEq, Repr, Inhabited

/-- `q.spriteEdge` (R6): what happens to sprite pixels past the right or bottom edge. -/
inductive SpriteEdge where
  | wrap
  | clip
  deriving DecidableEq, Repr, Inhabited

/-- `q.memIncrement` (R6, 90_conflicts.md C2): what LD [I],Vx and LD Vx,[I] do to `I` afterwards. -/
inductive MemIncrement where
  | byXPlus1
  | byX
  | unchanged
  deriving DecidableEq, Repr, Inhabited

/-- `FILTER` (R7). `flickerFix` and `fade` differ only in what the renderer does (R165). -/
inductive Filter where
  | none
  | flickerFix
  | fade
  deriving DecidableEq, Repr, Inhabited

/-- `SCROLL_UNITS` (R7). -/
inductive ScrollUnits where
  | logical
  | backing
  deriving DecidableEq, Repr, Inhabited

/-- `keyPick` (R7, U12): the lowest pressed key, or any pressed key (a free choice). -/
inductive KeyPick where
  | lowest
  | anyPressed
  deriving DecidableEq, Repr, Inhabited

/-- The six quirk fields of R6. -/
structure Quirks where
  logicClearsVF : Bool
  shiftSource : ShiftSource
  jumpSource : JumpSource
  spriteEdge : SpriteEdge
  vblankSync : Bool
  memIncrement : MemIncrement
  deriving DecidableEq, Repr, Inhabited

/-- The open parameters of R7 that are values (`rand` and `k(f)` are inputs of the run). The two bases lie in
0x000 to 0x1FF, so they have 9 bits; `font` is the image of 0x000 to 0x1FF, 512 bytes (`ratesOk`, Machine/Events.lean). -/
structure Params where
  addISetsVF : Bool
  font : List Byte
  smallFontBase : BitVec 9
  bigFontBase : BitVec 9
  filter : Filter
  fadeFrames : Nat
  modeSwitchClears : Bool
  scrollUnits : ScrollUnits
  keyPick : KeyPick
  deriving DecidableEq, Repr, Inhabited

/-- The configuration record `cfg` of R38: immutable between loads. -/
structure Cfg where
  q : Quirks
  ips : Nat
  params : Params
  deriving DecidableEq, Repr, Inhabited

/-- The metadata record a host supplies at `Load` (R210), before it is checked. The index increment comes as the
two flags of the source's "two mutually exclusive variants" (C2), so a malformed record can be supplied (DEDUCED,
log 11). -/
structure Metadata where
  logicClearsVF : Bool
  shiftSource : ShiftSource
  jumpSource : JumpSource
  spriteEdge : SpriteEdge
  vblankSync : Bool
  incrementByX : Bool
  incrementUnchanged : Bool
  ips : Nat
  params : Params
  deriving DecidableEq, Repr, Inhabited

/-- `rand8()` of R131: the value drawn at the n-th draw. FREE VALUE: nothing is known of it (U2, log 5). -/
opaque Config.rand8 : Nat → Byte

/-- Which of the pressed keys a key-wait captures under `KeyPick.anyPressed`, at the n-th draw, as a number to
be reduced modulo the count of pressed keys. FREE VALUE (U12, log 5). -/
opaque Config.pickKey : Nat → Nat

end Sys2Proof
end

