-- ==== Sys2Proof/Machine/Font.lean ====
section
/-! DEFINITION. The default FONT image (20_memory.md R57, R58): the spec's own general knowledge (G4), a parameter
of each load (R7). -/

namespace Sys2Proof.Machine

/-- Small font, digits 0 to 7, five bytes each, from 0x000 (R58). -/
def smallGlyphsLow : List (List Byte) := [
  [0xF0#8, 0x90#8, 0x90#8, 0x90#8, 0xF0#8],
  [0x20#8, 0x60#8, 0x20#8, 0x20#8, 0x70#8],
  [0xF0#8, 0x10#8, 0xF0#8, 0x80#8, 0xF0#8],
  [0xF0#8, 0x10#8, 0xF0#8, 0x10#8, 0xF0#8],
  [0x90#8, 0x90#8, 0xF0#8, 0x10#8, 0x10#8],
  [0xF0#8, 0x80#8, 0xF0#8, 0x10#8, 0xF0#8],
  [0xF0#8, 0x80#8, 0xF0#8, 0x90#8, 0xF0#8],
  [0xF0#8, 0x10#8, 0x20#8, 0x40#8, 0x40#8]]

/-- Small font, digits 8 to F, five bytes each, from 0x028 (R58). -/
def smallGlyphsHigh : List (List Byte) := [
  [0xF0#8, 0x90#8, 0xF0#8, 0x90#8, 0xF0#8],
  [0xF0#8, 0x90#8, 0xF0#8, 0x10#8, 0xF0#8],
  [0xF0#8, 0x90#8, 0xF0#8, 0x90#8, 0x90#8],
  [0xE0#8, 0x90#8, 0xE0#8, 0x90#8, 0xE0#8],
  [0xF0#8, 0x80#8, 0x80#8, 0x80#8, 0xF0#8],
  [0xE0#8, 0x90#8, 0x90#8, 0x90#8, 0xE0#8],
  [0xF0#8, 0x80#8, 0xF0#8, 0x80#8, 0xF0#8],
  [0xF0#8, 0x80#8, 0xF0#8, 0x80#8, 0x80#8]]

/-- Big font, digits 0 to 4, ten bytes each, from 0x050 (R58). -/
def bigGlyphsLow : List (List Byte) := [
  [0x3C#8, 0x7E#8, 0xE7#8, 0xC3#8, 0xC3#8, 0xC3#8, 0xC3#8, 0xE7#8, 0x7E#8, 0x3C#8],
  [0x18#8, 0x38#8, 0x58#8, 0x18#8, 0x18#8, 0x18#8, 0x18#8, 0x18#8, 0x18#8, 0x3C#8],
  [0x3E#8, 0x7F#8, 0xC3#8, 0x06#8, 0x0C#8, 0x18#8, 0x30#8, 0x60#8, 0xFF#8, 0xFF#8],
  [0x3C#8, 0x7E#8, 0xC3#8, 0x03#8, 0x0E#8, 0x0E#8, 0x03#8, 0xC3#8, 0x7E#8, 0x3C#8],
  [0x06#8, 0x0E#8, 0x1E#8, 0x36#8, 0x66#8, 0xC6#8, 0xFF#8, 0xFF#8, 0x06#8, 0x06#8]]

/-- Big font, digits 5 to 9, ten bytes each, from 0x082 (R58). -/
def bigGlyphsHigh : List (List Byte) := [
  [0xFF#8, 0xFF#8, 0xC0#8, 0xC0#8, 0xFC#8, 0xFE#8, 0x03#8, 0xC3#8, 0x7E#8, 0x3C#8],
  [0x3E#8, 0x7C#8, 0xC0#8, 0xC0#8, 0xFC#8, 0xFE#8, 0xC3#8, 0xC3#8, 0x7E#8, 0x3C#8],
  [0xFF#8, 0xFF#8, 0x03#8, 0x06#8, 0x0C#8, 0x18#8, 0x30#8, 0x60#8, 0x60#8, 0x60#8],
  [0x3C#8, 0x7E#8, 0xC3#8, 0xC3#8, 0x7E#8, 0x7E#8, 0xC3#8, 0xC3#8, 0x7E#8, 0x3C#8],
  [0x3C#8, 0x7E#8, 0xC3#8, 0xC3#8, 0x7F#8, 0x3F#8, 0x03#8, 0x03#8, 0x3E#8, 0x7C#8]]

/-- The bytes R58 lists, 0x000 to 0x0B3. -/
def fontGlyphBytes : List Byte :=
  (smallGlyphsLow ++ smallGlyphsHigh ++ bigGlyphsLow ++ bigGlyphsHigh).flatten

/-- The default FONT, 512 bytes: "Bytes not listed (0x0B4 to 0x1FF) are 0x00" (R58). -/
def defaultFont : List Byte := fontGlyphBytes ++ List.replicate 332 0x00#8

end Sys2Proof.Machine
end

