-- ==== Sys2Proof/Machine/State.lean ====
section
/-! DEFINITION. The state of the core (10_state.md R20) as plain data, the events of its interface (60_exceptions.md
R180), the reasons a step can stop, and the state after reset (R42). -/

namespace Sys2Proof.Machine

/-- Memory (20_memory.md R50): (address, byte) pairs in canonical form (`Memory.wf`, Machine/Ops.lean). -/
abbrev Memory := List Host.Cell

/-- One backing cell of the display (R28): its on/off state and the frames remaining before it is fully off. -/
structure Pixel where
  on : Bool
  fade : Nat
  deriving DecidableEq, Repr, Inhabited

/-- A cell that is off with nothing left to fade: what an unlisted cell reads as (R42). -/
def Pixel.blank : Pixel := ⟨false, 0⟩

/-- The 128×64 backing grid (R28): (by·128 + bx, cell) pairs in canonical form (`Display.wf`). -/
abbrev Display := List (Nat × Pixel)

/-- The resolution mode (R29). -/
inductive ResMode where
  | lores
  | viphires
  | hires
  deriving DecidableEq, Repr, Inhabited

/-- The scheduler mode (R33). -/
inductive SchedMode where
  | running
  | waitingForKey
  | waitingForVblank
  deriving DecidableEq, Repr, Inhabited

/-- The operands of the one DRW that waits for the refresh edge (R34). -/
structure DrawRequest where
  xv : Byte
  yv : Byte
  n : Nibble
  deriving DecidableEq, Repr, Inhabited

/-- "the failing address/opcode" (R36): where the word was fetched from, and the word. -/
structure FatalRecord where
  addr : Addr
  opcode : Word
  deriving DecidableEq, Repr, Inhabited

/-- The events that change the core's state (R180). A `load` may come without an image ("missing bytes", R184). -/
inductive Event where
  | load (image : Option (List Byte)) (supplied : Metadata)
  | step
  | pollKeys
  | tick60
  | keyDown (i : Nat)
  | keyUp (i : Nat)
  | stop
  deriving DecidableEq, Repr, Inhabited

/-- What waits in the model's queue: an event of R180, a call of the driving loop (R195, R196), or the rest of a
scheduling tick in progress (`cpu k`: up to `k` more instructions; `endTick`: its last line). -/
inductive Input where
  | event (e : Event)
  | frame
  | schedTick (k : Nat)
  | cpu (k : Nat)
  | endTick
  deriving DecidableEq, Repr, Inhabited

/-- What the core emits (R180): the tone edges, a snapshot per refresh (its pixels held as a store keyed
y·128 + x over logical coordinates, R164), and the result of a load. -/
inductive Output where
  | toneStart
  | toneStop
  | snapshot (mode : ResMode) (pixels : List (Nat × Pixel))
  | loadOk
  | supplyFailure
  deriving DecidableEq, Repr, Inhabited

/-- The state: R20's elements under R20's names, then the model's own three fields (log 3, 4, 5). -/
structure State where
  /-- R50 -/
  mem : Memory
  /-- R21 -/
  V : Vector Byte 16
  /-- R23 -/
  I : Addr
  /-- R24 -/
  pc : Addr
  /-- R25; the head is the top -/
  stack : List Addr
  /-- R26 -/
  DT : Byte
  /-- R26 -/
  ST : Byte
  /-- R28 -/
  disp : Display
  /-- R29 -/
  mode : ResMode
  /-- R31 -/
  keys : Vector Bool 16
  /-- R32; none is −1 -/
  waitReg : Option Nibble
  /-- R33 -/
  sched : SchedMode
  /-- R34 -/
  pendingDraw : Option DrawRequest
  /-- R35 -/
  loaded : Bool
  /-- R35 -/
  running : Bool
  /-- R36 -/
  fault : Option FatalRecord
  /-- R37 -/
  underflowSeen : Bool
  /-- R37 -/
  underflowCount : Nat
  /-- R39 -/
  acc : Nat
  /-- R38 -/
  cfg : Cfg
  /-- The model's own: what is still to happen, the next first (log 3). -/
  inputs : List Input
  /-- The model's own: what the core has emitted, the newest first (log 4). -/
  outputs : List Output
  /-- The model's own: how many free values have been drawn (log 5). -/
  draws : Nat
  deriving DecidableEq, Repr, Inhabited

/-- Why a step has no next state. Both are SAFE: the model stops where the spec gives no transition (DESIGN CHOICE,
log 12). -/
inductive Fault where
  /-- Raised by `step` when nothing is queued and the core is not loaded or not running (R193: no internal event is
  enabled; after `Stop` or Fatal the core "awaits an explicit reset"). Safe. -/
  | halted
  /-- Raised by `step` when the queued event is not enabled (R193: "An event that is not enabled has no
  transition"). Safe. -/
  | notEnabled
  deriving DecidableEq, Repr

/-- Why a step is refused. -/
inductive Refusal where
  /-- Raised by `exec` for an instruction that has no meaning yet. Safe. No arm of this model raises it. -/
  | notModelled (mnemonic : String)
  deriving DecidableEq, Repr

/-- The quirk record at reset: `Q0` of 95_test_vectors.md. DESIGN CHOICE (log 2): the spec gives no default
(91_not_in_source.md N12); every load supplies one. -/
def resetQuirks : Quirks where
  logicClearsVF := false
  shiftSource := .vx
  jumpSource := .v0
  spriteEdge := .clip
  vblankSync := false
  memIncrement := .byXPlus1

/-- The open parameters at the defaults R7 recommends; `fadeFrames` has none (DESIGN CHOICE 0, log 2). -/
def defaultParams : Params where
  addISetsVF := false
  font := defaultFont
  smallFontBase := 0x000#9
  bigFontBase := 0x050#9
  filter := .none
  fadeFrames := 0
  modeSwitchClears := false
  scrollUnits := .logical
  keyPick := .lowest

/-- The configuration record at reset (log 2). -/
def resetCfg : Cfg := ⟨resetQuirks, 600, defaultParams⟩

/-- Every element at the value R42 states for a successful `Load`, with no image byte listed (DESIGN CHOICE, log 1).
The core before the first `Load` is `State.beforeFirstLoad` (Machine/Events.lean). -/
def State.reset : State where
  mem := []
  V := Vector.replicate 16 0x00#8
  I := 0x000#12
  pc := 0x200#12
  stack := []
  DT := 0#8
  ST := 0#8
  disp := []
  mode := .lores
  keys := Vector.replicate 16 false
  waitReg := none
  sched := .running
  pendingDraw := none
  loaded := true
  running := true
  fault := none
  underflowSeen := false
  underflowCount := 0
  acc := 0
  cfg := resetCfg
  inputs := []
  outputs := []
  draws := 0

end Sys2Proof.Machine

/-- The unspecified elements of an unloaded core, before the first load and after a refused one (R210, R212). FREE VALUE: nothing is known of it
(U13, log 6, DESIGN CHOICE of the form). -/
opaque Sys2Proof.Config.unspecifiedState : Nat → Sys2Proof.Machine.State
end

