-- ==== Sys2Proof/Machine/Ops.lean ====
section
/-! DEFINITION. The named operations over memory, registers, stack and timers (00_scope.md R9, 20_memory.md), and the
error conditions (60_exceptions.md R181): taking Fatal (R182) and signalling Underflow (R183), each ONE shared
operation. Nothing returns from Fatal (R187): the only way out is `Load` (Machine/Events.lean). -/

namespace Sys2Proof.Machine

/-- The outcome of an instruction or an event. -/
abbrev Res := Host.Outcome State Fault Refusal

/-- `START` (R5): load address, reset pc, underflow fallback. -/
def startAddr : Addr := 0x200#12

/-- VF, the flag register (R22). -/
def vF : Nibble := 0xF#4

/-! ### Memory -/

/-- What a byte that is not listed reads as: the default FONT image in 0x000 to 0x1FF, 0x00 above (R42, R58). That
memory is held so is a DESIGN CHOICE (log 10). -/
def Memory.initial (a : Nat) : Byte := if a < 0x0B4 then fontGlyphBytes.getD a 0x00#8 else 0x00#8

/-- The canonical form: addresses strictly rising, all in the 4096-byte space (R50), no entry equal to what its
address reads as unlisted. -/
abbrev Memory.wf (m : Memory) : Prop := Sparse.WF 4096 Memory.initial m

/-- `MemRead(a, 1)` (R52). -/
def Memory.read (m : Memory) (a : Addr) : Byte := Sparse.get Memory.initial m a.toNat

/-- `MemRead(a, 2) = mem[u12(a)] ++ mem[u12(a+1)]` (R52, R65). -/
def Memory.read2 (m : Memory) (a : Addr) : Word := wordOfBytes (m.read a) (m.read (a + 1))

/-- `MemWrite(a, 1, v)` (R52). -/
def Memory.write (m : Memory) (a : Addr) (v : Byte) : Memory := Sparse.set Memory.initial m a.toNat v

/-- Bytes written one after another from `a` on, each address reduced modulo 4096. -/
def Memory.writeBytes (m : Memory) (a : Addr) : List Byte → Memory
  | [] => m
  | b :: bs => Memory.writeBytes (m.write a b) (a + 1) bs

/-- The memory of an arbitrary list of cells, in canonical form. -/
def Memory.ofCells (l : List Host.Cell) : Memory := Sparse.ofList 4096 Memory.initial l

/-! ### Named updates of the state -/

def State.setMem (s : State) (m : Memory) : State := { s with mem := m }
def State.setI (s : State) (a : Addr) : State := { s with I := a }
def State.setPc (s : State) (a : Addr) : State := { s with pc := a }
def State.setStack (s : State) (l : List Addr) : State := { s with stack := l }
def State.setDT (s : State) (v : Byte) : State := { s with DT := v }
def State.setST (s : State) (v : Byte) : State := { s with ST := v }
def State.setDisp (s : State) (d : Display) : State := { s with disp := d }
def State.setMode (s : State) (m : ResMode) : State := { s with mode := m }
def State.setKeys (s : State) (k : Vector Bool 16) : State := { s with keys := k }
def State.setWaitReg (s : State) (r : Option Nibble) : State := { s with waitReg := r }
def State.setSched (s : State) (m : SchedMode) : State := { s with sched := m }
def State.setPendingDraw (s : State) (d : Option DrawRequest) : State := { s with pendingDraw := d }
def State.setRunning (s : State) (b : Bool) : State := { s with running := b }
def State.setFault (s : State) (f : Option FatalRecord) : State := { s with fault := f }
def State.setAcc (s : State) (n : Nat) : State := { s with acc := n }
def State.setInputs (s : State) (l : List Input) : State := { s with inputs := l }
def State.setDraws (s : State) (n : Nat) : State := { s with draws := n }

/-- An output event is emitted (R180). -/
def State.emit (s : State) (o : Output) : State := { s with outputs := o :: s.outputs }

/-! ### Registers and memory of the state -/

/-- `V[x]` (R9, R21). -/
def State.getV (s : State) (x : Nibble) : Byte := s.V[x.toNat]'(x.isLt)

/-- `V[x] <- v` (R9, R21): no register is hard-wired. -/
def State.setV (s : State) (x : Nibble) (v : Byte) : State := { s with V := s.V.set x.toNat v x.isLt }

/-- One byte of memory. -/
def State.readByte (s : State) (a : Addr) : Byte := s.mem.read a

/-- One byte stored; nothing protects any address (R59). -/
def State.writeByte (s : State) (a : Addr) (v : Byte) : State := s.setMem (s.mem.write a v)

/-- The word at `pc` (R100, R53): the same memory the program writes (R63). -/
def State.fetchWord (s : State) : Word := s.mem.read2 s.pc

/-- `pc <- pc + 2` (R100; a taken skip does it once more, R105). -/
def State.advancePc (s : State) : State := s.setPc (s.pc + 2)

/-- `if c: pc <- pc + 2`, the conditional skip (R105 to R108, R173, R174). -/
def State.skipIf (s : State) (c : Bool) : State := if c then s.advancePc else s

/-- `push(a)` (R25): always succeeds. -/
def State.push (s : State) (a : Addr) : State := s.setStack (a :: s.stack)

/-- `keys[k]` (R31). -/
def State.keyDown (s : State) (k : Nibble) : Bool := s.keys[k.toNat]'(k.isLt)

/-- `ST <- v` with the tone edges (R27, R172, R189): ToneStart on 0 → non-zero, ToneStop on non-zero → 0. -/
def State.writeST (s : State) (v : Byte) : State :=
  if s.ST = 0 ∧ v ≠ 0 then (s.setST v).emit .toneStart
  else if s.ST ≠ 0 ∧ v = 0 then (s.setST v).emit .toneStop
  else s.setST v

/-- A fresh free value has been used (log 5). -/
def State.drawn (s : State) : State := s.setDraws (s.draws + 1)

/-! ### Error conditions -/

/-- `raise Fatal(a, w)` (R182): the fault record is written, `running` falls, nothing else changes. -/
def raiseFatal (a : Addr) (w : Word) (s : State) : State := (s.setFault (some ⟨a, w⟩)).setRunning false

/-- `signal Underflow` (R183) with R102's fallback: `pc <- 0x200`, the status is counted, execution goes on. -/
def signalUnderflow (s : State) : State :=
  { s with pc := startAddr, underflowSeen := true, underflowCount := s.underflowCount + 1 }

/-! ### Placing a word to be fetched next (the host's interface) -/

/-- The word `w` stored at `pc` as the hardware stores it, with `Step` enabled (R193) and nothing queued before it
(DESIGN CHOICE, log 13). -/
def State.placeWord (s : State) (w : Word) : State :=
  { s with
    mem := (s.mem.write s.pc (highByte w)).write (s.pc + 1) (lowByte w)
    loaded := true
    running := true
    sched := .running
    inputs := [] }

end Sys2Proof.Machine
end

