-- ==== Sys2Proof/Machine/Operands.lean ====
section
/-! DEFINITION. The operand forms: register and immediate operands (30_encoding.md R73), the one addressing mode
(42_index_memory.md), the quirk-selected operands (R109, R128), font addresses (R142, R143), BCD digits (R144) and
the index update of the bulk moves (R145). -/

namespace Sys2Proof.Machine

/-- The low four bits of a register's value, an index 0 to 15 (R142, R173, D18). -/
def lowNibble (v : Byte) : Nibble := v.extractLsb' 0 4

/-- Effective address `u12(I + i)` (R51, R65, head of 42_index_memory.md). -/
def State.effAddr (s : State) (i : Nat) : Addr := u12 (s.I.toNat + i)

/-- The register a number below 16 names, for the bulk moves (R145, R146). -/
def regOfNat (i : Nat) : Nibble := BitVec.ofNat 4 i

/-- `x = w[11:8]` of JP V0,nnn: the top nibble of `nnn` (R109). -/
def jumpRegField (nnn : Addr) : Nibble := nnn.extractLsb' 8 4

/-- The register JP V0,nnn adds (R109, `q.jumpSource`). -/
def State.jumpReg (s : State) (nnn : Addr) : Nibble :=
  match s.cfg.q.jumpSource with
  | .v0 => 0x0#4
  | .vx => jumpRegField nnn

/-- The target of JP V0,nnn: `nnn` plus the register, modulo 4096 (R109). -/
def State.jumpTarget (s : State) (nnn : Addr) : Addr := u12 (nnn.toNat + (s.getV (s.jumpReg nnn)).toNat)

/-- The value SHR and SHL shift: V[x], or V[y] copied into it first (R128, `q.shiftSource`). -/
def State.shiftOperand (s : State) (x y : Nibble) : Byte :=
  match s.cfg.q.shiftSource with
  | .vx => s.getV x
  | .vy => s.getV y

/-- `SMALL_FONT_BASE + 5 * (v & 0xF)` (R142). -/
def State.smallGlyphAddr (s : State) (v : Byte) : Addr :=
  u12 (s.cfg.params.smallFontBase.toNat + 5 * (lowNibble v).toNat)

/-- `BIG_FONT_BASE + 10 * (v & 0xF)` (R143). -/
def State.bigGlyphAddr (s : State) (v : Byte) : Addr :=
  u12 (s.cfg.params.bigFontBase.toNat + 10 * (lowNibble v).toNat)

/-- Hundreds digit (R144). -/
def bcdHundreds (v : Byte) : Byte := u8 (v.toNat / 100)
/-- Tens digit (R144). -/
def bcdTens (v : Byte) : Byte := u8 (v.toNat / 10 % 10)
/-- Ones digit (R144). -/
def bcdOnes (v : Byte) : Byte := u8 (v.toNat % 10)

/-- `I` after a bulk move with field `x` (R145, R146, `q.memIncrement`). -/
def State.bulkIndex (s : State) (x : Nibble) : Addr :=
  match s.cfg.q.memIncrement with
  | .byXPlus1 => u12 (s.I.toNat + x.toNat + 1)
  | .byX => u12 (s.I.toNat + x.toNat)
  | .unchanged => s.I

/-- `(a + b) mod 256` (R133). -/
def add8 (a b : Byte) : Byte := u8 (a.toNat + b.toNat)

/-- `(a − b) mod 256` (R133). -/
def sub8 (a b : Byte) : Byte := u8 (256 + a.toNat - b.toNat)

/-- `t >> 1`: bit 7 becomes 0 (R128). -/
def shr8 (t : Byte) : Byte := u8 (t.toNat / 2)

/-- `(t << 1) mod 256`: bit 0 becomes 0 (R130). -/
def shl8 (t : Byte) : Byte := u8 (t.toNat * 2)

end Sys2Proof.Machine
end

