-- ==== Sys2Proof/Machine/Flags.lean ====
section
/-! DEFINITION. Every flag computation: the only flag is VF (10_state.md R22), its value 0 or 1 whenever it is written
as a flag, and it is written after the result (41_alu.md R132). -/

namespace Sys2Proof.Machine

/-- A flag's value as the byte VF takes. -/
def flagByte (b : Bool) : Byte := if b then 1#8 else 0#8

/-- Carry of `a + b`: the 9-bit sum exceeds 255 (R126, R133). -/
def carryFlag (a b : Byte) : Byte := flagByte (decide (a.toNat + b.toNat > 255))

/-- No borrow of `a − b`: `a ≥ b` (R127, R133). -/
def noBorrowFlag (a b : Byte) : Byte := flagByte (decide (a.toNat ≥ b.toNat))

/-- The bit SHR shifts out, bit 0 (R128). -/
def shiftedOutLow (t : Byte) : Byte := flagByte (decide (t.toNat % 2 = 1))

/-- The bit SHL shifts out, bit 7 (R130). -/
def shiftedOutHigh (t : Byte) : Byte := flagByte (decide (t.toNat / 128 = 1))

/-- Wrap of `I + V[x]` past 0xFFF (R141). -/
def indexWrapFlag (a : Addr) (v : Byte) : Byte := flagByte (decide (a.toNat + v.toNat > 0xFFF))

/-- Result to V[x], then the flag to VF: with x = 15 VF ends as the flag (R22, R132). -/
def State.writeWithFlag (s : State) (x : Nibble) (result flag : Byte) : State := (s.setV x result).setV vF flag

/-- Result of a logic operation to V[x], then VF ← 0 if and only if `q.logicClearsVF` (R123 to R125, R132). -/
def State.writeLogic (s : State) (x : Nibble) (result : Byte) : State :=
  if s.cfg.q.logicClearsVF then (s.setV x result).setV vF 0#8 else s.setV x result

end Sys2Proof.Machine
end

