-- ==== Sys2Proof/Machine/Alu.lean ====
section
/-! DEFINITION. Register loads, arithmetic, logic, shifts and the random byte (41_alu.md). Sources are read before
V[x] is written, and VF is written last (R132). -/

namespace Sys2Proof.Machine

/-- LD Vx,nn (R120). -/
def execLdImm (x : Nibble) (nn : Byte) (s : State) : Res := .next (s.setV x nn)

/-- ADD Vx,nn (R121): no flag. -/
def execAddImm (x : Nibble) (nn : Byte) (s : State) : Res := .next (s.setV x (add8 (s.getV x) nn))

/-- LD Vx,Vy (R122). -/
def execLdReg (x y : Nibble) (s : State) : Res := .next (s.setV x (s.getV y))

/-- OR Vx,Vy (R123). -/
def execOr (x y : Nibble) (s : State) : Res := .next (s.writeLogic x (s.getV x ||| s.getV y))

/-- AND Vx,Vy (R124). -/
def execAnd (x y : Nibble) (s : State) : Res := .next (s.writeLogic x (s.getV x &&& s.getV y))

/-- XOR Vx,Vy (R125). -/
def execXor (x y : Nibble) (s : State) : Res := .next (s.writeLogic x (s.getV x ^^^ s.getV y))

/-- ADD Vx,Vy (R126). -/
def execAddReg (x y : Nibble) (s : State) : Res :=
  .next (s.writeWithFlag x (add8 (s.getV x) (s.getV y)) (carryFlag (s.getV x) (s.getV y)))

/-- SUB Vx,Vy (R127). -/
def execSub (x y : Nibble) (s : State) : Res :=
  .next (s.writeWithFlag x (sub8 (s.getV x) (s.getV y)) (noBorrowFlag (s.getV x) (s.getV y)))

/-- SUBN Vx,Vy (R129): the operands swapped, the destination still V[x]. -/
def execSubn (x y : Nibble) (s : State) : Res :=
  .next (s.writeWithFlag x (sub8 (s.getV y) (s.getV x)) (noBorrowFlag (s.getV y) (s.getV x)))

/-- SHR Vx,Vy (R128). -/
def execShr (x y : Nibble) (s : State) : Res :=
  .next (s.writeWithFlag x (shr8 (s.shiftOperand x y)) (shiftedOutLow (s.shiftOperand x y)))

/-- SHL Vx,Vy (R130). -/
def execShl (x y : Nibble) (s : State) : Res :=
  .next (s.writeWithFlag x (shl8 (s.shiftOperand x y)) (shiftedOutHigh (s.shiftOperand x y)))

/-- RND Vx,nn (R131): a fresh free byte ANDed with `nn`. -/
def execRnd (x : Nibble) (nn : Byte) (s : State) : Res :=
  .next ((s.setV x (Config.rand8 s.draws &&& nn)).drawn)

end Sys2Proof.Machine
end

