-- ==== Sys2Proof/Machine/ControlFlow.lean ====
section
/-! DEFINITION. SYS, RET, JP, CALL, the four compare-and-skip instructions and JP V0 (40_control_flow.md). `pc` has
already been advanced past the instruction (R100). -/

namespace Sys2Proof.Machine

/-- SYS nnn (R101): `raise Fatal(a, w)`; `a` is two below the advanced `pc`, `w` the instruction's own word. -/
def execSys (nnn : Addr) (s : State) : Res := .next (raiseFatal (s.pc - 2) (encode (.sys nnn)) s)

/-- RET (R102): pop, or on an empty stack the recoverable Underflow. -/
def execRet (s : State) : Res :=
  match s.stack with
  | [] => .next (signalUnderflow s)
  | a :: rest => .next ((s.setStack rest).setPc a)

/-- JP nnn (R103). -/
def execJp (nnn : Addr) (s : State) : Res := .next (s.setPc nnn)

/-- CALL nnn (R104): the advanced `pc` is pushed. -/
def execCall (nnn : Addr) (s : State) : Res := .next ((s.push s.pc).setPc nnn)

/-- SE Vx,nn (R105). -/
def execSeImm (x : Nibble) (nn : Byte) (s : State) : Res := .next (s.skipIf (s.getV x == nn))

/-- SNE Vx,nn (R106). -/
def execSneImm (x : Nibble) (nn : Byte) (s : State) : Res := .next (s.skipIf (s.getV x != nn))

/-- SE Vx,Vy (R107). -/
def execSeReg (x y : Nibble) (s : State) : Res := .next (s.skipIf (s.getV x == s.getV y))

/-- SNE Vx,Vy (R108). -/
def execSneReg (x y : Nibble) (s : State) : Res := .next (s.skipIf (s.getV x != s.getV y))

/-- JP V0,nnn (R109). -/
def execJpV0 (nnn : Addr) (s : State) : Res := .next (s.setPc (s.jumpTarget nnn))

end Sys2Proof.Machine
end

