-- ==== Sys2Proof/Machine/DisplayOps.lean ====
section
/-! DEFINITION. The display engine (10_state.md R28 to R30, 43_display.md): cells and logical pixels, clearing, sprite
drawing, scrolling, mode switches, snapshot and fade countdown. -/

namespace Sys2Proof.Machine

/-- Cells per row of the backing grid, `BACK_W` (R5). -/
def backW : Nat := 128
/-- Rows of the backing grid, `BACK_H` (R5). -/
def backH : Nat := 64

/-- The key of the cell in column `bx`, row `by'`. -/
def cellKey (bx by' : Nat) : Nat := by' * backW + bx

/-- What an unlisted cell reads as. -/
def Display.initial (_ : Nat) : Pixel := Pixel.blank

/-- The canonical form of the display's store. -/
abbrev Display.wf (d : Display) : Prop := Sparse.WF (backW * backH) Display.initial d

/-- `disp[bx][by]` (R28). -/
def Display.cell (d : Display) (bx by' : Nat) : Pixel := Sparse.get Display.initial d (cellKey bx by')

/-- `disp[bx][by] <- c` (R28). -/
def Display.setCell (d : Display) (bx by' : Nat) (c : Pixel) : Display :=
  Sparse.set Display.initial d (cellKey bx by') c

/-- Logical width `W` (R29). -/
def ResMode.width : ResMode → Nat
  | .lores => 64
  | .viphires => 64
  | .hires => 128

/-- Logical height `H` (R29). -/
def ResMode.height : ResMode → Nat
  | .lores => 32
  | .viphires => 64
  | .hires => 64

/-- Block width `bw` (R29). -/
def ResMode.blockW : ResMode → Nat
  | .lores => 2
  | .viphires => 2
  | .hires => 1

/-- Block height `bh` (R29). -/
def ResMode.blockH : ResMode → Nat
  | .lores => 2
  | .viphires => 1
  | .hires => 1

/-- The cell a logical pixel is read from: the top-left one of its block (R30). -/
def State.pixel (s : State) (x y : Nat) : Pixel := s.disp.cell (x * s.mode.blockW) (y * s.mode.blockH)

/-- `PixOn(x, y)` (R30). -/
def State.pixOn (s : State) (x y : Nat) : Bool := (s.pixel x y).on

/-- `PixFade(x, y)` (R30). -/
def State.pixFade (s : State) (x y : Nat) : Nat := (s.pixel x y).fade

/-- `cells(x, y)` (R30): the cells of a logical pixel's block. -/
def blockCells (m : ResMode) (x y : Nat) : List (Nat × Nat) :=
  (List.range m.blockW).flatMap (fun dx => (List.range m.blockH).map (fun dy => (x * m.blockW + dx, y * m.blockH + dy)))

/-- Every cell of a logical pixel's block set to `c` (R30). -/
def State.setBlock (s : State) (x y : Nat) (c : Pixel) : State :=
  s.setDisp ((blockCells s.mode x y).foldl (fun d p => d.setCell p.1 p.2 c) s.disp)

/-- `OffFade()` (R30). -/
def State.offFade (s : State) : Nat :=
  match s.cfg.params.filter with
  | .none => 0
  | .flickerFix => s.cfg.params.fadeFrames
  | .fade => s.cfg.params.fadeFrames

/-- `SetOn(x, y)` (R30). -/
def State.setOn (s : State) (x y : Nat) : State := s.setBlock x y ⟨true, 0⟩

/-- `SetOff(x, y)` (R30). -/
def State.setOff (s : State) (x y : Nat) : State := s.setBlock x y ⟨false, s.offFade⟩

/-! ### Clearing -/

/-- One cell under `ClearGrid` (R150): a lit cell is turned off under the filter policy, an off cell is unchanged. -/
def clearCell (offFade : Nat) (c : Pixel) : Pixel := if c.on then ⟨false, offFade⟩ else c

/-- `ClearGrid()` (R150). -/
def State.clearGrid (s : State) : State :=
  s.setDisp (Sparse.mapVals Display.initial (clearCell s.offFade) s.disp)

/-! ### Sprites -/

/-- `SpriteShape(n)` (R154): the row count and the bytes per row. -/
def spriteShape (m : ResMode) (n : Nibble) : Nat × Nat :=
  if n = 0#4 ∧ m = .hires then (16, 2) else (n.toNat, 1)

/-- Bit `b` of row `r` of the sprite at `I`, `b = 0` the leftmost pixel (R153). -/
def State.spriteBit (s : State) (bpr r b : Nat) : Bool :=
  (s.readByte (s.effAddr (r * bpr + b / 8))).getLsbD (7 - b % 8)

/-- A 1 bit drawn at logical pixel (px, py): a lit pixel is turned off and sets VF, an unlit one is turned on (R153). -/
def State.togglePixel (s : State) (px py : Nat) : State :=
  if s.pixOn px py then (s.setOff px py).setV vF 1#8 else s.setOn px py

/-- A 1 bit whose pixel may lie past the right or bottom edge: wrapped or clipped (R153, `q.spriteEdge`). -/
def State.drawAt (s : State) (px py : Nat) : State :=
  match s.cfg.q.spriteEdge with
  | .wrap => s.togglePixel (px % s.mode.width) (py % s.mode.height)
  | .clip => if px ≥ s.mode.width ∨ py ≥ s.mode.height then s else s.togglePixel px py

/-- One bit of the sprite: a 0 bit neither changes nor tests a pixel (R153). -/
def State.drawBit (x0 y0 bpr r : Nat) (s : State) (b : Nat) : State :=
  if s.spriteBit bpr r b then s.drawAt (x0 + b) (y0 + r) else s

/-- One row of the sprite, left to right (R153). -/
def State.drawRow (x0 y0 bpr : Nat) (s : State) (r : Nat) : State :=
  (List.range (8 * bpr)).foldl (State.drawBit x0 y0 bpr r) s

/-- `DrawSprite(xv, yv, n)` (R153). -/
def State.drawSprite (s : State) (d : DrawRequest) : State :=
  (List.range (spriteShape s.mode d.n).1).foldl
    (State.drawRow (d.xv.toNat % s.mode.width) (d.yv.toNat % s.mode.height) (spriteShape s.mode d.n).2)
    (s.setV vF 0#8)

/-! ### Scrolling -/

/-- Where `ShiftGrid(dx, dy)` moves the cell with a given key, none if it leaves the grid (R155). -/
def shiftKey (dx dy : Int) (k : Nat) : Option Nat :=
  let bx : Int := (k % backW : Nat) + dx
  let by' : Int := (k / backW : Nat) + dy
  if 0 ≤ bx ∧ bx < backW ∧ 0 ≤ by' ∧ by' < backH then some (cellKey bx.toNat by'.toNat) else none

/-- `ShiftGrid(dx, dy)` (R155): on/off state and fade move together, vacated cells are blank, nothing wraps. -/
def State.shiftGrid (s : State) (dx dy : Int) : State := s.setDisp (Sparse.rekey (shiftKey dx dy) s.disp)

/-- Backing columns of a horizontal scroll by `d` (R155, `SCROLL_UNITS`). -/
def State.scrollCols (s : State) (d : Nat) : Nat :=
  match s.cfg.params.scrollUnits with
  | .logical => d * s.mode.blockW
  | .backing => d

/-- Backing rows of a vertical scroll by `d` (R155, `SCROLL_UNITS`). -/
def State.scrollRows (s : State) (d : Nat) : Nat :=
  match s.cfg.params.scrollUnits with
  | .logical => d * s.mode.blockH
  | .backing => d

/-- `SCROLL_H` (R5). -/
def scrollH : Nat := 4

/-! ### Mode, snapshot, fade -/

/-- `SwitchMode(m)` (R163). -/
def State.switchMode (s : State) (m : ResMode) : State :=
  if s.cfg.params.modeSwitchClears then (s.setMode m).setDisp [] else s.setMode m

/-- Where `Snapshot` puts a cell: a top-left cell of a block becomes its logical pixel, keyed y·128 + x (R164). -/
def snapshotKey (m : ResMode) (k : Nat) : Option Nat :=
  let bx := k % backW
  let by' := k / backW
  if bx % m.blockW = 0 ∧ by' % m.blockH = 0 then some (cellKey (bx / m.blockW) (by' / m.blockH)) else none

/-- `Snapshot()` (R164): `g[x][y] = (PixOn(x,y), PixFade(x,y))` over the logical grid, as a store. -/
def State.snapshot (s : State) : Output := .snapshot s.mode (Sparse.rekey (snapshotKey s.mode) s.disp)

/-- One cell under `AgeFade` (R165). -/
def ageCell (c : Pixel) : Pixel := if c.on then c else ⟨false, c.fade - 1⟩

/-- `AgeFade()` (R165). -/
def State.ageFade (s : State) : State := s.setDisp (Sparse.mapVals Display.initial ageCell s.disp)

end Sys2Proof.Machine
end

