-- ==== Sys2Proof/Machine/DisplayInstr.lean ====
section
/-! DEFINITION. CLS, DRW, the scrolls and the mode switches (43_display.md). -/

namespace Sys2Proof.Machine

/-- CLS (R151). -/
def execCls (s : State) : Res := .next s.clearGrid

/-- DRW Vx,Vy,n (R152): drawn at once, or queued for the next refresh edge under `q.vblankSync`. -/
def execDrw (x y n : Nibble) (s : State) : Res :=
  if s.cfg.q.vblankSync then
    .next ((s.setPendingDraw (some ⟨s.getV x, s.getV y, n⟩)).setSched .waitingForVblank)
  else
    .next (s.drawSprite ⟨s.getV x, s.getV y, n⟩)

/-- SCD n (R156). -/
def execScd (n : Nibble) (s : State) : Res := .next (s.shiftGrid 0 (s.scrollRows n.toNat))

/-- SCR (R157). -/
def execScr (s : State) : Res := .next (s.shiftGrid (s.scrollCols scrollH) 0)

/-- SCL (R158). -/
def execScl (s : State) : Res := .next (s.shiftGrid (-(s.scrollCols scrollH : Int)) 0)

/-- LOW (R160). -/
def execLow (s : State) : Res := .next (s.switchMode .lores)

/-- HIGH (R161). -/
def execHigh (s : State) : Res := .next (s.switchMode .hires)

/-- HIRES64 (R162): `mode <- VIPHIRES; ClearGrid()`. -/
def execHires64 (s : State) : Res := .next (s.setMode .viphires).clearGrid

end Sys2Proof.Machine
end

