-- ==== Sys2Proof/Machine/IndexMemory.lean ====
section
/-! DEFINITION. The index register, font addresses, BCD and the bulk moves (42_index_memory.md). -/

namespace Sys2Proof.Machine

/-- LD I,nnn (R140). -/
def execLdI (nnn : Addr) (s : State) : Res := .next (s.setI nnn)

/-- ADD I,Vx (R141): VF only under the compatibility switch, from the operands read first. -/
def execAddI (x : Nibble) (s : State) : Res :=
  if s.cfg.params.addISetsVF then
    .next ((s.setI (u12 (s.I.toNat + (s.getV x).toNat))).setV vF (indexWrapFlag s.I (s.getV x)))
  else
    .next (s.setI (u12 (s.I.toNat + (s.getV x).toNat)))

/-- LD F,Vx (R142). -/
def execLdF (x : Nibble) (s : State) : Res := .next (s.setI (s.smallGlyphAddr (s.getV x)))

/-- LD HF,Vx (R143). -/
def execLdHF (x : Nibble) (s : State) : Res := .next (s.setI (s.bigGlyphAddr (s.getV x)))

/-- LD B,Vx (R144): hundreds, tens, ones at I, I+1, I+2; `I` unchanged. -/
def execLdB (x : Nibble) (s : State) : Res :=
  .next (((s.writeByte (s.effAddr 0) (bcdHundreds (s.getV x))).writeByte (s.effAddr 1)
    (bcdTens (s.getV x))).writeByte (s.effAddr 2) (bcdOnes (s.getV x)))

/-- One store of LD [I],Vx: V[i] to `u12(I + i)` (R145). -/
def State.storeReg (t : State) (i : Nat) : State := t.writeByte (t.effAddr i) (t.getV (regOfNat i))

/-- One load of LD Vx,[I]: V[i] from `u12(I + i)` (R146). -/
def State.loadReg (t : State) (i : Nat) : State := t.setV (regOfNat i) (t.readByte (t.effAddr i))

/-- LD [I],Vx (R145): ascending i, then the index update. -/
def execStoreRegs (x : Nibble) (s : State) : Res :=
  .next (((List.range (x.toNat + 1)).foldl State.storeReg s).setI (s.bulkIndex x))

/-- LD Vx,[I] (R146): ascending i, then the index update. -/
def execLoadRegs (x : Nibble) (s : State) : Res :=
  .next (((List.range (x.toNat + 1)).foldl State.loadReg s).setI (s.bulkIndex x))

end Sys2Proof.Machine
end

