-- ==== Sys2Proof/Machine/TimersKeys.lean ====
section
/-! DEFINITION. The timer and key instructions (44_timers_keys.md). -/

namespace Sys2Proof.Machine

/-- LD Vx,DT (R170). -/
def execLdVxDT (x : Nibble) (s : State) : Res := .next (s.setV x s.DT)

/-- LD DT,Vx (R171). -/
def execLdDTVx (x : Nibble) (s : State) : Res := .next (s.setDT (s.getV x))

/-- LD ST,Vx (R172), with the tone edges. -/
def execLdSTVx (x : Nibble) (s : State) : Res := .next (s.writeST (s.getV x))

/-- SKP Vx (R173). -/
def execSkp (x : Nibble) (s : State) : Res := .next (s.skipIf (s.keyDown (lowNibble (s.getV x))))

/-- SKNP Vx (R174). -/
def execSknp (x : Nibble) (s : State) : Res := .next (s.skipIf (!s.keyDown (lowNibble (s.getV x))))

/-- LD Vx,K (R175): the wait begins; V[x] is written by a later `PollKeys` (R191). -/
def execLdVxK (x : Nibble) (s : State) : Res := .next ((s.setWaitReg (some x)).setSched .waitingForKey)

end Sys2Proof.Machine
end

