-- ==== Sys2Proof/Machine/Events.lean ====
section
/-! DEFINITION. The events of the core (60_exceptions.md, 70_reset_and_hazards.md): Step, PollKeys, Tick60, KeyDown,
KeyUp, Stop and Load, with when each is enabled (R193). -/

namespace Sys2Proof.Machine

/-! ### Step -/

/-- `Step` (R100): fetch two bytes, advance `pc` by 2, decode, execute; an unrecognized word raises Fatal. -/
def stepInstr (s : State) : Res :=
  match decode s.fetchWord with
  | .ok i => exec i s.advancePc
  | .error _ => .next (raiseFatal s.pc s.fetchWord s.advancePc)

/-! ### Keys -/

/-- `KeyDown(i)` (R197). -/
def State.pressKey (s : State) (i : Nat) : State := s.setKeys (s.keys.setIfInBounds i true)

/-- `KeyUp(i)` (R197). -/
def State.releaseKey (s : State) (i : Nat) : State := s.setKeys (s.keys.setIfInBounds i false)

/-- The indices of the keys that are down, lowest first. -/
def State.pressedKeys (s : State) : List Nibble :=
  ((List.range 16).map (fun i => BitVec.ofNat 4 i)).filter s.keyDown

/-- `keyPick(keys)` (R191, R7, U12) for a state with some key down: the lowest pressed key, or a free choice. -/
def State.pickKey (s : State) : Nibble :=
  match s.cfg.params.keyPick with
  | .lowest => s.pressedKeys.headD 0#4
  | .anyPressed => s.pressedKeys.getD (Config.pickKey s.draws % s.pressedKeys.length) 0#4

/-- The draw counter moves only where the choice is free. -/
def State.pickDrawn (s : State) : State :=
  match s.cfg.params.keyPick with
  | .lowest => s
  | .anyPressed => s.drawn

/-- `V[waitReg] <- k` (R191, C4). In a state without a pending register (no run reaches one with a blocked wait,
R40) no register is written (log 8). -/
def State.writeWaiting (s : State) (k : Nibble) : State :=
  match s.waitReg with
  | some x => s.setV x (k.setWidth 8)
  | none => s

/-- A captured key: written, consumed, the wait over (R191). -/
def State.captureKey (s : State) (k : Nibble) : State :=
  ((((s.writeWaiting k).releaseKey k.toNat).setWaitReg none).setSched .running).pickDrawn

/-- `PollKeys` (R191). -/
def State.pollKeys (s : State) : State := if s.pressedKeys = [] then s else s.captureKey s.pickKey

/-! ### The 60 Hz tick -/

/-- `DecrementTimers()` (R189). -/
def State.decrementTimers (s : State) : State :=
  let s1 := if s.DT ≠ 0 then s.setDT (s.DT - 1) else s
  if s.ST ≠ 0 then s1.writeST (s.ST - 1) else s1

/-- The queued draw is flushed and the mode returns to RUNNING (R192). In a waiting state without a queued draw (no
run reaches one, R40) there is nothing to draw (log 8). -/
def State.flushDraw (s : State) : State :=
  match s.sched, s.pendingDraw with
  | .waitingForVblank, some d => ((s.drawSprite d).setPendingDraw none).setSched .running
  | .waitingForVblank, none => s.setSched .running
  | .running, _ => s
  | .waitingForKey, _ => s

/-- `Refresh()` (R192): flush, snapshot, then the fade countdown. -/
def State.refresh (s : State) : State := (s.flushDraw.emit s.flushDraw.snapshot).ageFade

/-- `Tick60` (R194): `DecrementTimers(); Refresh()`. -/
def State.tick60 (s : State) : State := s.decrementTimers.refresh

/-! ### Load -/

/-- The six quirk fields with a listed value each (R6), none if both index-increment variants are selected (C2). -/
def quirksOf (md : Metadata) : Option Quirks :=
  let rest (inc : MemIncrement) : Quirks :=
    ⟨md.logicClearsVF, md.shiftSource, md.jumpSource, md.spriteEdge, md.vblankSync, inc⟩
  match md.incrementByX, md.incrementUnchanged with
  | false, false => some (rest .byXPlus1)
  | true, false => some (rest .byX)
  | false, true => some (rest .unchanged)
  | true, true => none

/-- The image fits: `1 ≤ len ≤ 3584` (R211, `MAX_IMAGE` of R5). -/
def imageFits (image : List Byte) : Bool := decide (1 ≤ image.length ∧ image.length ≤ 3584)

/-- The record's rate and font are well formed: `ips ≥ 1` (R211), FONT of 512 bytes (R7; a check of the length is
DEDUCED, log 9). -/
def ratesOk (md : Metadata) : Bool := decide (md.ips ≥ 1 ∧ md.params.font.length = 512)

/-- The image and the configuration of a valid load, none where R211 refuses it. -/
def loadedPair (image : Option (List Byte)) (md : Metadata) : Option (List Byte × Cfg) :=
  match image, quirksOf md with
  | some bytes, some q => if imageFits bytes && ratesOk md then some (bytes, ⟨q, md.ips, md.params⟩) else none
  | _, _ => none

/-- `Valid(image, cfg')` (R211). -/
def loadValid (image : Option (List Byte)) (md : Metadata) : Bool := (loadedPair image md).isSome

/-- "if loaded and ST ≠ 0: emit ToneStop" (R210). -/
def State.silence (s : State) : State := if s.loaded ∧ s.ST ≠ 0 then s.emit .toneStop else s

/-- Memory after a load (R42, R210): FONT, the image from 0x200 on, 0x00 elsewhere. -/
def loadedMemory (font image : List Byte) : Memory :=
  Memory.writeBytes (Memory.writeBytes [] 0x000#12 font) startAddr image

/-- Every element of state at its value in R42; the model's own fields go on. -/
def State.resetWith (s : State) (image : List Byte) (cfg : Cfg) : State :=
  { State.reset with
    mem := loadedMemory cfg.params.font image
    cfg := cfg
    inputs := s.inputs
    outputs := s.outputs
    draws := s.draws }

/-- The unloaded state (R212): `loaded` and `running` false, every other element of R20 unspecified, which is the
`n`-th free value in the canonical forms of memory and display (log 6); the model's own fields as given. -/
def unloadedState (n : Nat) (inputs : List Input) (outputs : List Output) : State :=
  { Config.unspecifiedState n with
    mem := Memory.ofCells (Config.unspecifiedState n).mem
    disp := Sparse.ofList (backW * backH) Display.initial (Config.unspecifiedState n).disp
    loaded := false
    running := false
    inputs := inputs
    outputs := outputs
    draws := n + 1 }

/-- The core before the first `Load` (R42, R212): unloaded, nothing queued, nothing emitted. `Load` is the only event
that is enabled, and it makes the state after reset of it. Queue one with `setInputs` to start the core from here. -/
def State.beforeFirstLoad : State := unloadedState 0 [] []

/-- The state after a refused load (R184, R210, R212): unloaded. The model's own fields go on. -/
def State.unload (s : State) : State := unloadedState s.draws s.inputs s.outputs

/-- `Load(image, cfg')` (R210); its result is emitted (R180). -/
def State.load (s : State) (image : Option (List Byte)) (md : Metadata) : State :=
  match loadedPair image md with
  | some (bytes, cfg) => (s.silence.resetWith bytes cfg).emit .loadOk
  | none => s.silence.unload.emit .supplyFailure

/-! ### Events -/

/-- When an event is enabled (R193). -/
def enabled (e : Event) (s : State) : Bool :=
  match e with
  | .load _ _ => true
  | .step => s.loaded && s.running && s.sched == .running
  | .pollKeys => s.loaded && s.running && s.sched == .waitingForKey
  | .tick60 => s.loaded && s.running
  | .keyDown i => s.loaded && decide (i ≤ 15)
  | .keyUp i => s.loaded && decide (i ≤ 15)
  | .stop => s.loaded

/-- The effect of an event that is enabled (R180). -/
def perform (e : Event) (s : State) : Res :=
  match e with
  | .load image md => .next (s.load image md)
  | .step => stepInstr s
  | .pollKeys => .next s.pollKeys
  | .tick60 => .next s.tick60
  | .keyDown i => .next (s.pressKey i)
  | .keyUp i => .next (s.releaseKey i)
  | .stop => .next (s.setRunning false)

/-- An event happens if it is enabled; "An event that is not enabled has no transition" (R193). -/
def fire (e : Event) (s : State) : Res := if enabled e s then perform e s else .fault .notEnabled

end Sys2Proof.Machine
end

