-- ==== Sys2Proof/Machine/Scheduler.lean ====
section
/-! DEFINITION. What happens next: the queue of inputs, the scheduling tick (60_exceptions.md R195) and the reference
frame (R196) unrolled one event a step, and the event that comes by itself when nothing is queued. -/

namespace Sys2Proof.Machine

/-- More inputs in front of the queue. -/
def State.queueFirst (s : State) (l : List Input) : State := s.setInputs (l ++ s.inputs)

/-- The instruction budget of one `Frame()` (R196). -/
def State.frameBudget (s : State) : Nat :=
  if s.running ∧ s.sched = .running then (s.acc + s.cfg.ips) / 60 else 0

/-- The accumulator after one `Frame()` (R196): the budget of a waiting frame is dropped, not carried. -/
def State.frameAcc (s : State) : Nat :=
  if s.running ∧ s.sched = .running then (s.acc + s.cfg.ips) % 60 else s.acc

/-- `Frame()` (R196): the accumulator moves and one scheduling tick is due. -/
def State.beginFrame (s : State) : State := (s.setAcc s.frameAcc).queueFirst [.schedTick s.frameBudget]

/-- `SchedTick(k)` (R195): nothing if not running; a key poll, or up to `k` instructions; then the tick's end. -/
def State.beginTick (s : State) (k : Nat) : State :=
  if s.running then
    match s.sched with
    | .waitingForKey => s.queueFirst [.event .pollKeys, .endTick]
    | .waitingForVblank => s.queueFirst [.endTick]
    | .running => s.queueFirst [.cpu k, .endTick]
  else s

/-- The loop of R195: up to `k` steps, stopping as soon as `running = false` or `sched ≠ RUNNING`. -/
def State.cpuLoop (s : State) (k : Nat) : Res :=
  match k with
  | 0 => .next s
  | k + 1 => if enabled .step s then stepInstr (s.queueFirst [.cpu k]) else .next s

/-- The last line of R195: "if running: Tick60()". -/
def State.endTick (s : State) : Res := if enabled .tick60 s then .next s.tick60 else .next s

/-- The event that comes by itself when nothing is queued (log 3): the CPU steps, a blocked key-wait is polled, a
waiting draw meets its refresh edge. -/
def State.ownEvent (s : State) : Event :=
  match s.sched with
  | .running => .step
  | .waitingForKey => .pollKeys
  | .waitingForVblank => .tick60

/-- With nothing queued: the machine's own event, or halted. -/
def State.runAlone (s : State) : Res := if enabled s.ownEvent s then perform s.ownEvent s else .fault .halted

/-- One input taken from the queue. -/
def State.take (s : State) (i : Input) : Res :=
  match i with
  | .event e => fire e s
  | .frame => .next s.beginFrame
  | .schedTick k => .next (s.beginTick k)
  | .cpu k => s.cpuLoop k
  | .endTick => s.endTick

/-- One step of the machine. -/
def advance (s : State) : Res :=
  match s.inputs with
  | [] => s.runAlone
  | i :: rest => (s.setInputs rest).take i

end Sys2Proof.Machine
end

