-- ==== Sys2Proof/Machine/Step.lean ====
section
/-! DEFINITION. The step function and the host's way to place the next instruction. -/

namespace Sys2Proof.Machine

/-- One step: the next queued input, or the machine's own event (Machine/Scheduler.lean). -/
def step (s : State) : Host.Outcome State Fault Refusal := Sys2Proof.Machine.advance s

/-- `s` with the instruction of `nbits` bits `w` stored at `pc`, where the next `Step` fetches it. -/
def State.withFetchWord (s : State) (nbits w : Nat) : State :=
  Sys2Proof.Machine.State.placeWord s (BitVec.ofNat 16 (w % 2 ^ nbits))

end Sys2Proof.Machine
end

