-- ==== Sys2Proof/Safety.lean ====
section
/-! DEFINITION. The terms claims are stated in: what a change leaves alone, the invariants of 10_state.md R40 and
60_exceptions.md R190, the end of a run (R217), runs and fairness (R219), the scheduling tick as one operation (R195),
and which logical pixels a sprite covers (R153). -/

namespace Sys2Proof.Machine

/-! ### Frames -/

/-- The elements of the state, for frames (`underflow` is both status fields of R37). -/
inductive Part where
  | V | I | pc | mem | stack | DT | ST | disp | mode | keys | waitReg | sched | pendingDraw
  | loaded | running | fault | underflow | acc | cfg | inputs | outputs | draws
  deriving DecidableEq, Repr

/-- `t` differs from `s` at most in the listed parts. Memory is compared byte by byte, the display cell by cell. -/
def OnlyChanges (ps : List Part) (s t : State) : Prop :=
  (Part.V ∉ ps → ∀ x, t.getV x = s.getV x) ∧
  (Part.I ∉ ps → t.I = s.I) ∧
  (Part.pc ∉ ps → t.pc = s.pc) ∧
  (Part.mem ∉ ps → ∀ a, t.readByte a = s.readByte a) ∧
  (Part.stack ∉ ps → t.stack = s.stack) ∧
  (Part.DT ∉ ps → t.DT = s.DT) ∧
  (Part.ST ∉ ps → t.ST = s.ST) ∧
  (Part.disp ∉ ps → ∀ bx < 128, ∀ row < 64, t.disp.cell bx row = s.disp.cell bx row) ∧
  (Part.mode ∉ ps → t.mode = s.mode) ∧
  (Part.keys ∉ ps → t.keys = s.keys) ∧
  (Part.waitReg ∉ ps → t.waitReg = s.waitReg) ∧
  (Part.sched ∉ ps → t.sched = s.sched) ∧
  (Part.pendingDraw ∉ ps → t.pendingDraw = s.pendingDraw) ∧
  (Part.loaded ∉ ps → t.loaded = s.loaded) ∧
  (Part.running ∉ ps → t.running = s.running) ∧
  (Part.fault ∉ ps → t.fault = s.fault) ∧
  (Part.underflow ∉ ps → t.underflowSeen = s.underflowSeen ∧ t.underflowCount = s.underflowCount) ∧
  (Part.acc ∉ ps → t.acc = s.acc) ∧
  (Part.cfg ∉ ps → t.cfg = s.cfg) ∧
  (Part.inputs ∉ ps → t.inputs = s.inputs) ∧
  (Part.outputs ∉ ps → t.outputs = s.outputs) ∧
  (Part.draws ∉ ps → t.draws = s.draws)

/-- The parts of the state each instruction may change beyond the advance of pc that `Step` makes (the "written by" of
R21 to R37 and R55, read instruction by instruction). -/
def mayChange : Instr → List Part
  | .cls => [.disp]
  | .ret => [.pc, .stack, .underflow]
  | .scd _ => [.disp]
  | .scr => [.disp]
  | .scl => [.disp]
  | .low => [.mode, .disp]
  | .high => [.mode, .disp]
  | .hires64 => [.mode, .disp]
  | .sys _ => [.fault, .running]
  | .jp _ => [.pc]
  | .call _ => [.pc, .stack]
  | .seImm _ _ => [.pc]
  | .sneImm _ _ => [.pc]
  | .seReg _ _ => [.pc]
  | .ldImm _ _ => [.V]
  | .addImm _ _ => [.V]
  | .ldReg _ _ => [.V]
  | .or _ _ => [.V]
  | .and _ _ => [.V]
  | .xor _ _ => [.V]
  | .addReg _ _ => [.V]
  | .sub _ _ => [.V]
  | .shr _ _ => [.V]
  | .subn _ _ => [.V]
  | .shl _ _ => [.V]
  | .sneReg _ _ => [.pc]
  | .ldI _ => [.I]
  | .jpV0 _ => [.pc]
  | .rnd _ _ => [.V, .draws]
  | .drw _ _ _ => [.V, .disp, .pendingDraw, .sched]
  | .skp _ => [.pc]
  | .sknp _ => [.pc]
  | .ldVxDT _ => [.V]
  | .ldVxK _ => [.waitReg, .sched]
  | .ldDTVx _ => [.DT]
  | .ldSTVx _ => [.ST, .outputs]
  | .addI _ => [.I, .V]
  | .ldF _ => [.I]
  | .ldHF _ => [.I]
  | .ldB _ => [.mem]
  | .storeRegs _ => [.mem, .I]
  | .loadRegs _ => [.V, .I]

/-- Every register but the listed ones is unchanged. -/
def RegsSameExcept (xs : List Nibble) (s t : State) : Prop := ∀ r, r ∉ xs → t.getV r = s.getV r

/-- Every byte of memory outside the listed addresses is unchanged. -/
def MemSameExcept (as : List Addr) (s t : State) : Prop := ∀ a, a ∉ as → t.readByte a = s.readByte a

/-- Every cell of the backing grid is given by a function of its column and row. -/
def CellsAre (t : State) (f : Nat → Nat → Pixel) : Prop := ∀ bx < 128, ∀ row < 64, t.disp.cell bx row = f bx row

/-! ### Invariants -/

/-- R40 items 1 to 4 and 6 and the bounds of R37 and R39, for a loaded core. -/
def State.LoadedInv (s : State) : Prop :=
  (s.sched = .waitingForKey ↔ s.waitReg ≠ none) ∧
  (s.sched = .waitingForVblank ↔ s.pendingDraw ≠ none) ∧
  (s.pendingDraw ≠ none → s.cfg.q.vblankSync = true) ∧
  (s.fault ≠ none → s.running = false) ∧
  (∀ bx < 128, ∀ row < 64, (s.disp.cell bx row).on = true → (s.disp.cell bx row).fade = 0) ∧
  (∀ bx < 128, ∀ row < 64, (s.disp.cell bx row).fade ≤ s.cfg.params.fadeFrames) ∧
  (s.underflowSeen = true ↔ 0 < s.underflowCount) ∧
  s.acc < 60

/-- The invariant of the machine: memory and display in canonical form, `running` implies `loaded` (R40 item 4), and
R40's other items whenever the core is loaded ("after every event from a successful Load"). -/
def State.Inv (s : State) : Prop :=
  Memory.wf s.mem ∧ Display.wf s.disp ∧ (s.running = true → s.loaded = true) ∧ (s.loaded = true → s.LoadedInv)

/-- `tone_on` (R27); an unloaded core's tone is off (R212). -/
def State.toneOn (s : State) : Prop := s.loaded = true ∧ s.ST ≠ 0

/-- The tone events of an output list, newest first: true for ToneStart, false for ToneStop. -/
def toneEdges (outs : List Output) : List Bool :=
  outs.filterMap (fun o => match o with
    | .toneStart => some true
    | .toneStop => some false
    | .snapshot _ _ => none
    | .loadOk => none
    | .supplyFailure => none)

/-- Tone events, newest first, alternate and the oldest is ToneStart (R190). -/
def EdgesAlternate : List Bool → Prop
  | [] => True
  | [b] => b = true
  | b :: c :: rest => b = !c ∧ EdgesAlternate (c :: rest)

/-- R190: the tone events alternate, starting with ToneStart, and the last one is ToneStart exactly while the tone
is on. -/
def State.ToneInv (s : State) : Prop :=
  EdgesAlternate (toneEdges s.outputs) ∧ (s.toneOn ↔ (toneEdges s.outputs).head? = some true)

/-- Every block of the active mode is uniform: all its cells equal its top-left cell (R30). -/
def State.BlocksUniform (s : State) : Prop :=
  ∀ x < s.mode.width, ∀ y < s.mode.height, ∀ p ∈ blockCells s.mode x y, s.disp.cell p.1 p.2 = s.pixel x y

/-- Equal but for the fade counters of the display. -/
def EqualButFade (s t : State) : Prop :=
  Display.wf s.disp ∧ Display.wf t.disp ∧
  (∀ bx < 128, ∀ row < 64, (s.disp.cell bx row).on = (t.disp.cell bx row).on) ∧
  { s with disp := [] } = { t with disp := [] }

/-! ### The end of a run -/

/-- The program has ended normally at `a`: a jump to itself (R217). -/
def EndedNormally (a : Addr) (s : State) : Prop :=
  s.loaded = true ∧ s.running = true ∧ s.sched = .running ∧ s.pc = a ∧ s.fetchWord = (0x1#4 ++ a : BitVec 16)

/-- The run has ended in error (R217): never a correct end. -/
def EndedInError (s : State) : Prop := s.fault ≠ none

/-- A safe state: the core is loaded and no unrecognized opcode was stepped. -/
def SafeState (s : State) : Prop := s.loaded = true ∧ s.fault = none

/-! ### Runs and fairness -/

/-- An infinite run of enabled events (R193, R196 item 1). -/
def IsRun (σ : Nat → State) (e : Nat → Event) : Prop := ∀ n, fire (e n) (σ n) = .next (σ (n + 1))

/-- Weak fairness of an event: if it stays enabled from some point on, it happens again (R219). -/
def WeaklyFair (ev : Event) (σ : Nat → State) (e : Nat → Event) : Prop :=
  ∀ n, (∀ m ≥ n, enabled ev (σ m) = true) → ∃ m ≥ n, e m = ev

/-- The host eventually presses a key (R219: a premise no claim gets for free). -/
def HostPresses (e : Nat → Event) : Prop := ∀ n, ∃ m ≥ n, ∃ i ≤ 15, e m = .keyDown i

/-- `n` steps of the machine, stopping at the first that has no next state. -/
def runSteps : Nat → State → Res
  | 0, s => .next s
  | n + 1, s =>
    match step s with
    | .next t => runSteps n t
    | .fault r => .fault r
    | .refused r => .refused r

/-! ### The scheduling tick as one operation -/

/-- R195's loop: up to `k` times `Step`, stopping as soon as it is not enabled. -/
def cpuPart : Nat → State → Res
  | 0, s => .next s
  | k + 1, s =>
    if enabled .step s then
      match stepInstr s with
      | .next t => cpuPart k t
      | .fault r => .fault r
      | .refused r => .refused r
    else .next s

/-- R195's last line: "if running: Tick60()". -/
def tickEnd (s : State) : State := if enabled .tick60 s then s.tick60 else s

/-- `SchedTick(k)` of R195 as one operation, on a state with nothing queued. -/
def schedTick (k : Nat) (s : State) : Res :=
  if s.running then
    match s.sched with
    | .waitingForKey => .next (tickEnd s.pollKeys)
    | .waitingForVblank => .next (tickEnd s)
    | .running =>
      match cpuPart k s with
      | .next t => .next (tickEnd t)
      | .fault r => .fault r
      | .refused r => .refused r
  else .next s

/-- The budgets of `n` consecutive non-waiting frames under the reference schedule (R196), and the accumulator. -/
def frameCounts (ips : Nat) : Nat → Nat → Nat × Nat
  | 0, acc => (0, acc)
  | n + 1, acc => ((acc + ips) / 60 + (frameCounts ips n ((acc + ips) % 60)).1, (frameCounts ips n ((acc + ips) % 60)).2)

/-! ### Sprites -/

/-- A 1 bit of the sprite drawn by request `d` lands on logical pixel (px, py): bit `b` of row `r`, counted from the
left and the top, of `n` rows of one byte, or of 16 rows of two bytes for n = 0 in HIRES (R154), at
(xv mod W + b, yv mod H + r), wrapped or clipped (R153). -/
def SpriteCovers (s : State) (d : DrawRequest) (px py : Nat) : Prop :=
  ∃ r b : Nat,
    r < (if d.n = 0 ∧ s.mode = .hires then 16 else d.n.toNat) ∧
    b < (if d.n = 0 ∧ s.mode = .hires then 16 else 8) ∧
    (s.readByte (s.I + BitVec.ofNat 12 (r * (if d.n = 0 ∧ s.mode = .hires then 2 else 1) + b / 8))).getLsbD
      (7 - b % 8) = true ∧
    (s.cfg.q.spriteEdge = .wrap →
      px = (d.xv.toNat % s.mode.width + b) % s.mode.width ∧ py = (d.yv.toNat % s.mode.height + r) % s.mode.height) ∧
    (s.cfg.q.spriteEdge = .clip →
      px = d.xv.toNat % s.mode.width + b ∧ py = d.yv.toNat % s.mode.height + r)

/-- Some pixel the sprite covers was lit: a collision (R153). -/
def SpriteCollides (s : State) (d : DrawRequest) : Prop :=
  ∃ px < s.mode.width, ∃ py < s.mode.height, SpriteCovers s d px py ∧ s.pixOn px py = true

end Sys2Proof.Machine
end

