-- ==== Sys2Proof/Certificates/Slice0/Obligations.lean ====
section
/-! DEFINITION. The statements for the provers, from the numbered rules of spec/. Instruction words are written here
as the concatenations of the formats of R72, with no use of the model's encoder. -/

open Sys2Proof Sys2Proof.Machine

/-! ### Encoding -/

/-- Decoding the word of any well-formed instruction gives it back, every operand at every value (R71 to R75). The
patterns and field positions are the spec's general knowledge (G1, G5; log 7). -/
def Obligations.DecodeOfEncodeGivesInstr : Prop :=
  ∀ i : Instr, i.wellFormed = true → decode (encode i) = .ok i

/-- A word that decodes is the encoding of what it decodes to, which is well formed: no bit is dropped (R74).
Patterns and fields: G1, G5 (log 7). -/
def Obligations.EncodeOfDecodeGivesWord : Prop :=
  ∀ (w : Word) (i : Instr), decode w = .ok i → encode i = w ∧ i.wellFormed = true

/-- The decoder agrees with the opcode table read in file order, over every word (R74). The patterns are G1, the
strict tests spec decision D4 (log 7). -/
def Obligations.DecoderSelectsFirstTableRow : Prop :=
  ∀ w : Word,
    (∀ i, decode w = .ok i → firstRow w = some i.row) ∧
    (∀ r, decode w = .error r → r = .unrecognized w ∧ firstRow w = none)

/-- The unrecognized words are those R76 lists, SYS takes the rest of family 0, and stepping any of them takes Fatal
with the word's address and the word. The list is spec decisions D3, D4, D5; the address recorded and the frozen
state are D22 (log 7). -/
def Obligations.ListedWordsTakeFatal : Prop :=
  (∀ x y n : Nibble,
    ((∃ r, decode (0x5#4 ++ x ++ y ++ n : BitVec 16) = .error r) ↔ n ≠ 0) ∧
    ((∃ r, decode (0x8#4 ++ x ++ y ++ n : BitVec 16) = .error r) ↔
      n ∈ [0x8#4, 0x9#4, 0xA#4, 0xB#4, 0xC#4, 0xD#4, 0xF#4]) ∧
    ((∃ r, decode (0x9#4 ++ x ++ y ++ n : BitVec 16) = .error r) ↔ n ≠ 0)) ∧
  (∀ (x : Nibble) (nn : Byte),
    ((∃ r, decode (0xE#4 ++ x ++ nn : BitVec 16) = .error r) ↔ nn ∉ [0x9E#8, 0xA1#8]) ∧
    ((∃ r, decode (0xF#4 ++ x ++ nn : BitVec 16) = .error r) ↔
      nn ∉ [0x07#8, 0x0A#8, 0x15#8, 0x18#8, 0x1E#8, 0x29#8, 0x30#8, 0x33#8, 0x55#8, 0x65#8])) ∧
  (∀ (op : Nibble) (nnn : Addr), op ∉ [0x5#4, 0x8#4, 0x9#4, 0xE#4, 0xF#4] →
    ∃ i, decode (op ++ nnn : BitVec 16) = .ok i) ∧
  (∀ nnn : Addr, decode (0x0#4 ++ nnn : BitVec 16) = .ok (.sys nnn) ↔
    nnn ∉ [0x0E0#12, 0x0EE#12, 0x0FB#12, 0x0FC#12, 0x0FE#12, 0x0FF#12, 0x230#12] ∧ nnn.toNat / 16 ≠ 0x0C) ∧
  (∀ s : State, s.loaded = true → s.running = true → s.sched = .running →
    ((∃ r, decode s.fetchWord = .error r) ∨ (∃ nnn, decode s.fetchWord = .ok (.sys nnn))) →
    ∃ t, fire .step s = .next t ∧ t.fault = some ⟨s.pc, s.fetchWord⟩ ∧ t.running = false ∧ t.pc = s.pc + 2 ∧
      OnlyChanges [.fault, .running, .pc] s t)

/-- Words written out from the opcode table decode to the instructions they stand for (R75: the patterns are the
spec's general knowledge G1, log 7). -/
def Obligations.WrittenWordsDecode : Prop :=
  decode 0b0000000011100000#16 = .ok .cls ∧
  decode 0b0000000011001111#16 = .ok (.scd 0xF#4) ∧
  decode 0b0010001100000000#16 = .ok (.call 0x300#12) ∧
  decode 0b0011101000000101#16 = .ok (.seImm 0xA#4 0x05#8) ∧
  decode 0b1000101010110100#16 = .ok (.addReg 0xA#4 0xB#4) ∧
  decode 0b1000000100101110#16 = .ok (.shl 0x1#4 0x2#4) ∧
  decode 0b1100000100001111#16 = .ok (.rnd 0x1#4 0x0F#8) ∧
  decode 0b1101000000010101#16 = .ok (.drw 0x0#4 0x1#4 0x5#4) ∧
  decode 0b1110000110011110#16 = .ok (.skp 0x1#4) ∧
  decode 0b1111111101100101#16 = .ok (.loadRegs 0xF#4)

/-- The patterns of the register forms 8xy1 to 8xyE and of Fx55, every operand at every value (R72, R75: the patterns
are the spec's general knowledge G1, log 7). -/
def Obligations.RegisterPatternsDecode : Prop :=
  ∀ x y : Nibble,
    decode (0x8#4 ++ x ++ y ++ 0x1#4 : BitVec 16) = .ok (.or x y) ∧
    decode (0x8#4 ++ x ++ y ++ 0x2#4 : BitVec 16) = .ok (.and x y) ∧
    decode (0x8#4 ++ x ++ y ++ 0x3#4 : BitVec 16) = .ok (.xor x y) ∧
    decode (0x8#4 ++ x ++ y ++ 0x4#4 : BitVec 16) = .ok (.addReg x y) ∧
    decode (0x8#4 ++ x ++ y ++ 0x5#4 : BitVec 16) = .ok (.sub x y) ∧
    decode (0x8#4 ++ x ++ y ++ 0x6#4 : BitVec 16) = .ok (.shr x y) ∧
    decode (0x8#4 ++ x ++ y ++ 0x7#4 : BitVec 16) = .ok (.subn x y) ∧
    decode (0x8#4 ++ x ++ y ++ 0xE#4 : BitVec 16) = .ok (.shl x y) ∧
    decode (0xF#4 ++ x ++ 0x55#8 : BitVec 16) = .ok (.storeRegs x)

/-! ### The step -/

/-- `Step` fetches, advances `pc` by 2 and runs the decoded instruction, when nothing is queued (R100). A step takes
the event at the head of the queue; one that is not enabled is a fault of the model (the queue and that fault are the
model's choice, log 3). -/
def Obligations.StepRunsDecodedInstr : Prop :=
  (∀ (s : State) (i : Instr), s.loaded = true → s.running = true → s.sched = .running →
    decode s.fetchWord = .ok i →
    fire .step s = exec i { s with pc := s.pc + 2 } ∧ (s.inputs = [] → step s = exec i { s with pc := s.pc + 2 })) ∧
  (∀ (s : State) (e : Event) (rest : List Input), s.inputs = .event e :: rest →
    step s = fire e { s with inputs := rest }) ∧
  (∀ (s : State) (e : Event), enabled e s = false → fire e s = .fault .notEnabled)

/-- The fetched word: the byte at `pc` in bits 15 to 8, the byte at `u12(pc + 1)` in bits 7 to 0, the wrap included
(R52, R53, R65). The byte order is spec decision D1, the wrap D32 (log 7). -/
def Obligations.FetchIsBigEndianAndWraps : Prop :=
  ∀ s : State, s.fetchWord = (s.readByte s.pc ++ s.readByte (s.pc + 1) : BitVec 16) ∧
    (s.pc = 0xFFF#12 → s.fetchWord = (s.readByte 0xFFF#12 ++ s.readByte 0x000#12 : BitVec 16))

/-- An event has a transition if and only if it is enabled, by R193's table. -/
def Obligations.EventsHappenExactlyWhenEnabled : Prop :=
  ∀ (s : State) (e : Event),
    (∃ t, fire e s = .next t) ↔
      match e with
      | .load _ _ => True
      | .step => s.loaded = true ∧ s.running = true ∧ s.sched = .running
      | .pollKeys => s.loaded = true ∧ s.running = true ∧ s.sched = .waitingForKey
      | .tick60 => s.loaded = true ∧ s.running = true
      | .keyDown i => s.loaded = true ∧ i ≤ 15
      | .keyUp i => s.loaded = true ∧ i ≤ 15
      | .stop => s.loaded = true

/-! ### Control flow -/

/-- SYS takes Fatal (R101, R182): the record holds the instruction's address and word, nothing else changes. That
SYS is fatal is spec decision D3, what Fatal leaves D22 (log 7). -/
def Obligations.SysTakesFatal : Prop :=
  ∀ (s : State) (nnn : Addr), ∃ t, exec (.sys nnn) s = .next t ∧
    t.fault = some ⟨s.pc - 2, (0x0#4 ++ nnn : BitVec 16)⟩ ∧ t.running = false ∧ OnlyChanges [.fault, .running] s t

/-- RET (R102, R183): the popped address, or the fallback 0x200 with the status counted. The fallback address and
the status are spec decisions D38, D23 (log 7). -/
def Obligations.RetPopsOrFallsBack : Prop :=
  decode 0x00EE#16 = .ok .ret ∧
  (∀ s : State, s.stack = [] → ∃ t, exec .ret s = .next t ∧ t.pc = 0x200#12 ∧ t.stack = [] ∧
    t.underflowSeen = true ∧ t.underflowCount = s.underflowCount + 1 ∧ OnlyChanges [.pc, .underflow] s t) ∧
  (∀ (s : State) (a : Addr) (rest : List Addr), s.stack = a :: rest → ∃ t, exec .ret s = .next t ∧ t.pc = a ∧
    t.stack = rest ∧ OnlyChanges [.pc, .stack] s t)

/-- JP nnn and JP V0,nnn (R103, R109): pc becomes nnn; or nnn plus V0, or plus the register its top nibble names,
modulo 4096. JP's semantics and the VX form are general knowledge (G2, G8, decision D35; log 7). -/
def Obligations.JumpsLoadPc : Prop :=
  ∀ (s : State) (nnn : Addr),
    (decode (0x1#4 ++ nnn : BitVec 16) = .ok (.jp nnn) ∧
      ∃ t, exec (.jp nnn) s = .next t ∧ t.pc = nnn ∧ OnlyChanges [.pc] s t) ∧
    (decode (0xB#4 ++ nnn : BitVec 16) = .ok (.jpV0 nnn) ∧
      ∃ t, exec (.jpV0 nnn) s = .next t ∧
        (s.cfg.q.jumpSource = .v0 → t.pc.toNat = (nnn.toNat + (s.getV 0x0#4).toNat) % 4096) ∧
        (s.cfg.q.jumpSource = .vx →
          t.pc.toNat = (nnn.toNat + (s.getV (BitVec.ofNat 4 (nnn.toNat / 256))).toNat) % 4096) ∧
        OnlyChanges [.pc] s t)

/-- CALL nnn (R104): the address after the CALL is pushed; it never overflows. The unbounded stack is spec decision
D43; the pattern G1 (log 7). -/
def Obligations.CallPushesReturnAddress : Prop :=
  ∀ (s : State) (nnn : Addr), decode (0x2#4 ++ nnn : BitVec 16) = .ok (.call nnn) ∧
    ∃ t, exec (.call nnn) s = .next t ∧ t.stack = s.pc :: s.stack ∧ t.pc = nnn ∧ OnlyChanges [.pc, .stack] s t

/-- CALL then RET, in two steps of the machine, restores pc to the instruction after the call, and the stack (R104,
R102; W5). It runs with nothing queued (the model's choice, log 3). -/
def Obligations.CallThenRetReturns : Prop :=
  ∀ (s t : State) (nnn : Addr), s.loaded = true → s.running = true → s.sched = .running → s.inputs = [] →
    s.fetchWord = (0x2#4 ++ nnn : BitVec 16) → step s = .next t → t.fetchWord = 0x00EE#16 →
    ∃ u, step t = .next u ∧ u.pc = s.pc + 2 ∧ OnlyChanges [.pc] s u

/-- The four compare-and-skip instructions (R105 to R108): a taken skip adds 2 to pc, modulo 4096. Semantics:
general knowledge G2, decision D34 (log 7). -/
def Obligations.CompareSkipsAddTwo : Prop :=
  ∀ (s : State) (x y : Nibble) (nn : Byte),
    (decode (0x3#4 ++ x ++ nn : BitVec 16) = .ok (.seImm x nn) ∧ ∃ t, exec (.seImm x nn) s = .next t ∧
      t.pc.toNat = (if s.getV x = nn then (s.pc.toNat + 2) % 4096 else s.pc.toNat) ∧ OnlyChanges [.pc] s t) ∧
    (decode (0x4#4 ++ x ++ nn : BitVec 16) = .ok (.sneImm x nn) ∧ ∃ t, exec (.sneImm x nn) s = .next t ∧
      t.pc.toNat = (if s.getV x = nn then s.pc.toNat else (s.pc.toNat + 2) % 4096) ∧ OnlyChanges [.pc] s t) ∧
    (decode (0x5#4 ++ x ++ y ++ 0x0#4 : BitVec 16) = .ok (.seReg x y) ∧ ∃ t, exec (.seReg x y) s = .next t ∧
      t.pc.toNat = (if s.getV x = s.getV y then (s.pc.toNat + 2) % 4096 else s.pc.toNat) ∧ OnlyChanges [.pc] s t) ∧
    (decode (0x9#4 ++ x ++ y ++ 0x0#4 : BitVec 16) = .ok (.sneReg x y) ∧ ∃ t, exec (.sneReg x y) s = .next t ∧
      t.pc.toNat = (if s.getV x = s.getV y then s.pc.toNat else (s.pc.toNat + 2) % 4096) ∧ OnlyChanges [.pc] s t)

/-! ### Loads, arithmetic, logic, shifts, random -/

/-- LD Vx,nn, LD Vx,Vy and ADD Vx,nn (R120, R122, R121): one register, no flag. Semantics, the missing flag
included: general knowledge G2, decision D34 (log 7). -/
def Obligations.LoadsAndImmediateAddLeaveFlag : Prop :=
  ∀ (s : State) (x y : Nibble) (nn : Byte),
    (decode (0x6#4 ++ x ++ nn : BitVec 16) = .ok (.ldImm x nn) ∧ ∃ t, exec (.ldImm x nn) s = .next t ∧
      t.getV x = nn ∧ RegsSameExcept [x] s t ∧ OnlyChanges [.V] s t) ∧
    (decode (0x8#4 ++ x ++ y ++ 0x0#4 : BitVec 16) = .ok (.ldReg x y) ∧ ∃ t, exec (.ldReg x y) s = .next t ∧
      t.getV x = s.getV y ∧ RegsSameExcept [x] s t ∧ OnlyChanges [.V] s t) ∧
    (decode (0x7#4 ++ x ++ nn : BitVec 16) = .ok (.addImm x nn) ∧ ∃ t, exec (.addImm x nn) s = .next t ∧
      (t.getV x).toNat = ((s.getV x).toNat + nn.toNat) % 256 ∧ RegsSameExcept [x] s t ∧ OnlyChanges [.V] s t)

/-- OR, AND, XOR (R123 to R125): the result in V[x]; VF becomes 0 if and only if the quirk says so, last. That VF is
written after the result (x = 15) is spec decision D2 (log 7). -/
def Obligations.LogicOpsClearFlagByQuirk : Prop :=
  ∀ (s : State) (x y : Nibble) (i : Instr) (r : Byte),
    (i = .or x y ∧ r = s.getV x ||| s.getV y ∨ i = .and x y ∧ r = s.getV x &&& s.getV y ∨
     i = .xor x y ∧ r = s.getV x ^^^ s.getV y) →
    ∃ t, exec i s = .next t ∧
      (s.cfg.q.logicClearsVF = false → t.getV x = r ∧ RegsSameExcept [x] s t) ∧
      (s.cfg.q.logicClearsVF = true →
        t.getV 0xF#4 = 0 ∧ (x ≠ 0xF#4 → t.getV x = r) ∧ RegsSameExcept [x, 0xF#4] s t) ∧
      OnlyChanges [.V] s t

/-- ADD Vx,Vy (R126): the sum modulo 256 and VF = 1 iff it exceeds 255; with x = 15 VF is the flag. That VF is
written after the result (x = 15) is spec decision D2 (log 7). -/
def Obligations.AddSetsCarry : Prop :=
  ∀ (s : State) (x y : Nibble),
    ∃ t, exec (.addReg x y) s = .next t ∧
      (x ≠ 0xF#4 → (t.getV x).toNat = ((s.getV x).toNat + (s.getV y).toNat) % 256) ∧
      t.getV 0xF#4 = (if (s.getV x).toNat + (s.getV y).toNat > 255 then 1 else 0) ∧
      RegsSameExcept [x, 0xF#4] s t ∧ OnlyChanges [.V] s t

/-- SUB and SUBN (R127, R129): a − b modulo 256 and VF = 1 iff a ≥ b, for (a, b) = (Vx, Vy) and (Vy, Vx). That VF is
written after the result (x = 15) is spec decision D2 (log 7). -/
def Obligations.SubtractionsSetNoBorrow : Prop :=
  ∀ (s : State) (x y : Nibble) (i : Instr) (a b : Byte),
    (i = .sub x y ∧ a = s.getV x ∧ b = s.getV y ∨ i = .subn x y ∧ a = s.getV y ∧ b = s.getV x) →
    ∃ t, exec i s = .next t ∧
      (x ≠ 0xF#4 → ((t.getV x).toNat : Int) = ((a.toNat : Int) - b.toNat) % 256) ∧
      t.getV 0xF#4 = (if b.toNat ≤ a.toNat then 1 else 0) ∧
      RegsSameExcept [x, 0xF#4] s t ∧ OnlyChanges [.V] s t

/-- SHR and SHL (R128, R130): V[x], or V[y] under the quirk, moved by one bit; VF is the bit shifted out, last. -/
def Obligations.ShiftsPutBitOutInFlag : Prop :=
  ∀ (s : State) (x y : Nibble) (v : Byte),
    (s.cfg.q.shiftSource = .vx ∧ v = s.getV x ∨ s.cfg.q.shiftSource = .vy ∧ v = s.getV y) →
    (∃ t, exec (.shr x y) s = .next t ∧
      (x ≠ 0xF#4 → t.getV x = v >>> 1) ∧ t.getV 0xF#4 = (if v.getLsbD 0 then 1 else 0) ∧
      RegsSameExcept [x, 0xF#4] s t ∧ OnlyChanges [.V] s t) ∧
    (∃ t, exec (.shl x y) s = .next t ∧
      (x ≠ 0xF#4 → t.getV x = v <<< 1) ∧ t.getV 0xF#4 = (if v.getLsbD 7 then 1 else 0) ∧
      RegsSameExcept [x, 0xF#4] s t ∧ OnlyChanges [.V] s t)

/-- RND (R131): some byte r, the free value of this draw, ANDed with nn; whatever r is, no bit outside nn is set,
and the next draw is a fresh one. The draw counter is the model's choice (log 5); the free draw is spec decision
D29. -/
def Obligations.RndMasksFreshFreeByte : Prop :=
  ∀ (s : State) (x : Nibble) (nn : Byte), decode (0xC#4 ++ x ++ nn : BitVec 16) = .ok (.rnd x nn) ∧
    ∃ t, exec (.rnd x nn) s = .next t ∧ t.getV x = Config.rand8 s.draws &&& nn ∧ t.getV x &&& ~~~nn = 0 ∧
      t.draws = s.draws + 1 ∧ RegsSameExcept [x] s t ∧ OnlyChanges [.V, .draws] s t

/-! ### Index register and memory -/

/-- LD I, LD F, LD HF (R140, R142, R143): I becomes nnn, or the glyph address of the low nibble. Strides and masking
are general knowledge (G2, G4; decisions D18, D26; log 7). -/
def Obligations.IndexLoadsSelectGlyphs : Prop :=
  ∀ (s : State) (nnn : Addr) (x : Nibble),
    (decode (0xA#4 ++ nnn : BitVec 16) = .ok (.ldI nnn) ∧ ∃ t, exec (.ldI nnn) s = .next t ∧ t.I = nnn ∧
      OnlyChanges [.I] s t) ∧
    (decode (0xF#4 ++ x ++ 0x29#8 : BitVec 16) = .ok (.ldF x) ∧ ∃ t, exec (.ldF x) s = .next t ∧
      t.I.toNat = s.cfg.params.smallFontBase.toNat + 5 * ((s.getV x).toNat % 16) ∧ OnlyChanges [.I] s t) ∧
    (decode (0xF#4 ++ x ++ 0x30#8 : BitVec 16) = .ok (.ldHF x) ∧ ∃ t, exec (.ldHF x) s = .next t ∧
      t.I.toNat = s.cfg.params.bigFontBase.toNat + 10 * ((s.getV x).toNat % 16) ∧ OnlyChanges [.I] s t)

/-- ADD I,Vx (R141): modulo 4096; VF untouched unless the compatibility switch is on, then 1 iff it wrapped. What
the switch writes is spec decision D28 (log 7). -/
def Obligations.AddIndexWrapsAndSparesFlag : Prop :=
  ∀ (s : State) (x : Nibble), decode (0xF#4 ++ x ++ 0x1E#8 : BitVec 16) = .ok (.addI x) ∧
    ∃ t, exec (.addI x) s = .next t ∧ t.I.toNat = (s.I.toNat + (s.getV x).toNat) % 4096 ∧
      (s.cfg.params.addISetsVF = false → OnlyChanges [.I] s t) ∧
      (s.cfg.params.addISetsVF = true →
        t.getV 0xF#4 = (if s.I.toNat + (s.getV x).toNat > 0xFFF then 1 else 0) ∧
        RegsSameExcept [0xF#4] s t ∧ OnlyChanges [.I, .V] s t)

/-- LD B,Vx (R144): the three digits at I, I+1, I+2 with wrap; I and every other byte unchanged. The order of tens
and ones is general knowledge (G2); that I stays is decision D40, the wrap D32 (log 7). -/
def Obligations.BcdStoresThreeDigits : Prop :=
  ∀ (s : State) (x : Nibble), decode (0xF#4 ++ x ++ 0x33#8 : BitVec 16) = .ok (.ldB x) ∧
    ∃ t, exec (.ldB x) s = .next t ∧
      (t.readByte (s.effAddr 0)).toNat = (s.getV x).toNat / 100 ∧
      (t.readByte (s.effAddr 1)).toNat = (s.getV x).toNat / 10 % 10 ∧
      (t.readByte (s.effAddr 2)).toNat = (s.getV x).toNat % 10 ∧
      s.effAddr 0 = s.I ∧ s.effAddr 1 = s.I + 1 ∧ s.effAddr 2 = s.I + 2 ∧
      MemSameExcept [s.effAddr 0, s.effAddr 1, s.effAddr 2] s t ∧ OnlyChanges [.mem] s t

/-- LD [I],Vx (R145): V[0] to V[x] at u12(I) to u12(I + x), then I by the quirk; every other byte unchanged. -/
def Obligations.BulkStoreWritesRegisters : Prop :=
  ∀ (s : State) (x : Nibble),
    ∃ t, exec (.storeRegs x) s = .next t ∧
      (∀ i : Nibble, i.toNat ≤ x.toNat →
        t.readByte (s.effAddr i.toNat) = s.getV i ∧ (s.effAddr i.toNat).toNat = (s.I.toNat + i.toNat) % 4096) ∧
      MemSameExcept ((List.range (x.toNat + 1)).map s.effAddr) s t ∧
      (s.cfg.q.memIncrement = .byXPlus1 → t.I.toNat = (s.I.toNat + x.toNat + 1) % 4096) ∧
      (s.cfg.q.memIncrement = .byX → t.I.toNat = (s.I.toNat + x.toNat) % 4096) ∧
      (s.cfg.q.memIncrement = .unchanged → t.I = s.I) ∧
      OnlyChanges [.mem, .I] s t

/-- LD Vx,[I] (R146): V[0] to V[x] from u12(I) to u12(I + x), then I by the quirk; the other registers and all of
memory unchanged. The pattern is G1 (log 7). -/
def Obligations.BulkLoadReadsRegisters : Prop :=
  ∀ (s : State) (x : Nibble), decode (0xF#4 ++ x ++ 0x65#8 : BitVec 16) = .ok (.loadRegs x) ∧
    ∃ t, exec (.loadRegs x) s = .next t ∧
      (∀ i : Nibble, i.toNat ≤ x.toNat → t.getV i = s.readByte (s.effAddr i.toNat)) ∧
      (∀ i : Nibble, x.toNat < i.toNat → t.getV i = s.getV i) ∧
      (s.cfg.q.memIncrement = .byXPlus1 → t.I.toNat = (s.I.toNat + x.toNat + 1) % 4096) ∧
      (s.cfg.q.memIncrement = .byX → t.I.toNat = (s.I.toNat + x.toNat) % 4096) ∧
      (s.cfg.q.memIncrement = .unchanged → t.I = s.I) ∧
      OnlyChanges [.V, .I] s t

/-- A bulk store followed, from any later state with the same memory and the store's base in I, by a bulk load of the
same x reproduces the stored registers (D00 §8 in R146; W6). -/
def Obligations.BulkStoreLoadRoundTrip : Prop :=
  ∀ (s t u : State) (x : Nibble), exec (.storeRegs x) s = .next t → (∀ a, u.readByte a = t.readByte a) → u.I = s.I →
    ∃ z, exec (.loadRegs x) u = .next z ∧ ∀ i : Nibble, i.toNat ≤ x.toNat → z.getV i = s.getV i

/-- A bulk store over the next instruction is what the next fetch reads (R63). The byte order is spec decision D1
(log 7). -/
def Obligations.StoreIsSeenByNextFetch : Prop :=
  ∀ (s : State) (x i : Nibble), i.toNat + 1 ≤ x.toNat → s.pc = s.effAddr i.toNat →
    ∃ t, exec (.storeRegs x) s = .next t ∧ t.fetchWord = (s.getV i ++ s.getV (i + 1) : BitVec 16)

/-! ### Display -/

/-- CLS and HIRES64 (R150, R151, R162): every lit cell is turned off under the filter policy, a cell already off
keeps its fade, no pixel of the mode in force afterwards is on; HIRES64 selects the 64×64 mode, CLS keeps the mode.
CLS and HIRES64: general knowledge G2, G10, decision D7; the fade: D17 (log 7). -/
def Obligations.ClearingTurnsOffEveryCell : Prop :=
  ∀ (s : State) (i : Instr) (w : Word) (m : ResMode) (ps : List Part), Display.wf s.disp →
    (i = .cls ∧ w = 0x00E0#16 ∧ m = s.mode ∧ ps = [.disp] ∨
     i = .hires64 ∧ w = 0x0230#16 ∧ m = .viphires ∧ ps = [.mode, .disp]) →
    decode w = .ok i ∧ ∃ t, exec i s = .next t ∧ t.mode = m ∧
      CellsAre t (fun bx row => if (s.disp.cell bx row).on = true
        then ⟨false, if s.cfg.params.filter = .none then 0 else s.cfg.params.fadeFrames⟩
        else s.disp.cell bx row) ∧
      (∀ px < m.width, ∀ py < m.height, t.pixOn px py = false) ∧
      OnlyChanges ps s t

/-- DRW without the vblank quirk (R152 to R154): every logical pixel is XORed with the sprite, in every mode, for
both edge quirks and for the 16×16 form. Bit order, the zero bit, the 16×16 form's edges and n = 0 elsewhere are
spec decisions D13 to D15; blocks D10 (log 7). -/
def Obligations.DrwXorsCoveredPixels : Prop :=
  ∀ (s : State) (x y n : Nibble), s.cfg.q.vblankSync = false →
    ∃ t, exec (.drw x y n) s = .next t ∧
      ∀ px < s.mode.width, ∀ py < s.mode.height,
        (t.pixOn px py = true ↔
          ¬ (s.pixOn px py = true ↔ SpriteCovers s ⟨s.getV x, s.getV y, n⟩ px py))

/-- DRW without the vblank quirk (R153): VF is 1 if a covered pixel was lit, else 0; a pixel drawn is set or cleared
as a whole block with the fade of R30; nothing but VF and the display changes. Spec decisions D10, D13 to D17; that
I stays is D40 (log 7). -/
def Obligations.DrwCollisionFlagAndFrame : Prop :=
  ∀ (s : State) (x y n : Nibble), s.cfg.q.vblankSync = false →
    ∃ t, exec (.drw x y n) s = .next t ∧
      (SpriteCollides s ⟨s.getV x, s.getV y, n⟩ → t.getV 0xF#4 = 1) ∧
      (¬ SpriteCollides s ⟨s.getV x, s.getV y, n⟩ → t.getV 0xF#4 = 0) ∧
      (∀ px < s.mode.width, ∀ py < s.mode.height, ∀ p ∈ blockCells s.mode px py,
        (SpriteCovers s ⟨s.getV x, s.getV y, n⟩ px py →
          t.disp.cell p.1 p.2 = if s.pixOn px py
            then ⟨false, if s.cfg.params.filter = .none then 0 else s.cfg.params.fadeFrames⟩ else ⟨true, 0⟩) ∧
        (¬ SpriteCovers s ⟨s.getV x, s.getV y, n⟩ px py → t.disp.cell p.1 p.2 = s.disp.cell p.1 p.2)) ∧
      RegsSameExcept [0xF#4] s t ∧ OnlyChanges [.disp, .V] s t

/-- Drawing the same sprite twice at the same coordinates restores every logical pixel, and the second draw collides
exactly where the first turned a pixel on: on an empty display, if the sprite covers any pixel (D00 §8 in R153; W4).
Spec decisions D10, D13 to D16 (log 7). -/
def Obligations.DrawTwiceRestoresPixels : Prop :=
  ∀ (s t : State) (d : DrawRequest), t = s.drawSprite d →
    (∀ px < s.mode.width, ∀ py < s.mode.height, (t.drawSprite d).pixOn px py = s.pixOn px py) ∧
    ((∀ px < s.mode.width, ∀ py < s.mode.height, s.pixOn px py = false) →
      t.getV 0xF#4 = 0 ∧
      ((t.drawSprite d).getV 0xF#4 = 1 ↔ ∃ px < s.mode.width, ∃ py < s.mode.height, SpriteCovers s d px py))

/-- SCD, SCR, SCL (R155 to R158): every cell, with its fade, moves by the stated distance; vacated cells are blank.
Distances and edges are spec decisions D11, D12, the 4 columns general knowledge G6 (log 7). -/
def Obligations.ScrollsMoveCells : Prop :=
  ∀ (s : State) (n : Nibble) (rows cols : Nat),
    rows = (if s.cfg.params.scrollUnits = .logical then n.toNat * s.mode.blockH else n.toNat) →
    cols = (if s.cfg.params.scrollUnits = .logical then 4 * s.mode.blockW else 4) →
    (decode (0x0#4 ++ 0x0#4 ++ 0xC#4 ++ n : BitVec 16) = .ok (.scd n) ∧ ∃ t, exec (.scd n) s = .next t ∧
      CellsAre t (fun bx row => if rows ≤ row then s.disp.cell bx (row - rows) else ⟨false, 0⟩) ∧
      OnlyChanges [.disp] s t) ∧
    (decode 0x00FB#16 = .ok .scr ∧ ∃ t, exec .scr s = .next t ∧
      CellsAre t (fun bx row => if cols ≤ bx then s.disp.cell (bx - cols) row else ⟨false, 0⟩) ∧
      OnlyChanges [.disp] s t) ∧
    (decode 0x00FC#16 = .ok .scl ∧ ∃ t, exec .scl s = .next t ∧
      CellsAre t (fun bx row => if bx + cols < 128 then s.disp.cell (bx + cols) row else ⟨false, 0⟩) ∧
      OnlyChanges [.disp] s t)

/-- LOW and HIGH (R160, R161, R163): the mode changes; the grid is blanked only if MODE_SWITCH_CLEARS. Which word
selects which mode is general knowledge G11, the clearing decision D9 (log 7). -/
def Obligations.LowAndHighSwitchMode : Prop :=
  ∀ (s : State) (i : Instr) (w : Word) (m : ResMode),
    (i = .low ∧ w = 0x00FE#16 ∧ m = .lores ∨ i = .high ∧ w = 0x00FF#16 ∧ m = .hires) →
    decode w = .ok i ∧ ∃ t, exec i s = .next t ∧ t.mode = m ∧
      (s.cfg.params.modeSwitchClears = false → OnlyChanges [.mode] s t) ∧
      (s.cfg.params.modeSwitchClears = true → CellsAre t (fun _ _ => ⟨false, 0⟩) ∧ OnlyChanges [.mode, .disp] s t)

/-- The fade counters never influence what an instruction does: two states that differ only in them complete every
instruction in states that differ only in them (R165). The reading of the fade is spec decision D16 (log 7). -/
def Obligations.FadeNeverInfluencesInstr : Prop :=
  ∀ (i : Instr) (s t : State), EqualButFade s t →
    ∃ s' t', exec i s = .next s' ∧ exec i t = .next t' ∧ EqualButFade s' t'

/-- While the mode does not change and SCROLL_UNITS is LOGICAL, every instruction keeps every block uniform (R30).
The blocks are spec decision D10 (log 7). -/
def Obligations.InstrKeepsBlocksUniform : Prop :=
  ∀ (i : Instr) (s t : State), i ≠ .low → i ≠ .high → i ≠ .hires64 → s.cfg.params.scrollUnits = .logical →
    Display.wf s.disp → s.BlocksUniform → exec i s = .next t → t.BlocksUniform

/-! ### Timers and keys -/

/-- LD Vx,DT and LD DT,Vx (R170, R171). Semantics: general knowledge G2, decision D34 (log 7). -/
def Obligations.DelayTimerMoves : Prop :=
  ∀ (s : State) (x : Nibble),
    (decode (0xF#4 ++ x ++ 0x07#8 : BitVec 16) = .ok (.ldVxDT x) ∧ ∃ t, exec (.ldVxDT x) s = .next t ∧
      t.getV x = s.DT ∧ RegsSameExcept [x] s t ∧ OnlyChanges [.V] s t) ∧
    (decode (0xF#4 ++ x ++ 0x15#8 : BitVec 16) = .ok (.ldDTVx x) ∧ ∃ t, exec (.ldDTVx x) s = .next t ∧
      t.DT = s.getV x ∧ OnlyChanges [.DT] s t)

/-- LD ST,Vx (R172): ST is loaded, ToneStart on 0 to non-zero, ToneStop on non-zero to 0, else no event. The edges
on a load of ST are spec decision D30; the output list is the model's choice (log 4). -/
def Obligations.LdSTEmitsToneEdges : Prop :=
  ∀ (s : State) (x : Nibble), decode (0xF#4 ++ x ++ 0x18#8 : BitVec 16) = .ok (.ldSTVx x) ∧
    ∃ t, exec (.ldSTVx x) s = .next t ∧ t.ST = s.getV x ∧
      (s.ST = 0 → s.getV x ≠ 0 → t.outputs = .toneStart :: s.outputs) ∧
      (s.ST ≠ 0 → s.getV x = 0 → t.outputs = .toneStop :: s.outputs) ∧
      ((s.ST = 0 ↔ s.getV x = 0) → t.outputs = s.outputs) ∧
      OnlyChanges [.ST, .outputs] s t

/-- SKP and SKNP (R173, R174): the key of the low nibble; the key state is not consumed. Semantics and the low
nibble: general knowledge G2, decision D18 (log 7). -/
def Obligations.KeySkipsTestLowNibble : Prop :=
  ∀ (s : State) (x k : Nibble), k.toNat = (s.getV x).toNat % 16 →
    (decode (0xE#4 ++ x ++ 0x9E#8 : BitVec 16) = .ok (.skp x) ∧ ∃ t, exec (.skp x) s = .next t ∧
      t.pc.toNat = (if s.keyDown k then (s.pc.toNat + 2) % 4096 else s.pc.toNat) ∧ OnlyChanges [.pc] s t) ∧
    (decode (0xE#4 ++ x ++ 0xA1#8 : BitVec 16) = .ok (.sknp x) ∧ ∃ t, exec (.sknp x) s = .next t ∧
      t.pc.toNat = (if s.keyDown k then s.pc.toNat else (s.pc.toNat + 2) % 4096) ∧ OnlyChanges [.pc] s t)

/-- The two instructions that suspend the CPU (R175, R152; spec decisions D19, D37): LD Vx,K begins a key-wait, no
register is written and the keys are not looked at; DRW under the vblank quirk queues its operands' values, nothing is
drawn and VF is not written. pc stays in both. -/
def Obligations.SuspendingInstrsBeginTheirWait : Prop :=
  ∀ (s : State) (x y n : Nibble),
    (decode (0xF#4 ++ x ++ 0x0A#8 : BitVec 16) = .ok (.ldVxK x) ∧
      ∃ t, exec (.ldVxK x) s = .next t ∧ t.waitReg = some x ∧ t.sched = .waitingForKey ∧
        OnlyChanges [.waitReg, .sched] s t) ∧
    (decode (0xD#4 ++ x ++ y ++ n : BitVec 16) = .ok (.drw x y n) ∧
      (s.cfg.q.vblankSync = true → ∃ t, exec (.drw x y n) s = .next t ∧
        t.pendingDraw = some ⟨s.getV x, s.getV y, n⟩ ∧ t.sched = .waitingForVblank ∧
        OnlyChanges [.pendingDraw, .sched] s t))

/-! ### Events -/

/-- `PollKeys` (R191): with no key down nothing changes; else a pressed key, the lowest by default, goes to the
waiting register, is consumed, and the mode returns to RUNNING. The choice among several keys is spec decision D19;
the draw counter is log 5. -/
def Obligations.PollKeysCapturesAKey : Prop :=
  ∀ (s : State) (x : Nibble), s.loaded = true → s.running = true → s.sched = .waitingForKey → s.waitReg = some x →
    ((∀ k, s.keyDown k = false) → fire .pollKeys s = .next s) ∧
    ((∃ k, s.keyDown k = true) → ∃ t k, fire .pollKeys s = .next t ∧ s.keyDown k = true ∧
      (s.cfg.params.keyPick = .lowest → ∀ j : Nibble, j.toNat < k.toNat → s.keyDown j = false) ∧
      (t.getV x).toNat = k.toNat ∧ RegsSameExcept [x] s t ∧
      (∀ j, t.keyDown j = (s.keyDown j && j != k)) ∧
      t.waitReg = none ∧ t.sched = .running ∧
      OnlyChanges [.V, .keys, .waitReg, .sched, .draws] s t)

/-- `KeyDown(i)` and `KeyUp(i)` (R197) set and clear one key, and change nothing else. -/
def Obligations.KeyEventsChangeOneKey : Prop :=
  ∀ (s : State) (i : Nibble), s.loaded = true →
    (∃ t, fire (.keyDown i.toNat) s = .next t ∧ (∀ j, t.keyDown j = (s.keyDown j || j == i)) ∧
      OnlyChanges [.keys] s t) ∧
    (∃ t, fire (.keyUp i.toNat) s = .next t ∧ (∀ j, t.keyDown j = (s.keyDown j && j != i)) ∧
      OnlyChanges [.keys] s t)

/-- `Tick60` counts both timers down to 0 in every scheduler mode and emits ToneStop exactly when ST reaches 0, then
one snapshot (R189, R194, R192). That timers run in the waits is spec decision D44; the output list is the model's
choice (log 4). -/
def Obligations.TickCountsTimersDown : Prop :=
  ∀ s : State, s.loaded = true → s.running = true →
    ∃ t m g, fire .tick60 s = .next t ∧ t.DT.toNat = s.DT.toNat - 1 ∧ t.ST.toNat = s.ST.toNat - 1 ∧
      (s.ST = 1 → t.outputs = .snapshot m g :: .toneStop :: s.outputs) ∧
      (s.ST ≠ 1 → t.outputs = .snapshot m g :: s.outputs) ∧
      OnlyChanges [.DT, .ST, .outputs, .disp, .V, .sched, .pendingDraw] s t

/-- The refresh of a tick without a waiting draw (R164, R165, R192): the snapshot shows every logical pixel of the
active mode as it is before the countdown, then every cell that is off loses one frame; V, the scheduler mode and
the queue of draws stay. The order is spec decision D21, the contents D17 and D45; the output list is log 4. -/
def Obligations.TickSnapshotsThenAgesFade : Prop :=
  ∀ s : State, s.loaded = true → s.running = true → s.sched ≠ .waitingForVblank → Display.wf s.disp →
    ∃ t g rest, fire .tick60 s = .next t ∧ t.outputs = .snapshot s.mode g :: rest ∧
      (∀ px < s.mode.width, ∀ py < s.mode.height,
        Sparse.get Display.initial g (py * 128 + px) = ⟨s.pixOn px py, s.pixFade px py⟩) ∧
      CellsAre t (fun bx row => if (s.disp.cell bx row).on = true then s.disp.cell bx row
        else ⟨false, (s.disp.cell bx row).fade - 1⟩) ∧
      OnlyChanges [.DT, .ST, .outputs, .disp] s t

/-- The refresh edge flushes the queued draw (R192, R194): the draw's pixels and VF, the snapshot of them, the
countdown after it, and the mode returns to RUNNING. The order is spec decision D21, the queued values D37; the
output list is log 4. -/
def Obligations.TickFlushesQueuedDraw : Prop :=
  ∀ (s u : State) (d : DrawRequest), s.loaded = true → s.running = true → s.sched = .waitingForVblank →
    s.pendingDraw = some d → Display.wf s.disp → u = s.drawSprite d →
    ∃ t g rest, fire .tick60 s = .next t ∧ t.sched = .running ∧ t.pendingDraw = none ∧
      (∀ x, t.getV x = u.getV x) ∧ t.outputs = .snapshot s.mode g :: rest ∧
      (∀ px < s.mode.width, ∀ py < s.mode.height,
        Sparse.get Display.initial g (py * 128 + px) = ⟨u.pixOn px py, u.pixFade px py⟩) ∧
      CellsAre t (fun bx row => if (u.disp.cell bx row).on = true then u.disp.cell bx row
        else ⟨false, (u.disp.cell bx row).fade - 1⟩) ∧
      OnlyChanges [.DT, .ST, .outputs, .disp, .V, .sched, .pendingDraw] s t

/-- A successful `Load` (R210, R211, R42, R56): every element at its reset value, FONT and the image in memory, 0x00
elsewhere, the supplied record in force, and a tone that was on is stopped. The values the source does not give are
spec decisions D8, D24, D25, D30, D31, D38; the record's two increment Booleans are log 11, the font length is log 9,
the output list log 4. -/
def Obligations.LoadResetsEverything : Prop :=
  ∀ (s : State) (image : List Byte) (md : Metadata), 1 ≤ image.length → image.length ≤ 3584 → 1 ≤ md.ips →
    md.params.font.length = 512 → ¬ (md.incrementByX = true ∧ md.incrementUnchanged = true) →
    ∃ t, fire (.load (some image) md) s = .next t ∧
      (∀ a : Addr, t.readByte a =
        if a.toNat < 0x200 then md.params.font.getD a.toNat 0
        else if a.toNat < 0x200 + image.length then image.getD (a.toNat - 0x200) 0 else 0) ∧
      (∀ x, t.getV x = 0) ∧ t.I = 0 ∧ t.pc = 0x200#12 ∧ t.stack = [] ∧ t.DT = 0 ∧ t.ST = 0 ∧
      CellsAre t (fun _ _ => ⟨false, 0⟩) ∧ t.mode = .lores ∧ (∀ k, t.keyDown k = false) ∧ t.waitReg = none ∧
      t.sched = .running ∧ t.pendingDraw = none ∧ t.loaded = true ∧ t.running = true ∧ t.fault = none ∧
      t.underflowSeen = false ∧ t.underflowCount = 0 ∧ t.acc = 0 ∧
      t.cfg.ips = md.ips ∧ t.cfg.params = md.params ∧ t.cfg.q.logicClearsVF = md.logicClearsVF ∧
      t.cfg.q.shiftSource = md.shiftSource ∧ t.cfg.q.jumpSource = md.jumpSource ∧
      t.cfg.q.spriteEdge = md.spriteEdge ∧ t.cfg.q.vblankSync = md.vblankSync ∧
      t.cfg.q.memIncrement =
        (if md.incrementByX then .byX else if md.incrementUnchanged then .unchanged else .byXPlus1) ∧
      (s.loaded = true → s.ST ≠ 0 → t.outputs = .loadOk :: .toneStop :: s.outputs) ∧
      (¬ (s.loaded = true ∧ s.ST ≠ 0) → t.outputs = .loadOk :: s.outputs)

/-- The unloaded core (R42, R212, spec decision D39). Before the first `Load` the core is unloaded, only `Load` is
enabled, and no step happens by itself (the fault halted: log 12). A refused `Load` (R184, R210, R211): without an
image, with an image that is empty or too long, with a rate of 0, a font that is not 512 bytes or both increment
variants, the core is left unloaded and only `Load` is enabled. The conditions are spec decisions D25, D31 and, for the
font length, log 9, for the record's two increment Booleans log 11; the output list is log 4. -/
def Obligations.RefusedLoadUnloads : Prop :=
  (State.beforeFirstLoad.loaded = false ∧ State.beforeFirstLoad.running = false ∧
    (∀ e, enabled e State.beforeFirstLoad = true ↔ ∃ im r, e = .load im r) ∧
    step State.beforeFirstLoad = .fault .halted) ∧
  (∀ (s : State) (image : Option (List Byte)) (md : Metadata),
    (image = none ∨ (∃ b, image = some b ∧ (b.length = 0 ∨ 3584 < b.length)) ∨ md.ips = 0 ∨
      md.params.font.length ≠ 512 ∨ (md.incrementByX = true ∧ md.incrementUnchanged = true)) →
    ∃ t, fire (.load image md) s = .next t ∧ t.loaded = false ∧ t.running = false ∧
      (s.loaded = true → s.ST ≠ 0 → t.outputs = .supplyFailure :: .toneStop :: s.outputs) ∧
      (¬ (s.loaded = true ∧ s.ST ≠ 0) → t.outputs = .supplyFailure :: s.outputs) ∧
      (∀ e, enabled e t = true ↔ ∃ im r, e = .load im r))

/-! ### The scheduler -/

/-- A queued scheduling tick, run step by step, does what R195's `SchedTick(k)` does as one operation. The queue is
the model's choice (log 3); the scheduling tick is spec decision D20. -/
def Obligations.QueuedTickRefinesSchedTick : Prop :=
  ∀ (s t : State) (k : Nat), (s.running = true → s.loaded = true) → s.inputs = [] → schedTick k s = .next t →
    ∃ n, runSteps n { s with inputs := [.schedTick k] } = .next t

/-- Under the reference schedule 60 consecutive non-waiting frames attempt exactly `ips` instructions and leave the
accumulator where it was; the budget of a waiting frame is dropped (R196). The reference schedule is spec decision
D20; the queue is log 3. -/
def Obligations.SixtyFramesAttemptIps : Prop :=
  (∀ ips acc : Nat, acc < 60 → frameCounts ips 60 acc = (ips, acc)) ∧
  (∀ (s : State) (rest : List Input), s.inputs = .frame :: rest →
    (s.running = true → s.sched = .running →
      step s = .next { s with acc := (s.acc + s.cfg.ips) % 60,
                              inputs := .schedTick ((s.acc + s.cfg.ips) / 60) :: rest }) ∧
    (¬ (s.running = true ∧ s.sched = .running) → step s = .next { s with inputs := .schedTick 0 :: rest }))

/-! ### Invariants and whole-machine rules -/

/-- The reset state, and the core before the first `Load`, meet the machine's invariant and the tone invariant. The
values at reset: R42, spec decision D24, log 1 and log 2; before the first load: D39, log 6. -/
def Obligations.ResetMeetsInvariants : Prop :=
  State.reset.Inv ∧ State.reset.ToneInv ∧ State.beforeFirstLoad.Inv ∧ State.beforeFirstLoad.ToneInv

/-- Every step keeps the invariant of R40, from every state that meets it. The canonical forms of memory and display
are the model's choice (log 10). -/
def Obligations.StepKeepsMachineInvariant : Prop :=
  ∀ s t : State, s.Inv → step s = .next t → t.Inv

/-- Every step keeps the tone events alternating, the last one telling whether the tone is on (R190). R190 derives
it from spec decision D30; the output list is log 4. -/
def Obligations.StepKeepsToneAlternation : Prop :=
  ∀ s t : State, s.ToneInv → step s = .next t → t.ToneInv

/-- Every instruction completes in every state (R181: no instruction faults the machine), and changes at most the
parts `mayChange` (Safety.lean) lists for it: memory only by LD B and LD [I],Vx; pc beyond its advance only by
control flow and skips; the stack only by CALL and RET; and so on for every part of the state (R20 to R37, R55).
That SYS is fatal is spec decision D3 (log 7). -/
def Obligations.EveryInstrCompletesWithinItsParts : Prop :=
  ∀ (i : Instr) (s : State), ∃ t, exec i s = .next t ∧
    OnlyChanges (mayChange i) s t

/-- VF is written only by the instructions of R22's table, or by one that names it as its destination (R22). What
ADD_I_SETS_VF does is spec decision D28 (log 7). -/
def Obligations.FlagWrittenOnlyByListedInstrs : Prop :=
  ∀ (i : Instr) (s t : State), exec i s = .next t → t.getV 0xF#4 ≠ s.getV 0xF#4 →
    (∃ x y, i = .addReg x y ∨ i = .sub x y ∨ i = .subn x y ∨ i = .shr x y ∨ i = .shl x y) ∨
    (s.cfg.q.logicClearsVF = true ∧ ∃ x y, i = .or x y ∨ i = .and x y ∨ i = .xor x y) ∨
    (∃ x y n, i = .drw x y n ∧ s.cfg.q.vblankSync = false) ∨
    (s.cfg.params.addISetsVF = true ∧ ∃ x, i = .addI x) ∨
    (∃ nn y, i = .ldImm 0xF#4 nn ∨ i = .addImm 0xF#4 nn ∨ i = .rnd 0xF#4 nn ∨ i = .ldReg 0xF#4 y ∨
      i = .or 0xF#4 y ∨ i = .and 0xF#4 y ∨ i = .xor 0xF#4 y ∨ i = .ldVxDT 0xF#4 ∨ i = .loadRegs 0xF#4)

/-- Events other than `Step` and `Load` never redirect pc, never write memory, the stack, I or the configuration (R64,
R185). -/
def Obligations.OnlyStepAndLoadMoveProgram : Prop :=
  ∀ (e : Event) (s t : State), e ≠ .step → (∀ im md, e ≠ .load im md) → fire e s = .next t →
    OnlyChanges [.V, .DT, .ST, .disp, .keys, .waitReg, .sched, .pendingDraw, .running, .outputs, .draws] s t

/-- A blocked key-wait ends only by `PollKeys` with a key down, or by `Load`; a vblank wait only by `Tick60` or `Load`
(R33, R193). -/
def Obligations.WaitsEndOnlyByTheirEvents : Prop :=
  ∀ (e : Event) (s t : State), fire e s = .next t →
    (s.sched = .waitingForKey → t.sched ≠ .waitingForKey →
      (e = .pollKeys ∧ ∃ k, s.keyDown k = true) ∨ ∃ im md, e = .load im md) ∧
    (s.sched = .waitingForVblank → t.sched ≠ .waitingForVblank → e = .tick60 ∨ ∃ im md, e = .load im md)

/-- `Stop` clears the running flag and nothing else; after `Stop` or Fatal only `Load` sets the core running again, and
until then nothing but key events happens: pc, registers, memory, timers and display stay (R198, R182, R187; that there
is no resume, and that timers and display freeze, are spec decisions D36 and D22). -/
def Obligations.StoppedCoreAwaitsLoad : Prop :=
  (∀ s : State, s.loaded = true → ∃ t, fire .stop s = .next t ∧ t.running = false ∧ OnlyChanges [.running] s t) ∧
  (∀ (e : Event) (s t : State), s.running = false → fire e s = .next t → (∀ im md, e ≠ .load im md) →
    OnlyChanges [.keys] s t)

/-- Once a program has ended normally at `a`, every `Step` leaves the state unchanged (R217). The definition is spec
decision D42; the last clause is about an empty queue (log 3). -/
def Obligations.SelfJumpStepsInPlace : Prop :=
  ∀ (s : State) (a : Addr), EndedNormally a s → fire .step s = .next s ∧ (s.inputs = [] → step s = .next s)

/-- In a run in which `Tick60` is weakly fair, a vblank wait that nobody stops or reloads eventually ends (R219).
Fairness as a premise: spec decision D20. -/
def Obligations.FairTickEndsVblankWait : Prop :=
  ∀ (σ : Nat → State) (e : Nat → Event) (n : Nat), IsRun σ e → WeaklyFair .tick60 σ e →
    (σ n).loaded = true → (σ n).running = true → (σ n).sched = .waitingForVblank →
    (∀ m ≥ n, e m ≠ .stop ∧ ∀ im md, e m ≠ .load im md) →
    ∃ m > n, (σ m).sched = .running

/-- In a run in which `PollKeys` is weakly fair and the host eventually presses a key, a key-wait that nobody stops
or reloads, and in which no key is released, eventually ends (R219: the host's key is an explicit premise). Fairness
as a premise: spec decision D20; sampling by PollKeys only: D19. -/
def Obligations.FairPollAndKeyEndKeyWait : Prop :=
  ∀ (σ : Nat → State) (e : Nat → Event) (n : Nat), IsRun σ e → WeaklyFair .pollKeys σ e → HostPresses e →
    (σ n).loaded = true → (σ n).running = true → (σ n).sched = .waitingForKey →
    (∀ m ≥ n, e m ≠ .stop ∧ (∀ im md, e m ≠ .load im md) ∧ ∀ i, e m ≠ .keyUp i) →
    ∃ m > n, (σ m).sched = .running
end

