-- ==== Sys2Proof/Laws/Decode.lean ====
section
/-! SUPPORT. The fields of packed words, packing as concatenation, and the bytes of a word. -/

namespace Sys2Proof

/-! ### Packing is concatenation (R8, R72) -/

theorem packNNN_eq_append (op : Nibble) (nnn : Addr) : packNNN op nnn = (op ++ nnn : BitVec (4 + 12)) := by
  apply BitVec.eq_of_toNat_eq
  rw [BitVec.toNat_append, ← Nat.shiftLeft_add_eq_or_of_lt nnn.isLt]
  simp only [packNNN, BitVec.toNat_ofNat, Nat.shiftLeft_eq]
  have := op.isLt; have := nnn.isLt
  omega

theorem packXNN_eq_append (op x : Nibble) (nn : Byte) :
    packXNN op x nn = (op ++ x ++ nn : BitVec (4 + 4 + 8)) := by
  apply BitVec.eq_of_toNat_eq
  rw [BitVec.toNat_append, ← Nat.shiftLeft_add_eq_or_of_lt nn.isLt, BitVec.toNat_append,
    ← Nat.shiftLeft_add_eq_or_of_lt x.isLt]
  simp only [packXNN, BitVec.toNat_ofNat, Nat.shiftLeft_eq]
  have := op.isLt; have := x.isLt; have := nn.isLt
  omega

theorem packXYN_eq_append (op x y n : Nibble) :
    packXYN op x y n = (op ++ x ++ y ++ n : BitVec (4 + 4 + 4 + 4)) := by
  apply BitVec.eq_of_toNat_eq
  rw [BitVec.toNat_append, ← Nat.shiftLeft_add_eq_or_of_lt n.isLt, BitVec.toNat_append,
    ← Nat.shiftLeft_add_eq_or_of_lt y.isLt, BitVec.toNat_append, ← Nat.shiftLeft_add_eq_or_of_lt x.isLt]
  simp only [packXYN, BitVec.toNat_ofNat, Nat.shiftLeft_eq]
  have := op.isLt; have := x.isLt; have := y.isLt; have := n.isLt
  omega

/-! ### Fields as numbers -/

theorem fieldOp_toNat (w : Word) : (fieldOp w).toNat = w.toNat / 4096 := by
  have := w.isLt
  simp [fieldOp, Nat.shiftRight_eq_div_pow]
  omega

theorem fieldX_toNat (w : Word) : (fieldX w).toNat = w.toNat / 256 % 16 := by
  simp [fieldX, Nat.shiftRight_eq_div_pow]

theorem fieldY_toNat (w : Word) : (fieldY w).toNat = w.toNat / 16 % 16 := by
  simp [fieldY, Nat.shiftRight_eq_div_pow]

theorem fieldN_toNat (w : Word) : (fieldN w).toNat = w.toNat % 16 := by
  simp [fieldN]

theorem fieldNN_toNat (w : Word) : (fieldNN w).toNat = w.toNat % 256 := by
  simp [fieldNN]

theorem fieldNNN_toNat (w : Word) : (fieldNNN w).toNat = w.toNat % 4096 := by
  simp [fieldNNN]

theorem packNNN_toNat (op : Nibble) (nnn : Addr) : (packNNN op nnn).toNat = op.toNat * 4096 + nnn.toNat := by
  have := op.isLt; have := nnn.isLt
  simp only [packNNN, BitVec.toNat_ofNat]
  omega

theorem packXNN_toNat (op x : Nibble) (nn : Byte) :
    (packXNN op x nn).toNat = op.toNat * 4096 + x.toNat * 256 + nn.toNat := by
  have := op.isLt; have := x.isLt; have := nn.isLt
  simp only [packXNN, BitVec.toNat_ofNat]
  omega

theorem packXYN_toNat (op x y n : Nibble) :
    (packXYN op x y n).toNat = op.toNat * 4096 + x.toNat * 256 + y.toNat * 16 + n.toNat := by
  have := op.isLt; have := x.isLt; have := y.isLt; have := n.isLt
  simp only [packXYN, BitVec.toNat_ofNat]
  omega

/-! ### Fields of packed words -/

@[simp] theorem fieldOp_packNNN (op : Nibble) (nnn : Addr) : fieldOp (packNNN op nnn) = op := by
  apply BitVec.eq_of_toNat_eq
  rw [fieldOp_toNat, packNNN_toNat]
  have := nnn.isLt; omega

@[simp] theorem fieldNNN_packNNN (op : Nibble) (nnn : Addr) : fieldNNN (packNNN op nnn) = nnn := by
  apply BitVec.eq_of_toNat_eq
  rw [fieldNNN_toNat, packNNN_toNat]
  have := nnn.isLt; omega

@[simp] theorem fieldOp_packXNN (op x : Nibble) (nn : Byte) : fieldOp (packXNN op x nn) = op := by
  apply BitVec.eq_of_toNat_eq
  rw [fieldOp_toNat, packXNN_toNat]
  have := x.isLt; have := nn.isLt; omega

@[simp] theorem fieldX_packXNN (op x : Nibble) (nn : Byte) : fieldX (packXNN op x nn) = x := by
  apply BitVec.eq_of_toNat_eq
  rw [fieldX_toNat, packXNN_toNat]
  have := x.isLt; have := nn.isLt; omega

@[simp] theorem fieldNN_packXNN (op x : Nibble) (nn : Byte) : fieldNN (packXNN op x nn) = nn := by
  apply BitVec.eq_of_toNat_eq
  rw [fieldNN_toNat, packXNN_toNat]
  have := nn.isLt; omega

@[simp] theorem fieldOp_packXYN (op x y n : Nibble) : fieldOp (packXYN op x y n) = op := by
  apply BitVec.eq_of_toNat_eq
  rw [fieldOp_toNat, packXYN_toNat]
  have := x.isLt; have := y.isLt; have := n.isLt; omega

@[simp] theorem fieldX_packXYN (op x y n : Nibble) : fieldX (packXYN op x y n) = x := by
  apply BitVec.eq_of_toNat_eq
  rw [fieldX_toNat, packXYN_toNat]
  have := x.isLt; have := y.isLt; have := n.isLt; omega

@[simp] theorem fieldY_packXYN (op x y n : Nibble) : fieldY (packXYN op x y n) = y := by
  apply BitVec.eq_of_toNat_eq
  rw [fieldY_toNat, packXYN_toNat]
  have := y.isLt; have := n.isLt; omega

@[simp] theorem fieldN_packXYN (op x y n : Nibble) : fieldN (packXYN op x y n) = n := by
  apply BitVec.eq_of_toNat_eq
  rw [fieldN_toNat, packXYN_toNat]
  have := n.isLt; omega

/-! ### A word is the packing of its fields -/

theorem packNNN_fields (w : Word) : packNNN (fieldOp w) (fieldNNN w) = w := by
  apply BitVec.eq_of_toNat_eq
  rw [packNNN_toNat, fieldOp_toNat, fieldNNN_toNat]
  omega

theorem packXNN_fields (w : Word) : packXNN (fieldOp w) (fieldX w) (fieldNN w) = w := by
  apply BitVec.eq_of_toNat_eq
  rw [packXNN_toNat, fieldOp_toNat, fieldX_toNat, fieldNN_toNat]
  omega

theorem packXYN_fields (w : Word) : packXYN (fieldOp w) (fieldX w) (fieldY w) (fieldN w) = w := by
  apply BitVec.eq_of_toNat_eq
  rw [packXYN_toNat, fieldOp_toNat, fieldX_toNat, fieldY_toNat, fieldN_toNat]
  omega

/-! ### Bytes of a word -/

theorem wordOfBytes_toNat (hi lo : Byte) : (wordOfBytes hi lo).toNat = hi.toNat * 256 + lo.toNat := by
  have := hi.isLt; have := lo.isLt
  simp only [wordOfBytes, BitVec.toNat_ofNat]
  omega

theorem wordOfBytes_eq_append (hi lo : Byte) : wordOfBytes hi lo = (hi ++ lo : BitVec (8 + 8)) := by
  apply BitVec.eq_of_toNat_eq
  rw [BitVec.toNat_append, ← Nat.shiftLeft_add_eq_or_of_lt lo.isLt, wordOfBytes_toNat, Nat.shiftLeft_eq]

theorem highByte_toNat (w : Word) : (highByte w).toNat = w.toNat / 256 := by
  have := w.isLt
  simp [highByte, Nat.shiftRight_eq_div_pow]
  omega

theorem lowByte_toNat (w : Word) : (lowByte w).toNat = w.toNat % 256 := by
  simp [lowByte]

/-- Storing a word's bytes and reading them back gives the word. -/
@[simp] theorem wordOfBytes_bytes (w : Word) : wordOfBytes (highByte w) (lowByte w) = w := by
  apply BitVec.eq_of_toNat_eq
  rw [wordOfBytes_toNat, highByte_toNat, lowByte_toNat]
  omega

/-- Decoding the two bytes of a word decodes the word. -/
theorem decodeBytes_word (w : Word) (rest : List Byte) :
    decodeBytes (highByte w :: lowByte w :: rest) =
      match decode w with
      | .ok i => .ok (i, rest)
      | .error r => .error r := by
  cases h : decode w <;> simp [decodeBytes, h]

end Sys2Proof
end

