-- ==== Sys2Proof/Laws/Sparse.lean ====
section
/-! SUPPORT. The laws of sparse stores: what a read gives after each operation, and that each operation keeps the
canonical form. -/

namespace Sys2Proof.Machine

variable {α : Type}

@[simp] theorem Sparse.get_nil (dflt : Nat → α) (k : Nat) : Sparse.get dflt [] k = dflt k := rfl

@[simp] theorem Sparse.get_cons (dflt : Nat → α) (e : Nat × α) (m : List (Nat × α)) (k : Nat) :
    Sparse.get dflt (e :: m) k = if e.1 = k then e.2 else Sparse.get dflt m k := rfl

/-- Reading a key that no entry has gives the default. -/
theorem Sparse.get_of_forall_ne (dflt : Nat → α) (m : List (Nat × α)) (k : Nat)
    (h : ∀ e ∈ m, e.1 ≠ k) : Sparse.get dflt m k = dflt k := by
  induction m with
  | nil => rfl
  | cons e m ih =>
    have h1 := h e (by simp)
    simp only [Sparse.get_cons, if_neg h1]
    exact ih (fun e' he' => h e' (by simp [he']))

theorem Sparse.get_erase (dflt : Nat → α) (m : List (Nat × α)) (k j : Nat) :
    Sparse.get dflt (Sparse.erase m k) j = if j = k then dflt j else Sparse.get dflt m j := by
  induction m with
  | nil => simp [Sparse.erase]
  | cons e m ih =>
    unfold Sparse.erase at ih ⊢
    by_cases h : e.1 = k
    · simp only [List.filter_cons, h, bne_self_eq_false, Bool.false_eq_true, if_false, ih, Sparse.get_cons]
      by_cases hj : j = k
      · simp [hj]
      · simp [hj, Ne.symm hj]
    · simp only [List.filter_cons, bne_iff_ne, ne_eq, h, not_false_eq_true, if_true, Sparse.get_cons, ih]
      by_cases hj : e.1 = j
      · have : j ≠ k := by rw [← hj]; exact h
        simp [hj, this]
      · simp [hj]

theorem Sparse.get_insert (dflt : Nat → α) (m : List (Nat × α)) (k j : Nat) (v : α)
    (h : ∀ e ∈ m, e.1 ≠ k) :
    Sparse.get dflt (Sparse.insert m k v) j = if j = k then v else Sparse.get dflt m j := by
  induction m with
  | nil => simp [Sparse.insert, eq_comm]
  | cons e m ih =>
    have he := h e (by simp)
    unfold Sparse.insert
    split
    · simp [eq_comm]
    · rw [Sparse.get_cons, ih (fun e' he' => h e' (by simp [he']))]
      by_cases hj : e.1 = j
      · have : j ≠ k := by rw [← hj]; exact he
        simp [hj, this]
      · simp [hj]

theorem Sparse.ne_of_mem_erase (m : List (Nat × α)) (k : Nat) : ∀ e ∈ Sparse.erase m k, e.1 ≠ k := by
  intro e he
  simpa [Sparse.erase] using (List.mem_filter.mp he).2

/-- Read after write: the written key reads the value, every other key reads as before. -/
theorem Sparse.get_set [DecidableEq α] (dflt : Nat → α) (m : List (Nat × α)) (k j : Nat) (v : α) :
    Sparse.get dflt (Sparse.set dflt m k v) j = if j = k then v else Sparse.get dflt m j := by
  unfold Sparse.set
  split
  · rename_i h
    rw [Sparse.get_erase]
    by_cases hj : j = k <;> simp [hj, h]
  · rw [Sparse.get_insert _ _ _ _ _ (Sparse.ne_of_mem_erase m k), Sparse.get_erase]
    by_cases hj : j = k <;> simp [hj]

theorem Sparse.mem_insert {m : List (Nat × α)} {k : Nat} {v : α} {e : Nat × α} :
    e ∈ Sparse.insert m k v ↔ e = (k, v) ∨ e ∈ m := by
  induction m with
  | nil => simp [Sparse.insert]
  | cons a m ih =>
    unfold Sparse.insert
    split
    · simp
    · simp only [List.mem_cons, ih]
      tauto

theorem Sparse.sorted_insert {m : List (Nat × α)} {k : Nat} {v : α}
    (hs : m.Pairwise (fun a b => a.1 < b.1)) (h : ∀ e ∈ m, e.1 ≠ k) :
    (Sparse.insert m k v).Pairwise (fun a b => a.1 < b.1) := by
  induction m with
  | nil => simp [Sparse.insert]
  | cons a m ih =>
    rw [List.pairwise_cons] at hs
    unfold Sparse.insert
    split
    · rename_i hk
      refine List.pairwise_cons.mpr ⟨?_, List.pairwise_cons.mpr hs⟩
      intro b hb
      rcases List.mem_cons.mp hb with rfl | hb
      · exact hk
      · exact lt_trans hk (hs.1 b hb)
    · rename_i hk
      have ha : a.1 ≠ k := h a (by simp)
      refine List.pairwise_cons.mpr ⟨?_, ih hs.2 (fun e he => h e (by simp [he]))⟩
      intro b hb
      rcases Sparse.mem_insert.mp hb with rfl | hb
      · simp only; omega
      · exact hs.1 b hb

theorem Sparse.wf_nil (bound : Nat) (dflt : Nat → α) : Sparse.WF bound dflt ([] : List (Nat × α)) := by
  simp [Sparse.WF]

theorem Sparse.wf_erase {bound : Nat} {dflt : Nat → α} {m : List (Nat × α)} (h : Sparse.WF bound dflt m) (k : Nat) :
    Sparse.WF bound dflt (Sparse.erase m k) :=
  ⟨h.1.filter _, fun e he => h.2 e (List.mem_filter.mp he).1⟩

/-- Writing keeps the canonical form. -/
theorem Sparse.wf_set [DecidableEq α] {bound : Nat} {dflt : Nat → α} {m : List (Nat × α)}
    (h : Sparse.WF bound dflt m) {k : Nat} (hk : k < bound) (v : α) :
    Sparse.WF bound dflt (Sparse.set dflt m k v) := by
  unfold Sparse.set
  split
  · exact Sparse.wf_erase h k
  · rename_i hv
    have he := Sparse.wf_erase h k
    refine ⟨Sparse.sorted_insert he.1 (Sparse.ne_of_mem_erase m k), ?_⟩
    intro e hmem
    rcases Sparse.mem_insert.mp hmem with rfl | hmem
    · exact ⟨hk, hv⟩
    · exact he.2 e hmem

/-- Mapping the values keeps the canonical form. -/
theorem Sparse.wf_mapVals [DecidableEq α] {bound : Nat} {dflt : Nat → α} {m : List (Nat × α)} (f : α → α)
    (h : Sparse.WF bound dflt m) : Sparse.WF bound dflt (Sparse.mapVals dflt f m) := by
  refine ⟨?_, ?_⟩
  · refine List.Pairwise.filterMap _ ?_ h.1
    intro a a' haa b hb b' hb'
    split at hb
    · simp at hb
    · split at hb'
      · simp at hb'
      · simp only [Option.some.injEq] at hb hb'
        subst hb; subst hb'
        exact haa
  · intro e he
    obtain ⟨a, ha, hae⟩ := List.mem_filterMap.mp he
    split at hae
    · simp at hae
    · rename_i hne
      simp only [Option.some.injEq] at hae
      subst hae
      exact ⟨(h.2 a ha).1, hne⟩

/-- A key's value after mapping is `f` of its value before, if `f` leaves the default alone. -/
theorem Sparse.get_mapVals [DecidableEq α] {bound : Nat} {dflt : Nat → α} {m : List (Nat × α)} (f : α → α)
    (h : Sparse.WF bound dflt m) (hf : ∀ k, f (dflt k) = dflt k) (k : Nat) :
    Sparse.get dflt (Sparse.mapVals dflt f m) k = f (Sparse.get dflt m k) := by
  induction m with
  | nil => simp [Sparse.mapVals, hf]
  | cons e m ih =>
    have hp := List.pairwise_cons.mp h.1
    have ih := ih ⟨hp.2, fun e' he' => h.2 e' (by simp [he'])⟩
    have hunl : e.1 = k → Sparse.get dflt (Sparse.mapVals dflt f m) k = dflt k := by
      intro hk
      rw [ih, Sparse.get_of_forall_ne dflt m k, hf]
      intro e' he'
      have := hp.1 e' he'
      omega
    unfold Sparse.mapVals at ih hunl ⊢
    simp only [List.filterMap_cons, Sparse.get_cons]
    by_cases hd : f e.2 = dflt e.1
    · simp only [hd, if_true]
      by_cases hk : e.1 = k
      · rw [hunl hk, if_pos hk, hd, hk]
      · rw [if_neg hk, ih]
    · simp only [hd, if_false, Sparse.get_cons]
      by_cases hk : e.1 = k
      · simp [hk]
      · simp [hk, ih]

/-- Moving entries by a key map that keeps the order of the keys it moves, and their bound, keeps the canonical form
of a store with one default for all keys. -/
theorem Sparse.wf_rekey {bound : Nat} {c : α} {g : Nat → Option Nat} {m : List (Nat × α)}
    (h : Sparse.WF bound (fun _ => c) m)
    (hmono : ∀ a b, a < b → ∀ a', g a = some a' → ∀ b', g b = some b' → a' < b')
    (hb : ∀ a, a < bound → ∀ a', g a = some a' → a' < bound) :
    Sparse.WF bound (fun _ => c) (Sparse.rekey g m) := by
  refine ⟨?_, ?_⟩
  · refine List.Pairwise.filterMap _ ?_ h.1
    intro a a' haa b hb b' hb'
    simp only [Option.map_eq_some_iff] at hb hb'
    obtain ⟨x, hx, rfl⟩ := hb
    obtain ⟨y, hy, rfl⟩ := hb'
    exact hmono _ _ haa _ hx _ hy
  · intro e he
    obtain ⟨a, ha, hae⟩ := List.mem_filterMap.mp he
    simp only [Option.map_eq_some_iff] at hae
    obtain ⟨x, hx, rfl⟩ := hae
    exact ⟨hb _ (h.2 a ha).1 _ hx, (h.2 a ha).2⟩

/-- After moving, the key that `g` gives `k` reads what `k` read, if `g` moves no other key there. -/
theorem Sparse.get_rekey_of_some {c : α} {g : Nat → Option Nat} (m : List (Nat × α)) {k k' : Nat}
    (hk : g k = some k') (hinj : ∀ e ∈ m, g e.1 = some k' → e.1 = k) :
    Sparse.get (fun _ => c) (Sparse.rekey g m) k' = Sparse.get (fun _ => c) m k := by
  induction m with
  | nil => rfl
  | cons e m ih =>
    have ih := ih (fun e' he' => hinj e' (by simp [he']))
    have he := hinj e (by simp)
    unfold Sparse.rekey at ih ⊢
    simp only [List.filterMap_cons, Sparse.get_cons]
    by_cases hek : e.1 = k
    · simp [hek, hk]
    · cases hg : g e.1 with
      | none => simp [hek, ih]
      | some x =>
        have : x ≠ k' := fun hx => hek (he (by rw [hg, hx]))
        simp [this, hek, ih]

/-- After moving, a key where `g` moves nothing reads the default. -/
theorem Sparse.get_rekey_of_none {c : α} {g : Nat → Option Nat} (m : List (Nat × α)) {k' : Nat}
    (h : ∀ e ∈ m, g e.1 ≠ some k') : Sparse.get (fun _ => c) (Sparse.rekey g m) k' = c := by
  apply Sparse.get_of_forall_ne
  intro e he
  obtain ⟨a, ha, hae⟩ := List.mem_filterMap.mp he
  simp only [Option.map_eq_some_iff] at hae
  obtain ⟨x, hx, rfl⟩ := hae
  intro hxk
  exact h a ha (by rw [hx, ← hxk])

/-- Any list of entries gives a store in canonical form. -/
theorem Sparse.wf_ofList [DecidableEq α] (bound : Nat) (dflt : Nat → α) (l : List (Nat × α)) :
    Sparse.WF bound dflt (Sparse.ofList bound dflt l) := by
  induction l with
  | nil => exact Sparse.wf_nil bound dflt
  | cons e l ih =>
    unfold Sparse.ofList at ih ⊢
    simp only [List.foldr_cons]
    split
    · rename_i he
      exact Sparse.wf_set ih he _
    · exact ih

end Sys2Proof.Machine
end

