-- ==== Sys2Proof/Laws/State.lean ====
section
/-! SUPPORT. One lemma per field per named update of the state, so that no later proof unfolds a record update; and
the same for the shared operations built from them. -/

namespace Sys2Proof.Machine

/-! ### setMem -/

@[simp] theorem State.setMem_mem (s : State) (m : Memory) : (s.setMem m).mem = m := rfl
@[simp] theorem State.setMem_V (s : State) (m : Memory) : (s.setMem m).V = s.V := rfl
@[simp] theorem State.setMem_I (s : State) (m : Memory) : (s.setMem m).I = s.I := rfl
@[simp] theorem State.setMem_pc (s : State) (m : Memory) : (s.setMem m).pc = s.pc := rfl
@[simp] theorem State.setMem_stack (s : State) (m : Memory) : (s.setMem m).stack = s.stack := rfl
@[simp] theorem State.setMem_DT (s : State) (m : Memory) : (s.setMem m).DT = s.DT := rfl
@[simp] theorem State.setMem_ST (s : State) (m : Memory) : (s.setMem m).ST = s.ST := rfl
@[simp] theorem State.setMem_disp (s : State) (m : Memory) : (s.setMem m).disp = s.disp := rfl
@[simp] theorem State.setMem_mode (s : State) (m : Memory) : (s.setMem m).mode = s.mode := rfl
@[simp] theorem State.setMem_keys (s : State) (m : Memory) : (s.setMem m).keys = s.keys := rfl
@[simp] theorem State.setMem_waitReg (s : State) (m : Memory) : (s.setMem m).waitReg = s.waitReg := rfl
@[simp] theorem State.setMem_sched (s : State) (m : Memory) : (s.setMem m).sched = s.sched := rfl
@[simp] theorem State.setMem_pendingDraw (s : State) (m : Memory) : (s.setMem m).pendingDraw = s.pendingDraw := rfl
@[simp] theorem State.setMem_loaded (s : State) (m : Memory) : (s.setMem m).loaded = s.loaded := rfl
@[simp] theorem State.setMem_running (s : State) (m : Memory) : (s.setMem m).running = s.running := rfl
@[simp] theorem State.setMem_fault (s : State) (m : Memory) : (s.setMem m).fault = s.fault := rfl
@[simp] theorem State.setMem_underflowSeen (s : State) (m : Memory) : (s.setMem m).underflowSeen = s.underflowSeen := rfl
@[simp] theorem State.setMem_underflowCount (s : State) (m : Memory) : (s.setMem m).underflowCount = s.underflowCount := rfl
@[simp] theorem State.setMem_acc (s : State) (m : Memory) : (s.setMem m).acc = s.acc := rfl
@[simp] theorem State.setMem_cfg (s : State) (m : Memory) : (s.setMem m).cfg = s.cfg := rfl
@[simp] theorem State.setMem_inputs (s : State) (m : Memory) : (s.setMem m).inputs = s.inputs := rfl
@[simp] theorem State.setMem_outputs (s : State) (m : Memory) : (s.setMem m).outputs = s.outputs := rfl
@[simp] theorem State.setMem_draws (s : State) (m : Memory) : (s.setMem m).draws = s.draws := rfl

/-! ### setI -/

@[simp] theorem State.setI_mem (s : State) (a : Addr) : (s.setI a).mem = s.mem := rfl
@[simp] theorem State.setI_V (s : State) (a : Addr) : (s.setI a).V = s.V := rfl
@[simp] theorem State.setI_I (s : State) (a : Addr) : (s.setI a).I = a := rfl
@[simp] theorem State.setI_pc (s : State) (a : Addr) : (s.setI a).pc = s.pc := rfl
@[simp] theorem State.setI_stack (s : State) (a : Addr) : (s.setI a).stack = s.stack := rfl
@[simp] theorem State.setI_DT (s : State) (a : Addr) : (s.setI a).DT = s.DT := rfl
@[simp] theorem State.setI_ST (s : State) (a : Addr) : (s.setI a).ST = s.ST := rfl
@[simp] theorem State.setI_disp (s : State) (a : Addr) : (s.setI a).disp = s.disp := rfl
@[simp] theorem State.setI_mode (s : State) (a : Addr) : (s.setI a).mode = s.mode := rfl
@[simp] theorem State.setI_keys (s : State) (a : Addr) : (s.setI a).keys = s.keys := rfl
@[simp] theorem State.setI_waitReg (s : State) (a : Addr) : (s.setI a).waitReg = s.waitReg := rfl
@[simp] theorem State.setI_sched (s : State) (a : Addr) : (s.setI a).sched = s.sched := rfl
@[simp] theorem State.setI_pendingDraw (s : State) (a : Addr) : (s.setI a).pendingDraw = s.pendingDraw := rfl
@[simp] theorem State.setI_loaded (s : State) (a : Addr) : (s.setI a).loaded = s.loaded := rfl
@[simp] theorem State.setI_running (s : State) (a : Addr) : (s.setI a).running = s.running := rfl
@[simp] theorem State.setI_fault (s : State) (a : Addr) : (s.setI a).fault = s.fault := rfl
@[simp] theorem State.setI_underflowSeen (s : State) (a : Addr) : (s.setI a).underflowSeen = s.underflowSeen := rfl
@[simp] theorem State.setI_underflowCount (s : State) (a : Addr) : (s.setI a).underflowCount = s.underflowCount := rfl
@[simp] theorem State.setI_acc (s : State) (a : Addr) : (s.setI a).acc = s.acc := rfl
@[simp] theorem State.setI_cfg (s : State) (a : Addr) : (s.setI a).cfg = s.cfg := rfl
@[simp] theorem State.setI_inputs (s : State) (a : Addr) : (s.setI a).inputs = s.inputs := rfl
@[simp] theorem State.setI_outputs (s : State) (a : Addr) : (s.setI a).outputs = s.outputs := rfl
@[simp] theorem State.setI_draws (s : State) (a : Addr) : (s.setI a).draws = s.draws := rfl

/-! ### setPc -/

@[simp] theorem State.setPc_mem (s : State) (a : Addr) : (s.setPc a).mem = s.mem := rfl
@[simp] theorem State.setPc_V (s : State) (a : Addr) : (s.setPc a).V = s.V := rfl
@[simp] theorem State.setPc_I (s : State) (a : Addr) : (s.setPc a).I = s.I := rfl
@[simp] theorem State.setPc_pc (s : State) (a : Addr) : (s.setPc a).pc = a := rfl
@[simp] theorem State.setPc_stack (s : State) (a : Addr) : (s.setPc a).stack = s.stack := rfl
@[simp] theorem State.setPc_DT (s : State) (a : Addr) : (s.setPc a).DT = s.DT := rfl
@[simp] theorem State.setPc_ST (s : State) (a : Addr) : (s.setPc a).ST = s.ST := rfl
@[simp] theorem State.setPc_disp (s : State) (a : Addr) : (s.setPc a).disp = s.disp := rfl
@[simp] theorem State.setPc_mode (s : State) (a : Addr) : (s.setPc a).mode = s.mode := rfl
@[simp] theorem State.setPc_keys (s : State) (a : Addr) : (s.setPc a).keys = s.keys := rfl
@[simp] theorem State.setPc_waitReg (s : State) (a : Addr) : (s.setPc a).waitReg = s.waitReg := rfl
@[simp] theorem State.setPc_sched (s : State) (a : Addr) : (s.setPc a).sched = s.sched := rfl
@[simp] theorem State.setPc_pendingDraw (s : State) (a : Addr) : (s.setPc a).pendingDraw = s.pendingDraw := rfl
@[simp] theorem State.setPc_loaded (s : State) (a : Addr) : (s.setPc a).loaded = s.loaded := rfl
@[simp] theorem State.setPc_running (s : State) (a : Addr) : (s.setPc a).running = s.running := rfl
@[simp] theorem State.setPc_fault (s : State) (a : Addr) : (s.setPc a).fault = s.fault := rfl
@[simp] theorem State.setPc_underflowSeen (s : State) (a : Addr) : (s.setPc a).underflowSeen = s.underflowSeen := rfl
@[simp] theorem State.setPc_underflowCount (s : State) (a : Addr) : (s.setPc a).underflowCount = s.underflowCount := rfl
@[simp] theorem State.setPc_acc (s : State) (a : Addr) : (s.setPc a).acc = s.acc := rfl
@[simp] theorem State.setPc_cfg (s : State) (a : Addr) : (s.setPc a).cfg = s.cfg := rfl
@[simp] theorem State.setPc_inputs (s : State) (a : Addr) : (s.setPc a).inputs = s.inputs := rfl
@[simp] theorem State.setPc_outputs (s : State) (a : Addr) : (s.setPc a).outputs = s.outputs := rfl
@[simp] theorem State.setPc_draws (s : State) (a : Addr) : (s.setPc a).draws = s.draws := rfl

/-! ### setStack -/

@[simp] theorem State.setStack_mem (s : State) (l : List Addr) : (s.setStack l).mem = s.mem := rfl
@[simp] theorem State.setStack_V (s : State) (l : List Addr) : (s.setStack l).V = s.V := rfl
@[simp] theorem State.setStack_I (s : State) (l : List Addr) : (s.setStack l).I = s.I := rfl
@[simp] theorem State.setStack_pc (s : State) (l : List Addr) : (s.setStack l).pc = s.pc := rfl
@[simp] theorem State.setStack_stack (s : State) (l : List Addr) : (s.setStack l).stack = l := rfl
@[simp] theorem State.setStack_DT (s : State) (l : List Addr) : (s.setStack l).DT = s.DT := rfl
@[simp] theorem State.setStack_ST (s : State) (l : List Addr) : (s.setStack l).ST = s.ST := rfl
@[simp] theorem State.setStack_disp (s : State) (l : List Addr) : (s.setStack l).disp = s.disp := rfl
@[simp] theorem State.setStack_mode (s : State) (l : List Addr) : (s.setStack l).mode = s.mode := rfl
@[simp] theorem State.setStack_keys (s : State) (l : List Addr) : (s.setStack l).keys = s.keys := rfl
@[simp] theorem State.setStack_waitReg (s : State) (l : List Addr) : (s.setStack l).waitReg = s.waitReg := rfl
@[simp] theorem State.setStack_sched (s : State) (l : List Addr) : (s.setStack l).sched = s.sched := rfl
@[simp] theorem State.setStack_pendingDraw (s : State) (l : List Addr) : (s.setStack l).pendingDraw = s.pendingDraw := rfl
@[simp] theorem State.setStack_loaded (s : State) (l : List Addr) : (s.setStack l).loaded = s.loaded := rfl
@[simp] theorem State.setStack_running (s : State) (l : List Addr) : (s.setStack l).running = s.running := rfl
@[simp] theorem State.setStack_fault (s : State) (l : List Addr) : (s.setStack l).fault = s.fault := rfl
@[simp] theorem State.setStack_underflowSeen (s : State) (l : List Addr) : (s.setStack l).underflowSeen = s.underflowSeen := rfl
@[simp] theorem State.setStack_underflowCount (s : State) (l : List Addr) : (s.setStack l).underflowCount = s.underflowCount := rfl
@[simp] theorem State.setStack_acc (s : State) (l : List Addr) : (s.setStack l).acc = s.acc := rfl
@[simp] theorem State.setStack_cfg (s : State) (l : List Addr) : (s.setStack l).cfg = s.cfg := rfl
@[simp] theorem State.setStack_inputs (s : State) (l : List Addr) : (s.setStack l).inputs = s.inputs := rfl
@[simp] theorem State.setStack_outputs (s : State) (l : List Addr) : (s.setStack l).outputs = s.outputs := rfl
@[simp] theorem State.setStack_draws (s : State) (l : List Addr) : (s.setStack l).draws = s.draws := rfl

/-! ### setDT -/

@[simp] theorem State.setDT_mem (s : State) (v : Byte) : (s.setDT v).mem = s.mem := rfl
@[simp] theorem State.setDT_V (s : State) (v : Byte) : (s.setDT v).V = s.V := rfl
@[simp] theorem State.setDT_I (s : State) (v : Byte) : (s.setDT v).I = s.I := rfl
@[simp] theorem State.setDT_pc (s : State) (v : Byte) : (s.setDT v).pc = s.pc := rfl
@[simp] theorem State.setDT_stack (s : State) (v : Byte) : (s.setDT v).stack = s.stack := rfl
@[simp] theorem State.setDT_DT (s : State) (v : Byte) : (s.setDT v).DT = v := rfl
@[simp] theorem State.setDT_ST (s : State) (v : Byte) : (s.setDT v).ST = s.ST := rfl
@[simp] theorem State.setDT_disp (s : State) (v : Byte) : (s.setDT v).disp = s.disp := rfl
@[simp] theorem State.setDT_mode (s : State) (v : Byte) : (s.setDT v).mode = s.mode := rfl
@[simp] theorem State.setDT_keys (s : State) (v : Byte) : (s.setDT v).keys = s.keys := rfl
@[simp] theorem State.setDT_waitReg (s : State) (v : Byte) : (s.setDT v).waitReg = s.waitReg := rfl
@[simp] theorem State.setDT_sched (s : State) (v : Byte) : (s.setDT v).sched = s.sched := rfl
@[simp] theorem State.setDT_pendingDraw (s : State) (v : Byte) : (s.setDT v).pendingDraw = s.pendingDraw := rfl
@[simp] theorem State.setDT_loaded (s : State) (v : Byte) : (s.setDT v).loaded = s.loaded := rfl
@[simp] theorem State.setDT_running (s : State) (v : Byte) : (s.setDT v).running = s.running := rfl
@[simp] theorem State.setDT_fault (s : State) (v : Byte) : (s.setDT v).fault = s.fault := rfl
@[simp] theorem State.setDT_underflowSeen (s : State) (v : Byte) : (s.setDT v).underflowSeen = s.underflowSeen := rfl
@[simp] theorem State.setDT_underflowCount (s : State) (v : Byte) : (s.setDT v).underflowCount = s.underflowCount := rfl
@[simp] theorem State.setDT_acc (s : State) (v : Byte) : (s.setDT v).acc = s.acc := rfl
@[simp] theorem State.setDT_cfg (s : State) (v : Byte) : (s.setDT v).cfg = s.cfg := rfl
@[simp] theorem State.setDT_inputs (s : State) (v : Byte) : (s.setDT v).inputs = s.inputs := rfl
@[simp] theorem State.setDT_outputs (s : State) (v : Byte) : (s.setDT v).outputs = s.outputs := rfl
@[simp] theorem State.setDT_draws (s : State) (v : Byte) : (s.setDT v).draws = s.draws := rfl

/-! ### setST -/

@[simp] theorem State.setST_mem (s : State) (v : Byte) : (s.setST v).mem = s.mem := rfl
@[simp] theorem State.setST_V (s : State) (v : Byte) : (s.setST v).V = s.V := rfl
@[simp] theorem State.setST_I (s : State) (v : Byte) : (s.setST v).I = s.I := rfl
@[simp] theorem State.setST_pc (s : State) (v : Byte) : (s.setST v).pc = s.pc := rfl
@[simp] theorem State.setST_stack (s : State) (v : Byte) : (s.setST v).stack = s.stack := rfl
@[simp] theorem State.setST_DT (s : State) (v : Byte) : (s.setST v).DT = s.DT := rfl
@[simp] theorem State.setST_ST (s : State) (v : Byte) : (s.setST v).ST = v := rfl
@[simp] theorem State.setST_disp (s : State) (v : Byte) : (s.setST v).disp = s.disp := rfl
@[simp] theorem State.setST_mode (s : State) (v : Byte) : (s.setST v).mode = s.mode := rfl
@[simp] theorem State.setST_keys (s : State) (v : Byte) : (s.setST v).keys = s.keys := rfl
@[simp] theorem State.setST_waitReg (s : State) (v : Byte) : (s.setST v).waitReg = s.waitReg := rfl
@[simp] theorem State.setST_sched (s : State) (v : Byte) : (s.setST v).sched = s.sched := rfl
@[simp] theorem State.setST_pendingDraw (s : State) (v : Byte) : (s.setST v).pendingDraw = s.pendingDraw := rfl
@[simp] theorem State.setST_loaded (s : State) (v : Byte) : (s.setST v).loaded = s.loaded := rfl
@[simp] theorem State.setST_running (s : State) (v : Byte) : (s.setST v).running = s.running := rfl
@[simp] theorem State.setST_fault (s : State) (v : Byte) : (s.setST v).fault = s.fault := rfl
@[simp] theorem State.setST_underflowSeen (s : State) (v : Byte) : (s.setST v).underflowSeen = s.underflowSeen := rfl
@[simp] theorem State.setST_underflowCount (s : State) (v : Byte) : (s.setST v).underflowCount = s.underflowCount := rfl
@[simp] theorem State.setST_acc (s : State) (v : Byte) : (s.setST v).acc = s.acc := rfl
@[simp] theorem State.setST_cfg (s : State) (v : Byte) : (s.setST v).cfg = s.cfg := rfl
@[simp] theorem State.setST_inputs (s : State) (v : Byte) : (s.setST v).inputs = s.inputs := rfl
@[simp] theorem State.setST_outputs (s : State) (v : Byte) : (s.setST v).outputs = s.outputs := rfl
@[simp] theorem State.setST_draws (s : State) (v : Byte) : (s.setST v).draws = s.draws := rfl

/-! ### setDisp -/

@[simp] theorem State.setDisp_mem (s : State) (d : Display) : (s.setDisp d).mem = s.mem := rfl
@[simp] theorem State.setDisp_V (s : State) (d : Display) : (s.setDisp d).V = s.V := rfl
@[simp] theorem State.setDisp_I (s : State) (d : Display) : (s.setDisp d).I = s.I := rfl
@[simp] theorem State.setDisp_pc (s : State) (d : Display) : (s.setDisp d).pc = s.pc := rfl
@[simp] theorem State.setDisp_stack (s : State) (d : Display) : (s.setDisp d).stack = s.stack := rfl
@[simp] theorem State.setDisp_DT (s : State) (d : Display) : (s.setDisp d).DT = s.DT := rfl
@[simp] theorem State.setDisp_ST (s : State) (d : Display) : (s.setDisp d).ST = s.ST := rfl
@[simp] theorem State.setDisp_disp (s : State) (d : Display) : (s.setDisp d).disp = d := rfl
@[simp] theorem State.setDisp_mode (s : State) (d : Display) : (s.setDisp d).mode = s.mode := rfl
@[simp] theorem State.setDisp_keys (s : State) (d : Display) : (s.setDisp d).keys = s.keys := rfl
@[simp] theorem State.setDisp_waitReg (s : State) (d : Display) : (s.setDisp d).waitReg = s.waitReg := rfl
@[simp] theorem State.setDisp_sched (s : State) (d : Display) : (s.setDisp d).sched = s.sched := rfl
@[simp] theorem State.setDisp_pendingDraw (s : State) (d : Display) : (s.setDisp d).pendingDraw = s.pendingDraw := rfl
@[simp] theorem State.setDisp_loaded (s : State) (d : Display) : (s.setDisp d).loaded = s.loaded := rfl
@[simp] theorem State.setDisp_running (s : State) (d : Display) : (s.setDisp d).running = s.running := rfl
@[simp] theorem State.setDisp_fault (s : State) (d : Display) : (s.setDisp d).fault = s.fault := rfl
@[simp] theorem State.setDisp_underflowSeen (s : State) (d : Display) : (s.setDisp d).underflowSeen = s.underflowSeen := rfl
@[simp] theorem State.setDisp_underflowCount (s : State) (d : Display) : (s.setDisp d).underflowCount = s.underflowCount := rfl
@[simp] theorem State.setDisp_acc (s : State) (d : Display) : (s.setDisp d).acc = s.acc := rfl
@[simp] theorem State.setDisp_cfg (s : State) (d : Display) : (s.setDisp d).cfg = s.cfg := rfl
@[simp] theorem State.setDisp_inputs (s : State) (d : Display) : (s.setDisp d).inputs = s.inputs := rfl
@[simp] theorem State.setDisp_outputs (s : State) (d : Display) : (s.setDisp d).outputs = s.outputs := rfl
@[simp] theorem State.setDisp_draws (s : State) (d : Display) : (s.setDisp d).draws = s.draws := rfl

/-! ### setMode -/

@[simp] theorem State.setMode_mem (s : State) (m : ResMode) : (s.setMode m).mem = s.mem := rfl
@[simp] theorem State.setMode_V (s : State) (m : ResMode) : (s.setMode m).V = s.V := rfl
@[simp] theorem State.setMode_I (s : State) (m : ResMode) : (s.setMode m).I = s.I := rfl
@[simp] theorem State.setMode_pc (s : State) (m : ResMode) : (s.setMode m).pc = s.pc := rfl
@[simp] theorem State.setMode_stack (s : State) (m : ResMode) : (s.setMode m).stack = s.stack := rfl
@[simp] theorem State.setMode_DT (s : State) (m : ResMode) : (s.setMode m).DT = s.DT := rfl
@[simp] theorem State.setMode_ST (s : State) (m : ResMode) : (s.setMode m).ST = s.ST := rfl
@[simp] theorem State.setMode_disp (s : State) (m : ResMode) : (s.setMode m).disp = s.disp := rfl
@[simp] theorem State.setMode_mode (s : State) (m : ResMode) : (s.setMode m).mode = m := rfl
@[simp] theorem State.setMode_keys (s : State) (m : ResMode) : (s.setMode m).keys = s.keys := rfl
@[simp] theorem State.setMode_waitReg (s : State) (m : ResMode) : (s.setMode m).waitReg = s.waitReg := rfl
@[simp] theorem State.setMode_sched (s : State) (m : ResMode) : (s.setMode m).sched = s.sched := rfl
@[simp] theorem State.setMode_pendingDraw (s : State) (m : ResMode) : (s.setMode m).pendingDraw = s.pendingDraw := rfl
@[simp] theorem State.setMode_loaded (s : State) (m : ResMode) : (s.setMode m).loaded = s.loaded := rfl
@[simp] theorem State.setMode_running (s : State) (m : ResMode) : (s.setMode m).running = s.running := rfl
@[simp] theorem State.setMode_fault (s : State) (m : ResMode) : (s.setMode m).fault = s.fault := rfl
@[simp] theorem State.setMode_underflowSeen (s : State) (m : ResMode) : (s.setMode m).underflowSeen = s.underflowSeen := rfl
@[simp] theorem State.setMode_underflowCount (s : State) (m : ResMode) : (s.setMode m).underflowCount = s.underflowCount := rfl
@[simp] theorem State.setMode_acc (s : State) (m : ResMode) : (s.setMode m).acc = s.acc := rfl
@[simp] theorem State.setMode_cfg (s : State) (m : ResMode) : (s.setMode m).cfg = s.cfg := rfl
@[simp] theorem State.setMode_inputs (s : State) (m : ResMode) : (s.setMode m).inputs = s.inputs := rfl
@[simp] theorem State.setMode_outputs (s : State) (m : ResMode) : (s.setMode m).outputs = s.outputs := rfl
@[simp] theorem State.setMode_draws (s : State) (m : ResMode) : (s.setMode m).draws = s.draws := rfl

/-! ### setKeys -/

@[simp] theorem State.setKeys_mem (s : State) (k : Vector Bool 16) : (s.setKeys k).mem = s.mem := rfl
@[simp] theorem State.setKeys_V (s : State) (k : Vector Bool 16) : (s.setKeys k).V = s.V := rfl
@[simp] theorem State.setKeys_I (s : State) (k : Vector Bool 16) : (s.setKeys k).I = s.I := rfl
@[simp] theorem State.setKeys_pc (s : State) (k : Vector Bool 16) : (s.setKeys k).pc = s.pc := rfl
@[simp] theorem State.setKeys_stack (s : State) (k : Vector Bool 16) : (s.setKeys k).stack = s.stack := rfl
@[simp] theorem State.setKeys_DT (s : State) (k : Vector Bool 16) : (s.setKeys k).DT = s.DT := rfl
@[simp] theorem State.setKeys_ST (s : State) (k : Vector Bool 16) : (s.setKeys k).ST = s.ST := rfl
@[simp] theorem State.setKeys_disp (s : State) (k : Vector Bool 16) : (s.setKeys k).disp = s.disp := rfl
@[simp] theorem State.setKeys_mode (s : State) (k : Vector Bool 16) : (s.setKeys k).mode = s.mode := rfl
@[simp] theorem State.setKeys_keys (s : State) (k : Vector Bool 16) : (s.setKeys k).keys = k := rfl
@[simp] theorem State.setKeys_waitReg (s : State) (k : Vector Bool 16) : (s.setKeys k).waitReg = s.waitReg := rfl
@[simp] theorem State.setKeys_sched (s : State) (k : Vector Bool 16) : (s.setKeys k).sched = s.sched := rfl
@[simp] theorem State.setKeys_pendingDraw (s : State) (k : Vector Bool 16) : (s.setKeys k).pendingDraw = s.pendingDraw := rfl
@[simp] theorem State.setKeys_loaded (s : State) (k : Vector Bool 16) : (s.setKeys k).loaded = s.loaded := rfl
@[simp] theorem State.setKeys_running (s : State) (k : Vector Bool 16) : (s.setKeys k).running = s.running := rfl
@[simp] theorem State.setKeys_fault (s : State) (k : Vector Bool 16) : (s.setKeys k).fault = s.fault := rfl
@[simp] theorem State.setKeys_underflowSeen (s : State) (k : Vector Bool 16) : (s.setKeys k).underflowSeen = s.underflowSeen := rfl
@[simp] theorem State.setKeys_underflowCount (s : State) (k : Vector Bool 16) : (s.setKeys k).underflowCount = s.underflowCount := rfl
@[simp] theorem State.setKeys_acc (s : State) (k : Vector Bool 16) : (s.setKeys k).acc = s.acc := rfl
@[simp] theorem State.setKeys_cfg (s : State) (k : Vector Bool 16) : (s.setKeys k).cfg = s.cfg := rfl
@[simp] theorem State.setKeys_inputs (s : State) (k : Vector Bool 16) : (s.setKeys k).inputs = s.inputs := rfl
@[simp] theorem State.setKeys_outputs (s : State) (k : Vector Bool 16) : (s.setKeys k).outputs = s.outputs := rfl
@[simp] theorem State.setKeys_draws (s : State) (k : Vector Bool 16) : (s.setKeys k).draws = s.draws := rfl

/-! ### setWaitReg -/

@[simp] theorem State.setWaitReg_mem (s : State) (r : Option Nibble) : (s.setWaitReg r).mem = s.mem := rfl
@[simp] theorem State.setWaitReg_V (s : State) (r : Option Nibble) : (s.setWaitReg r).V = s.V := rfl
@[simp] theorem State.setWaitReg_I (s : State) (r : Option Nibble) : (s.setWaitReg r).I = s.I := rfl
@[simp] theorem State.setWaitReg_pc (s : State) (r : Option Nibble) : (s.setWaitReg r).pc = s.pc := rfl
@[simp] theorem State.setWaitReg_stack (s : State) (r : Option Nibble) : (s.setWaitReg r).stack = s.stack := rfl
@[simp] theorem State.setWaitReg_DT (s : State) (r : Option Nibble) : (s.setWaitReg r).DT = s.DT := rfl
@[simp] theorem State.setWaitReg_ST (s : State) (r : Option Nibble) : (s.setWaitReg r).ST = s.ST := rfl
@[simp] theorem State.setWaitReg_disp (s : State) (r : Option Nibble) : (s.setWaitReg r).disp = s.disp := rfl
@[simp] theorem State.setWaitReg_mode (s : State) (r : Option Nibble) : (s.setWaitReg r).mode = s.mode := rfl
@[simp] theorem State.setWaitReg_keys (s : State) (r : Option Nibble) : (s.setWaitReg r).keys = s.keys := rfl
@[simp] theorem State.setWaitReg_waitReg (s : State) (r : Option Nibble) : (s.setWaitReg r).waitReg = r := rfl
@[simp] theorem State.setWaitReg_sched (s : State) (r : Option Nibble) : (s.setWaitReg r).sched = s.sched := rfl
@[simp] theorem State.setWaitReg_pendingDraw (s : State) (r : Option Nibble) : (s.setWaitReg r).pendingDraw = s.pendingDraw := rfl
@[simp] theorem State.setWaitReg_loaded (s : State) (r : Option Nibble) : (s.setWaitReg r).loaded = s.loaded := rfl
@[simp] theorem State.setWaitReg_running (s : State) (r : Option Nibble) : (s.setWaitReg r).running = s.running := rfl
@[simp] theorem State.setWaitReg_fault (s : State) (r : Option Nibble) : (s.setWaitReg r).fault = s.fault := rfl
@[simp] theorem State.setWaitReg_underflowSeen (s : State) (r : Option Nibble) : (s.setWaitReg r).underflowSeen = s.underflowSeen := rfl
@[simp] theorem State.setWaitReg_underflowCount (s : State) (r : Option Nibble) : (s.setWaitReg r).underflowCount = s.underflowCount := rfl
@[simp] theorem State.setWaitReg_acc (s : State) (r : Option Nibble) : (s.setWaitReg r).acc = s.acc := rfl
@[simp] theorem State.setWaitReg_cfg (s : State) (r : Option Nibble) : (s.setWaitReg r).cfg = s.cfg := rfl
@[simp] theorem State.setWaitReg_inputs (s : State) (r : Option Nibble) : (s.setWaitReg r).inputs = s.inputs := rfl
@[simp] theorem State.setWaitReg_outputs (s : State) (r : Option Nibble) : (s.setWaitReg r).outputs = s.outputs := rfl
@[simp] theorem State.setWaitReg_draws (s : State) (r : Option Nibble) : (s.setWaitReg r).draws = s.draws := rfl

/-! ### setSched -/

@[simp] theorem State.setSched_mem (s : State) (m : SchedMode) : (s.setSched m).mem = s.mem := rfl
@[simp] theorem State.setSched_V (s : State) (m : SchedMode) : (s.setSched m).V = s.V := rfl
@[simp] theorem State.setSched_I (s : State) (m : SchedMode) : (s.setSched m).I = s.I := rfl
@[simp] theorem State.setSched_pc (s : State) (m : SchedMode) : (s.setSched m).pc = s.pc := rfl
@[simp] theorem State.setSched_stack (s : State) (m : SchedMode) : (s.setSched m).stack = s.stack := rfl
@[simp] theorem State.setSched_DT (s : State) (m : SchedMode) : (s.setSched m).DT = s.DT := rfl
@[simp] theorem State.setSched_ST (s : State) (m : SchedMode) : (s.setSched m).ST = s.ST := rfl
@[simp] theorem State.setSched_disp (s : State) (m : SchedMode) : (s.setSched m).disp = s.disp := rfl
@[simp] theorem State.setSched_mode (s : State) (m : SchedMode) : (s.setSched m).mode = s.mode := rfl
@[simp] theorem State.setSched_keys (s : State) (m : SchedMode) : (s.setSched m).keys = s.keys := rfl
@[simp] theorem State.setSched_waitReg (s : State) (m : SchedMode) : (s.setSched m).waitReg = s.waitReg := rfl
@[simp] theorem State.setSched_sched (s : State) (m : SchedMode) : (s.setSched m).sched = m := rfl
@[simp] theorem State.setSched_pendingDraw (s : State) (m : SchedMode) : (s.setSched m).pendingDraw = s.pendingDraw := rfl
@[simp] theorem State.setSched_loaded (s : State) (m : SchedMode) : (s.setSched m).loaded = s.loaded := rfl
@[simp] theorem State.setSched_running (s : State) (m : SchedMode) : (s.setSched m).running = s.running := rfl
@[simp] theorem State.setSched_fault (s : State) (m : SchedMode) : (s.setSched m).fault = s.fault := rfl
@[simp] theorem State.setSched_underflowSeen (s : State) (m : SchedMode) : (s.setSched m).underflowSeen = s.underflowSeen := rfl
@[simp] theorem State.setSched_underflowCount (s : State) (m : SchedMode) : (s.setSched m).underflowCount = s.underflowCount := rfl
@[simp] theorem State.setSched_acc (s : State) (m : SchedMode) : (s.setSched m).acc = s.acc := rfl
@[simp] theorem State.setSched_cfg (s : State) (m : SchedMode) : (s.setSched m).cfg = s.cfg := rfl
@[simp] theorem State.setSched_inputs (s : State) (m : SchedMode) : (s.setSched m).inputs = s.inputs := rfl
@[simp] theorem State.setSched_outputs (s : State) (m : SchedMode) : (s.setSched m).outputs = s.outputs := rfl
@[simp] theorem State.setSched_draws (s : State) (m : SchedMode) : (s.setSched m).draws = s.draws := rfl

/-! ### setPendingDraw -/

@[simp] theorem State.setPendingDraw_mem (s : State) (d : Option DrawRequest) : (s.setPendingDraw d).mem = s.mem := rfl
@[simp] theorem State.setPendingDraw_V (s : State) (d : Option DrawRequest) : (s.setPendingDraw d).V = s.V := rfl
@[simp] theorem State.setPendingDraw_I (s : State) (d : Option DrawRequest) : (s.setPendingDraw d).I = s.I := rfl
@[simp] theorem State.setPendingDraw_pc (s : State) (d : Option DrawRequest) : (s.setPendingDraw d).pc = s.pc := rfl
@[simp] theorem State.setPendingDraw_stack (s : State) (d : Option DrawRequest) : (s.setPendingDraw d).stack = s.stack := rfl
@[simp] theorem State.setPendingDraw_DT (s : State) (d : Option DrawRequest) : (s.setPendingDraw d).DT = s.DT := rfl
@[simp] theorem State.setPendingDraw_ST (s : State) (d : Option DrawRequest) : (s.setPendingDraw d).ST = s.ST := rfl
@[simp] theorem State.setPendingDraw_disp (s : State) (d : Option DrawRequest) : (s.setPendingDraw d).disp = s.disp := rfl
@[simp] theorem State.setPendingDraw_mode (s : State) (d : Option DrawRequest) : (s.setPendingDraw d).mode = s.mode := rfl
@[simp] theorem State.setPendingDraw_keys (s : State) (d : Option DrawRequest) : (s.setPendingDraw d).keys = s.keys := rfl
@[simp] theorem State.setPendingDraw_waitReg (s : State) (d : Option DrawRequest) : (s.setPendingDraw d).waitReg = s.waitReg := rfl
@[simp] theorem State.setPendingDraw_sched (s : State) (d : Option DrawRequest) : (s.setPendingDraw d).sched = s.sched := rfl
@[simp] theorem State.setPendingDraw_pendingDraw (s : State) (d : Option DrawRequest) : (s.setPendingDraw d).pendingDraw = d := rfl
@[simp] theorem State.setPendingDraw_loaded (s : State) (d : Option DrawRequest) : (s.setPendingDraw d).loaded = s.loaded := rfl
@[simp] theorem State.setPendingDraw_running (s : State) (d : Option DrawRequest) : (s.setPendingDraw d).running = s.running := rfl
@[simp] theorem State.setPendingDraw_fault (s : State) (d : Option DrawRequest) : (s.setPendingDraw d).fault = s.fault := rfl
@[simp] theorem State.setPendingDraw_underflowSeen (s : State) (d : Option DrawRequest) : (s.setPendingDraw d).underflowSeen = s.underflowSeen := rfl
@[simp] theorem State.setPendingDraw_underflowCount (s : State) (d : Option DrawRequest) : (s.setPendingDraw d).underflowCount = s.underflowCount := rfl
@[simp] theorem State.setPendingDraw_acc (s : State) (d : Option DrawRequest) : (s.setPendingDraw d).acc = s.acc := rfl
@[simp] theorem State.setPendingDraw_cfg (s : State) (d : Option DrawRequest) : (s.setPendingDraw d).cfg = s.cfg := rfl
@[simp] theorem State.setPendingDraw_inputs (s : State) (d : Option DrawRequest) : (s.setPendingDraw d).inputs = s.inputs := rfl
@[simp] theorem State.setPendingDraw_outputs (s : State) (d : Option DrawRequest) : (s.setPendingDraw d).outputs = s.outputs := rfl
@[simp] theorem State.setPendingDraw_draws (s : State) (d : Option DrawRequest) : (s.setPendingDraw d).draws = s.draws := rfl

/-! ### setRunning -/

@[simp] theorem State.setRunning_mem (s : State) (b : Bool) : (s.setRunning b).mem = s.mem := rfl
@[simp] theorem State.setRunning_V (s : State) (b : Bool) : (s.setRunning b).V = s.V := rfl
@[simp] theorem State.setRunning_I (s : State) (b : Bool) : (s.setRunning b).I = s.I := rfl
@[simp] theorem State.setRunning_pc (s : State) (b : Bool) : (s.setRunning b).pc = s.pc := rfl
@[simp] theorem State.setRunning_stack (s : State) (b : Bool) : (s.setRunning b).stack = s.stack := rfl
@[simp] theorem State.setRunning_DT (s : State) (b : Bool) : (s.setRunning b).DT = s.DT := rfl
@[simp] theorem State.setRunning_ST (s : State) (b : Bool) : (s.setRunning b).ST = s.ST := rfl
@[simp] theorem State.setRunning_disp (s : State) (b : Bool) : (s.setRunning b).disp = s.disp := rfl
@[simp] theorem State.setRunning_mode (s : State) (b : Bool) : (s.setRunning b).mode = s.mode := rfl
@[simp] theorem State.setRunning_keys (s : State) (b : Bool) : (s.setRunning b).keys = s.keys := rfl
@[simp] theorem State.setRunning_waitReg (s : State) (b : Bool) : (s.setRunning b).waitReg = s.waitReg := rfl
@[simp] theorem State.setRunning_sched (s : State) (b : Bool) : (s.setRunning b).sched = s.sched := rfl
@[simp] theorem State.setRunning_pendingDraw (s : State) (b : Bool) : (s.setRunning b).pendingDraw = s.pendingDraw := rfl
@[simp] theorem State.setRunning_loaded (s : State) (b : Bool) : (s.setRunning b).loaded = s.loaded := rfl
@[simp] theorem State.setRunning_running (s : State) (b : Bool) : (s.setRunning b).running = b := rfl
@[simp] theorem State.setRunning_fault (s : State) (b : Bool) : (s.setRunning b).fault = s.fault := rfl
@[simp] theorem State.setRunning_underflowSeen (s : State) (b : Bool) : (s.setRunning b).underflowSeen = s.underflowSeen := rfl
@[simp] theorem State.setRunning_underflowCount (s : State) (b : Bool) : (s.setRunning b).underflowCount = s.underflowCount := rfl
@[simp] theorem State.setRunning_acc (s : State) (b : Bool) : (s.setRunning b).acc = s.acc := rfl
@[simp] theorem State.setRunning_cfg (s : State) (b : Bool) : (s.setRunning b).cfg = s.cfg := rfl
@[simp] theorem State.setRunning_inputs (s : State) (b : Bool) : (s.setRunning b).inputs = s.inputs := rfl
@[simp] theorem State.setRunning_outputs (s : State) (b : Bool) : (s.setRunning b).outputs = s.outputs := rfl
@[simp] theorem State.setRunning_draws (s : State) (b : Bool) : (s.setRunning b).draws = s.draws := rfl

/-! ### setFault -/

@[simp] theorem State.setFault_mem (s : State) (f : Option FatalRecord) : (s.setFault f).mem = s.mem := rfl
@[simp] theorem State.setFault_V (s : State) (f : Option FatalRecord) : (s.setFault f).V = s.V := rfl
@[simp] theorem State.setFault_I (s : State) (f : Option FatalRecord) : (s.setFault f).I = s.I := rfl
@[simp] theorem State.setFault_pc (s : State) (f : Option FatalRecord) : (s.setFault f).pc = s.pc := rfl
@[simp] theorem State.setFault_stack (s : State) (f : Option FatalRecord) : (s.setFault f).stack = s.stack := rfl
@[simp] theorem State.setFault_DT (s : State) (f : Option FatalRecord) : (s.setFault f).DT = s.DT := rfl
@[simp] theorem State.setFault_ST (s : State) (f : Option FatalRecord) : (s.setFault f).ST = s.ST := rfl
@[simp] theorem State.setFault_disp (s : State) (f : Option FatalRecord) : (s.setFault f).disp = s.disp := rfl
@[simp] theorem State.setFault_mode (s : State) (f : Option FatalRecord) : (s.setFault f).mode = s.mode := rfl
@[simp] theorem State.setFault_keys (s : State) (f : Option FatalRecord) : (s.setFault f).keys = s.keys := rfl
@[simp] theorem State.setFault_waitReg (s : State) (f : Option FatalRecord) : (s.setFault f).waitReg = s.waitReg := rfl
@[simp] theorem State.setFault_sched (s : State) (f : Option FatalRecord) : (s.setFault f).sched = s.sched := rfl
@[simp] theorem State.setFault_pendingDraw (s : State) (f : Option FatalRecord) : (s.setFault f).pendingDraw = s.pendingDraw := rfl
@[simp] theorem State.setFault_loaded (s : State) (f : Option FatalRecord) : (s.setFault f).loaded = s.loaded := rfl
@[simp] theorem State.setFault_running (s : State) (f : Option FatalRecord) : (s.setFault f).running = s.running := rfl
@[simp] theorem State.setFault_fault (s : State) (f : Option FatalRecord) : (s.setFault f).fault = f := rfl
@[simp] theorem State.setFault_underflowSeen (s : State) (f : Option FatalRecord) : (s.setFault f).underflowSeen = s.underflowSeen := rfl
@[simp] theorem State.setFault_underflowCount (s : State) (f : Option FatalRecord) : (s.setFault f).underflowCount = s.underflowCount := rfl
@[simp] theorem State.setFault_acc (s : State) (f : Option FatalRecord) : (s.setFault f).acc = s.acc := rfl
@[simp] theorem State.setFault_cfg (s : State) (f : Option FatalRecord) : (s.setFault f).cfg = s.cfg := rfl
@[simp] theorem State.setFault_inputs (s : State) (f : Option FatalRecord) : (s.setFault f).inputs = s.inputs := rfl
@[simp] theorem State.setFault_outputs (s : State) (f : Option FatalRecord) : (s.setFault f).outputs = s.outputs := rfl
@[simp] theorem State.setFault_draws (s : State) (f : Option FatalRecord) : (s.setFault f).draws = s.draws := rfl

/-! ### setAcc -/

@[simp] theorem State.setAcc_mem (s : State) (n : Nat) : (s.setAcc n).mem = s.mem := rfl
@[simp] theorem State.setAcc_V (s : State) (n : Nat) : (s.setAcc n).V = s.V := rfl
@[simp] theorem State.setAcc_I (s : State) (n : Nat) : (s.setAcc n).I = s.I := rfl
@[simp] theorem State.setAcc_pc (s : State) (n : Nat) : (s.setAcc n).pc = s.pc := rfl
@[simp] theorem State.setAcc_stack (s : State) (n : Nat) : (s.setAcc n).stack = s.stack := rfl
@[simp] theorem State.setAcc_DT (s : State) (n : Nat) : (s.setAcc n).DT = s.DT := rfl
@[simp] theorem State.setAcc_ST (s : State) (n : Nat) : (s.setAcc n).ST = s.ST := rfl
@[simp] theorem State.setAcc_disp (s : State) (n : Nat) : (s.setAcc n).disp = s.disp := rfl
@[simp] theorem State.setAcc_mode (s : State) (n : Nat) : (s.setAcc n).mode = s.mode := rfl
@[simp] theorem State.setAcc_keys (s : State) (n : Nat) : (s.setAcc n).keys = s.keys := rfl
@[simp] theorem State.setAcc_waitReg (s : State) (n : Nat) : (s.setAcc n).waitReg = s.waitReg := rfl
@[simp] theorem State.setAcc_sched (s : State) (n : Nat) : (s.setAcc n).sched = s.sched := rfl
@[simp] theorem State.setAcc_pendingDraw (s : State) (n : Nat) : (s.setAcc n).pendingDraw = s.pendingDraw := rfl
@[simp] theorem State.setAcc_loaded (s : State) (n : Nat) : (s.setAcc n).loaded = s.loaded := rfl
@[simp] theorem State.setAcc_running (s : State) (n : Nat) : (s.setAcc n).running = s.running := rfl
@[simp] theorem State.setAcc_fault (s : State) (n : Nat) : (s.setAcc n).fault = s.fault := rfl
@[simp] theorem State.setAcc_underflowSeen (s : State) (n : Nat) : (s.setAcc n).underflowSeen = s.underflowSeen := rfl
@[simp] theorem State.setAcc_underflowCount (s : State) (n : Nat) : (s.setAcc n).underflowCount = s.underflowCount := rfl
@[simp] theorem State.setAcc_acc (s : State) (n : Nat) : (s.setAcc n).acc = n := rfl
@[simp] theorem State.setAcc_cfg (s : State) (n : Nat) : (s.setAcc n).cfg = s.cfg := rfl
@[simp] theorem State.setAcc_inputs (s : State) (n : Nat) : (s.setAcc n).inputs = s.inputs := rfl
@[simp] theorem State.setAcc_outputs (s : State) (n : Nat) : (s.setAcc n).outputs = s.outputs := rfl
@[simp] theorem State.setAcc_draws (s : State) (n : Nat) : (s.setAcc n).draws = s.draws := rfl

/-! ### setInputs -/

@[simp] theorem State.setInputs_mem (s : State) (l : List Input) : (s.setInputs l).mem = s.mem := rfl
@[simp] theorem State.setInputs_V (s : State) (l : List Input) : (s.setInputs l).V = s.V := rfl
@[simp] theorem State.setInputs_I (s : State) (l : List Input) : (s.setInputs l).I = s.I := rfl
@[simp] theorem State.setInputs_pc (s : State) (l : List Input) : (s.setInputs l).pc = s.pc := rfl
@[simp] theorem State.setInputs_stack (s : State) (l : List Input) : (s.setInputs l).stack = s.stack := rfl
@[simp] theorem State.setInputs_DT (s : State) (l : List Input) : (s.setInputs l).DT = s.DT := rfl
@[simp] theorem State.setInputs_ST (s : State) (l : List Input) : (s.setInputs l).ST = s.ST := rfl
@[simp] theorem State.setInputs_disp (s : State) (l : List Input) : (s.setInputs l).disp = s.disp := rfl
@[simp] theorem State.setInputs_mode (s : State) (l : List Input) : (s.setInputs l).mode = s.mode := rfl
@[simp] theorem State.setInputs_keys (s : State) (l : List Input) : (s.setInputs l).keys = s.keys := rfl
@[simp] theorem State.setInputs_waitReg (s : State) (l : List Input) : (s.setInputs l).waitReg = s.waitReg := rfl
@[simp] theorem State.setInputs_sched (s : State) (l : List Input) : (s.setInputs l).sched = s.sched := rfl
@[simp] theorem State.setInputs_pendingDraw (s : State) (l : List Input) : (s.setInputs l).pendingDraw = s.pendingDraw := rfl
@[simp] theorem State.setInputs_loaded (s : State) (l : List Input) : (s.setInputs l).loaded = s.loaded := rfl
@[simp] theorem State.setInputs_running (s : State) (l : List Input) : (s.setInputs l).running = s.running := rfl
@[simp] theorem State.setInputs_fault (s : State) (l : List Input) : (s.setInputs l).fault = s.fault := rfl
@[simp] theorem State.setInputs_underflowSeen (s : State) (l : List Input) : (s.setInputs l).underflowSeen = s.underflowSeen := rfl
@[simp] theorem State.setInputs_underflowCount (s : State) (l : List Input) : (s.setInputs l).underflowCount = s.underflowCount := rfl
@[simp] theorem State.setInputs_acc (s : State) (l : List Input) : (s.setInputs l).acc = s.acc := rfl
@[simp] theorem State.setInputs_cfg (s : State) (l : List Input) : (s.setInputs l).cfg = s.cfg := rfl
@[simp] theorem State.setInputs_inputs (s : State) (l : List Input) : (s.setInputs l).inputs = l := rfl
@[simp] theorem State.setInputs_outputs (s : State) (l : List Input) : (s.setInputs l).outputs = s.outputs := rfl
@[simp] theorem State.setInputs_draws (s : State) (l : List Input) : (s.setInputs l).draws = s.draws := rfl

/-! ### setDraws -/

@[simp] theorem State.setDraws_mem (s : State) (n : Nat) : (s.setDraws n).mem = s.mem := rfl
@[simp] theorem State.setDraws_V (s : State) (n : Nat) : (s.setDraws n).V = s.V := rfl
@[simp] theorem State.setDraws_I (s : State) (n : Nat) : (s.setDraws n).I = s.I := rfl
@[simp] theorem State.setDraws_pc (s : State) (n : Nat) : (s.setDraws n).pc = s.pc := rfl
@[simp] theorem State.setDraws_stack (s : State) (n : Nat) : (s.setDraws n).stack = s.stack := rfl
@[simp] theorem State.setDraws_DT (s : State) (n : Nat) : (s.setDraws n).DT = s.DT := rfl
@[simp] theorem State.setDraws_ST (s : State) (n : Nat) : (s.setDraws n).ST = s.ST := rfl
@[simp] theorem State.setDraws_disp (s : State) (n : Nat) : (s.setDraws n).disp = s.disp := rfl
@[simp] theorem State.setDraws_mode (s : State) (n : Nat) : (s.setDraws n).mode = s.mode := rfl
@[simp] theorem State.setDraws_keys (s : State) (n : Nat) : (s.setDraws n).keys = s.keys := rfl
@[simp] theorem State.setDraws_waitReg (s : State) (n : Nat) : (s.setDraws n).waitReg = s.waitReg := rfl
@[simp] theorem State.setDraws_sched (s : State) (n : Nat) : (s.setDraws n).sched = s.sched := rfl
@[simp] theorem State.setDraws_pendingDraw (s : State) (n : Nat) : (s.setDraws n).pendingDraw = s.pendingDraw := rfl
@[simp] theorem State.setDraws_loaded (s : State) (n : Nat) : (s.setDraws n).loaded = s.loaded := rfl
@[simp] theorem State.setDraws_running (s : State) (n : Nat) : (s.setDraws n).running = s.running := rfl
@[simp] theorem State.setDraws_fault (s : State) (n : Nat) : (s.setDraws n).fault = s.fault := rfl
@[simp] theorem State.setDraws_underflowSeen (s : State) (n : Nat) : (s.setDraws n).underflowSeen = s.underflowSeen := rfl
@[simp] theorem State.setDraws_underflowCount (s : State) (n : Nat) : (s.setDraws n).underflowCount = s.underflowCount := rfl
@[simp] theorem State.setDraws_acc (s : State) (n : Nat) : (s.setDraws n).acc = s.acc := rfl
@[simp] theorem State.setDraws_cfg (s : State) (n : Nat) : (s.setDraws n).cfg = s.cfg := rfl
@[simp] theorem State.setDraws_inputs (s : State) (n : Nat) : (s.setDraws n).inputs = s.inputs := rfl
@[simp] theorem State.setDraws_outputs (s : State) (n : Nat) : (s.setDraws n).outputs = s.outputs := rfl
@[simp] theorem State.setDraws_draws (s : State) (n : Nat) : (s.setDraws n).draws = n := rfl

/-! ### emit -/

@[simp] theorem State.emit_mem (s : State) (o : Output) : (s.emit o).mem = s.mem := rfl
@[simp] theorem State.emit_V (s : State) (o : Output) : (s.emit o).V = s.V := rfl
@[simp] theorem State.emit_I (s : State) (o : Output) : (s.emit o).I = s.I := rfl
@[simp] theorem State.emit_pc (s : State) (o : Output) : (s.emit o).pc = s.pc := rfl
@[simp] theorem State.emit_stack (s : State) (o : Output) : (s.emit o).stack = s.stack := rfl
@[simp] theorem State.emit_DT (s : State) (o : Output) : (s.emit o).DT = s.DT := rfl
@[simp] theorem State.emit_ST (s : State) (o : Output) : (s.emit o).ST = s.ST := rfl
@[simp] theorem State.emit_disp (s : State) (o : Output) : (s.emit o).disp = s.disp := rfl
@[simp] theorem State.emit_mode (s : State) (o : Output) : (s.emit o).mode = s.mode := rfl
@[simp] theorem State.emit_keys (s : State) (o : Output) : (s.emit o).keys = s.keys := rfl
@[simp] theorem State.emit_waitReg (s : State) (o : Output) : (s.emit o).waitReg = s.waitReg := rfl
@[simp] theorem State.emit_sched (s : State) (o : Output) : (s.emit o).sched = s.sched := rfl
@[simp] theorem State.emit_pendingDraw (s : State) (o : Output) : (s.emit o).pendingDraw = s.pendingDraw := rfl
@[simp] theorem State.emit_loaded (s : State) (o : Output) : (s.emit o).loaded = s.loaded := rfl
@[simp] theorem State.emit_running (s : State) (o : Output) : (s.emit o).running = s.running := rfl
@[simp] theorem State.emit_fault (s : State) (o : Output) : (s.emit o).fault = s.fault := rfl
@[simp] theorem State.emit_underflowSeen (s : State) (o : Output) : (s.emit o).underflowSeen = s.underflowSeen := rfl
@[simp] theorem State.emit_underflowCount (s : State) (o : Output) : (s.emit o).underflowCount = s.underflowCount := rfl
@[simp] theorem State.emit_acc (s : State) (o : Output) : (s.emit o).acc = s.acc := rfl
@[simp] theorem State.emit_cfg (s : State) (o : Output) : (s.emit o).cfg = s.cfg := rfl
@[simp] theorem State.emit_inputs (s : State) (o : Output) : (s.emit o).inputs = s.inputs := rfl
@[simp] theorem State.emit_outputs (s : State) (o : Output) : (s.emit o).outputs = o :: s.outputs := rfl
@[simp] theorem State.emit_draws (s : State) (o : Output) : (s.emit o).draws = s.draws := rfl

/-! ### setV -/

@[simp] theorem State.setV_mem (s : State) (x : Nibble) (v : Byte) : (s.setV x v).mem = s.mem := rfl
@[simp] theorem State.setV_I (s : State) (x : Nibble) (v : Byte) : (s.setV x v).I = s.I := rfl
@[simp] theorem State.setV_pc (s : State) (x : Nibble) (v : Byte) : (s.setV x v).pc = s.pc := rfl
@[simp] theorem State.setV_stack (s : State) (x : Nibble) (v : Byte) : (s.setV x v).stack = s.stack := rfl
@[simp] theorem State.setV_DT (s : State) (x : Nibble) (v : Byte) : (s.setV x v).DT = s.DT := rfl
@[simp] theorem State.setV_ST (s : State) (x : Nibble) (v : Byte) : (s.setV x v).ST = s.ST := rfl
@[simp] theorem State.setV_disp (s : State) (x : Nibble) (v : Byte) : (s.setV x v).disp = s.disp := rfl
@[simp] theorem State.setV_mode (s : State) (x : Nibble) (v : Byte) : (s.setV x v).mode = s.mode := rfl
@[simp] theorem State.setV_keys (s : State) (x : Nibble) (v : Byte) : (s.setV x v).keys = s.keys := rfl
@[simp] theorem State.setV_waitReg (s : State) (x : Nibble) (v : Byte) : (s.setV x v).waitReg = s.waitReg := rfl
@[simp] theorem State.setV_sched (s : State) (x : Nibble) (v : Byte) : (s.setV x v).sched = s.sched := rfl
@[simp] theorem State.setV_pendingDraw (s : State) (x : Nibble) (v : Byte) : (s.setV x v).pendingDraw = s.pendingDraw := rfl
@[simp] theorem State.setV_loaded (s : State) (x : Nibble) (v : Byte) : (s.setV x v).loaded = s.loaded := rfl
@[simp] theorem State.setV_running (s : State) (x : Nibble) (v : Byte) : (s.setV x v).running = s.running := rfl
@[simp] theorem State.setV_fault (s : State) (x : Nibble) (v : Byte) : (s.setV x v).fault = s.fault := rfl
@[simp] theorem State.setV_underflowSeen (s : State) (x : Nibble) (v : Byte) : (s.setV x v).underflowSeen = s.underflowSeen := rfl
@[simp] theorem State.setV_underflowCount (s : State) (x : Nibble) (v : Byte) : (s.setV x v).underflowCount = s.underflowCount := rfl
@[simp] theorem State.setV_acc (s : State) (x : Nibble) (v : Byte) : (s.setV x v).acc = s.acc := rfl
@[simp] theorem State.setV_cfg (s : State) (x : Nibble) (v : Byte) : (s.setV x v).cfg = s.cfg := rfl
@[simp] theorem State.setV_inputs (s : State) (x : Nibble) (v : Byte) : (s.setV x v).inputs = s.inputs := rfl
@[simp] theorem State.setV_outputs (s : State) (x : Nibble) (v : Byte) : (s.setV x v).outputs = s.outputs := rfl
@[simp] theorem State.setV_draws (s : State) (x : Nibble) (v : Byte) : (s.setV x v).draws = s.draws := rfl

/-- Reading a register after a write. -/
@[simp] theorem State.getV_setV (s : State) (x y : Nibble) (v : Byte) :
    (s.setV x v).getV y = if y = x then v else s.getV y := by
  simp [State.getV, State.setV, Vector.getElem_set, BitVec.toNat_inj, eq_comm]

/-! ### Registers under the other updates -/

@[simp] theorem State.setMem_getV (s : State) (m : Memory) (x : Nibble) : (s.setMem m).getV x = s.getV x := rfl
@[simp] theorem State.setI_getV (s : State) (a : Addr) (x : Nibble) : (s.setI a).getV x = s.getV x := rfl
@[simp] theorem State.setPc_getV (s : State) (a : Addr) (x : Nibble) : (s.setPc a).getV x = s.getV x := rfl
@[simp] theorem State.setStack_getV (s : State) (l : List Addr) (x : Nibble) : (s.setStack l).getV x = s.getV x := rfl
@[simp] theorem State.setDT_getV (s : State) (v : Byte) (x : Nibble) : (s.setDT v).getV x = s.getV x := rfl
@[simp] theorem State.setST_getV (s : State) (v : Byte) (x : Nibble) : (s.setST v).getV x = s.getV x := rfl
@[simp] theorem State.setDisp_getV (s : State) (d : Display) (x : Nibble) : (s.setDisp d).getV x = s.getV x := rfl
@[simp] theorem State.setMode_getV (s : State) (m : ResMode) (x : Nibble) : (s.setMode m).getV x = s.getV x := rfl
@[simp] theorem State.setKeys_getV (s : State) (k : Vector Bool 16) (x : Nibble) : (s.setKeys k).getV x = s.getV x := rfl
@[simp] theorem State.setWaitReg_getV (s : State) (r : Option Nibble) (x : Nibble) : (s.setWaitReg r).getV x = s.getV x := rfl
@[simp] theorem State.setSched_getV (s : State) (m : SchedMode) (x : Nibble) : (s.setSched m).getV x = s.getV x := rfl
@[simp] theorem State.setPendingDraw_getV (s : State) (d : Option DrawRequest) (x : Nibble) : (s.setPendingDraw d).getV x = s.getV x := rfl
@[simp] theorem State.setRunning_getV (s : State) (b : Bool) (x : Nibble) : (s.setRunning b).getV x = s.getV x := rfl
@[simp] theorem State.setFault_getV (s : State) (f : Option FatalRecord) (x : Nibble) : (s.setFault f).getV x = s.getV x := rfl
@[simp] theorem State.setAcc_getV (s : State) (n : Nat) (x : Nibble) : (s.setAcc n).getV x = s.getV x := rfl
@[simp] theorem State.setInputs_getV (s : State) (l : List Input) (x : Nibble) : (s.setInputs l).getV x = s.getV x := rfl
@[simp] theorem State.setDraws_getV (s : State) (n : Nat) (x : Nibble) : (s.setDraws n).getV x = s.getV x := rfl
@[simp] theorem State.emit_getV (s : State) (o : Output) (x : Nibble) : (s.emit o).getV x = s.getV x := rfl

/-! ### advancePc, push, drawn, writeByte -/

@[simp] theorem State.advancePc_mem (s : State) : (s.advancePc).mem = s.mem := rfl
@[simp] theorem State.advancePc_V (s : State) : (s.advancePc).V = s.V := rfl
@[simp] theorem State.advancePc_I (s : State) : (s.advancePc).I = s.I := rfl
@[simp] theorem State.advancePc_pc (s : State) : (s.advancePc).pc = s.pc + 2 := rfl
@[simp] theorem State.advancePc_stack (s : State) : (s.advancePc).stack = s.stack := rfl
@[simp] theorem State.advancePc_DT (s : State) : (s.advancePc).DT = s.DT := rfl
@[simp] theorem State.advancePc_ST (s : State) : (s.advancePc).ST = s.ST := rfl
@[simp] theorem State.advancePc_disp (s : State) : (s.advancePc).disp = s.disp := rfl
@[simp] theorem State.advancePc_mode (s : State) : (s.advancePc).mode = s.mode := rfl
@[simp] theorem State.advancePc_keys (s : State) : (s.advancePc).keys = s.keys := rfl
@[simp] theorem State.advancePc_waitReg (s : State) : (s.advancePc).waitReg = s.waitReg := rfl
@[simp] theorem State.advancePc_sched (s : State) : (s.advancePc).sched = s.sched := rfl
@[simp] theorem State.advancePc_pendingDraw (s : State) : (s.advancePc).pendingDraw = s.pendingDraw := rfl
@[simp] theorem State.advancePc_loaded (s : State) : (s.advancePc).loaded = s.loaded := rfl
@[simp] theorem State.advancePc_running (s : State) : (s.advancePc).running = s.running := rfl
@[simp] theorem State.advancePc_fault (s : State) : (s.advancePc).fault = s.fault := rfl
@[simp] theorem State.advancePc_underflowSeen (s : State) : (s.advancePc).underflowSeen = s.underflowSeen := rfl
@[simp] theorem State.advancePc_underflowCount (s : State) : (s.advancePc).underflowCount = s.underflowCount := rfl
@[simp] theorem State.advancePc_acc (s : State) : (s.advancePc).acc = s.acc := rfl
@[simp] theorem State.advancePc_cfg (s : State) : (s.advancePc).cfg = s.cfg := rfl
@[simp] theorem State.advancePc_inputs (s : State) : (s.advancePc).inputs = s.inputs := rfl
@[simp] theorem State.advancePc_outputs (s : State) : (s.advancePc).outputs = s.outputs := rfl
@[simp] theorem State.advancePc_draws (s : State) : (s.advancePc).draws = s.draws := rfl
@[simp] theorem State.advancePc_getV (s : State) (x : Nibble) : (s.advancePc).getV x = s.getV x := rfl

@[simp] theorem State.push_mem (s : State) (a : Addr) : (s.push a).mem = s.mem := rfl
@[simp] theorem State.push_V (s : State) (a : Addr) : (s.push a).V = s.V := rfl
@[simp] theorem State.push_I (s : State) (a : Addr) : (s.push a).I = s.I := rfl
@[simp] theorem State.push_pc (s : State) (a : Addr) : (s.push a).pc = s.pc := rfl
@[simp] theorem State.push_stack (s : State) (a : Addr) : (s.push a).stack = a :: s.stack := rfl
@[simp] theorem State.push_DT (s : State) (a : Addr) : (s.push a).DT = s.DT := rfl
@[simp] theorem State.push_ST (s : State) (a : Addr) : (s.push a).ST = s.ST := rfl
@[simp] theorem State.push_disp (s : State) (a : Addr) : (s.push a).disp = s.disp := rfl
@[simp] theorem State.push_mode (s : State) (a : Addr) : (s.push a).mode = s.mode := rfl
@[simp] theorem State.push_keys (s : State) (a : Addr) : (s.push a).keys = s.keys := rfl
@[simp] theorem State.push_waitReg (s : State) (a : Addr) : (s.push a).waitReg = s.waitReg := rfl
@[simp] theorem State.push_sched (s : State) (a : Addr) : (s.push a).sched = s.sched := rfl
@[simp] theorem State.push_pendingDraw (s : State) (a : Addr) : (s.push a).pendingDraw = s.pendingDraw := rfl
@[simp] theorem State.push_loaded (s : State) (a : Addr) : (s.push a).loaded = s.loaded := rfl
@[simp] theorem State.push_running (s : State) (a : Addr) : (s.push a).running = s.running := rfl
@[simp] theorem State.push_fault (s : State) (a : Addr) : (s.push a).fault = s.fault := rfl
@[simp] theorem State.push_underflowSeen (s : State) (a : Addr) : (s.push a).underflowSeen = s.underflowSeen := rfl
@[simp] theorem State.push_underflowCount (s : State) (a : Addr) : (s.push a).underflowCount = s.underflowCount := rfl
@[simp] theorem State.push_acc (s : State) (a : Addr) : (s.push a).acc = s.acc := rfl
@[simp] theorem State.push_cfg (s : State) (a : Addr) : (s.push a).cfg = s.cfg := rfl
@[simp] theorem State.push_inputs (s : State) (a : Addr) : (s.push a).inputs = s.inputs := rfl
@[simp] theorem State.push_outputs (s : State) (a : Addr) : (s.push a).outputs = s.outputs := rfl
@[simp] theorem State.push_draws (s : State) (a : Addr) : (s.push a).draws = s.draws := rfl
@[simp] theorem State.push_getV (s : State) (a : Addr) (x : Nibble) : (s.push a).getV x = s.getV x := rfl

@[simp] theorem State.drawn_mem (s : State) : (s.drawn).mem = s.mem := rfl
@[simp] theorem State.drawn_V (s : State) : (s.drawn).V = s.V := rfl
@[simp] theorem State.drawn_I (s : State) : (s.drawn).I = s.I := rfl
@[simp] theorem State.drawn_pc (s : State) : (s.drawn).pc = s.pc := rfl
@[simp] theorem State.drawn_stack (s : State) : (s.drawn).stack = s.stack := rfl
@[simp] theorem State.drawn_DT (s : State) : (s.drawn).DT = s.DT := rfl
@[simp] theorem State.drawn_ST (s : State) : (s.drawn).ST = s.ST := rfl
@[simp] theorem State.drawn_disp (s : State) : (s.drawn).disp = s.disp := rfl
@[simp] theorem State.drawn_mode (s : State) : (s.drawn).mode = s.mode := rfl
@[simp] theorem State.drawn_keys (s : State) : (s.drawn).keys = s.keys := rfl
@[simp] theorem State.drawn_waitReg (s : State) : (s.drawn).waitReg = s.waitReg := rfl
@[simp] theorem State.drawn_sched (s : State) : (s.drawn).sched = s.sched := rfl
@[simp] theorem State.drawn_pendingDraw (s : State) : (s.drawn).pendingDraw = s.pendingDraw := rfl
@[simp] theorem State.drawn_loaded (s : State) : (s.drawn).loaded = s.loaded := rfl
@[simp] theorem State.drawn_running (s : State) : (s.drawn).running = s.running := rfl
@[simp] theorem State.drawn_fault (s : State) : (s.drawn).fault = s.fault := rfl
@[simp] theorem State.drawn_underflowSeen (s : State) : (s.drawn).underflowSeen = s.underflowSeen := rfl
@[simp] theorem State.drawn_underflowCount (s : State) : (s.drawn).underflowCount = s.underflowCount := rfl
@[simp] theorem State.drawn_acc (s : State) : (s.drawn).acc = s.acc := rfl
@[simp] theorem State.drawn_cfg (s : State) : (s.drawn).cfg = s.cfg := rfl
@[simp] theorem State.drawn_inputs (s : State) : (s.drawn).inputs = s.inputs := rfl
@[simp] theorem State.drawn_outputs (s : State) : (s.drawn).outputs = s.outputs := rfl
@[simp] theorem State.drawn_draws (s : State) : (s.drawn).draws = s.draws + 1 := rfl
@[simp] theorem State.drawn_getV (s : State) (x : Nibble) : (s.drawn).getV x = s.getV x := rfl

@[simp] theorem State.writeByte_mem (s : State) (a : Addr) (v : Byte) : (s.writeByte a v).mem = s.mem.write a v := rfl
@[simp] theorem State.writeByte_V (s : State) (a : Addr) (v : Byte) : (s.writeByte a v).V = s.V := rfl
@[simp] theorem State.writeByte_I (s : State) (a : Addr) (v : Byte) : (s.writeByte a v).I = s.I := rfl
@[simp] theorem State.writeByte_pc (s : State) (a : Addr) (v : Byte) : (s.writeByte a v).pc = s.pc := rfl
@[simp] theorem State.writeByte_stack (s : State) (a : Addr) (v : Byte) : (s.writeByte a v).stack = s.stack := rfl
@[simp] theorem State.writeByte_DT (s : State) (a : Addr) (v : Byte) : (s.writeByte a v).DT = s.DT := rfl
@[simp] theorem State.writeByte_ST (s : State) (a : Addr) (v : Byte) : (s.writeByte a v).ST = s.ST := rfl
@[simp] theorem State.writeByte_disp (s : State) (a : Addr) (v : Byte) : (s.writeByte a v).disp = s.disp := rfl
@[simp] theorem State.writeByte_mode (s : State) (a : Addr) (v : Byte) : (s.writeByte a v).mode = s.mode := rfl
@[simp] theorem State.writeByte_keys (s : State) (a : Addr) (v : Byte) : (s.writeByte a v).keys = s.keys := rfl
@[simp] theorem State.writeByte_waitReg (s : State) (a : Addr) (v : Byte) : (s.writeByte a v).waitReg = s.waitReg := rfl
@[simp] theorem State.writeByte_sched (s : State) (a : Addr) (v : Byte) : (s.writeByte a v).sched = s.sched := rfl
@[simp] theorem State.writeByte_pendingDraw (s : State) (a : Addr) (v : Byte) : (s.writeByte a v).pendingDraw = s.pendingDraw := rfl
@[simp] theorem State.writeByte_loaded (s : State) (a : Addr) (v : Byte) : (s.writeByte a v).loaded = s.loaded := rfl
@[simp] theorem State.writeByte_running (s : State) (a : Addr) (v : Byte) : (s.writeByte a v).running = s.running := rfl
@[simp] theorem State.writeByte_fault (s : State) (a : Addr) (v : Byte) : (s.writeByte a v).fault = s.fault := rfl
@[simp] theorem State.writeByte_underflowSeen (s : State) (a : Addr) (v : Byte) : (s.writeByte a v).underflowSeen = s.underflowSeen := rfl
@[simp] theorem State.writeByte_underflowCount (s : State) (a : Addr) (v : Byte) : (s.writeByte a v).underflowCount = s.underflowCount := rfl
@[simp] theorem State.writeByte_acc (s : State) (a : Addr) (v : Byte) : (s.writeByte a v).acc = s.acc := rfl
@[simp] theorem State.writeByte_cfg (s : State) (a : Addr) (v : Byte) : (s.writeByte a v).cfg = s.cfg := rfl
@[simp] theorem State.writeByte_inputs (s : State) (a : Addr) (v : Byte) : (s.writeByte a v).inputs = s.inputs := rfl
@[simp] theorem State.writeByte_outputs (s : State) (a : Addr) (v : Byte) : (s.writeByte a v).outputs = s.outputs := rfl
@[simp] theorem State.writeByte_draws (s : State) (a : Addr) (v : Byte) : (s.writeByte a v).draws = s.draws := rfl
@[simp] theorem State.writeByte_getV (s : State) (a : Addr) (v : Byte) (x : Nibble) : (s.writeByte a v).getV x = s.getV x := rfl

/-! ### States with equal registers -/

/-- The register file is determined by its 16 registers. -/
theorem State.V_ext {s t : State} (h : ∀ x, t.getV x = s.getV x) : t.V = s.V := by
  apply Vector.ext
  intro i hi
  have h1 := h (BitVec.ofNat 4 i)
  have h2 : i % 16 = i := Nat.mod_eq_of_lt hi
  simpa [State.getV, h2] using h1

end Sys2Proof.Machine
end

