-- ==== Sys2Proof/Laws/Memory.lean ====
section
/-! SUPPORT. The laws of memory: read after write, the canonical form kept by every operation, fetch, placing a word,
and the effective addresses. -/

namespace Sys2Proof.Machine

/-- Read after write (R52). -/
@[simp] theorem Memory.read_write (m : Memory) (a b : Addr) (v : Byte) :
    (m.write a v).read b = if b = a then v else m.read b := by
  simp [Memory.read, Memory.write, Sparse.get_set, BitVec.toNat_inj]

@[simp] theorem State.readByte_writeByte (s : State) (a b : Addr) (v : Byte) :
    (s.writeByte a v).readByte b = if b = a then v else s.readByte b :=
  Memory.read_write s.mem a b v

/-- A write keeps the canonical form. -/
theorem Memory.wf_write {m : Memory} (h : Memory.wf m) (a : Addr) (v : Byte) : Memory.wf (m.write a v) :=
  Sparse.wf_set h a.isLt v

theorem Memory.wf_writeBytes {m : Memory} (h : Memory.wf m) (a : Addr) (bs : List Byte) :
    Memory.wf (Memory.writeBytes m a bs) := by
  induction bs generalizing m a with
  | nil => exact h
  | cons b bs ih => exact ih (Memory.wf_write h a b) (a + 1)

theorem Memory.wf_ofCells (l : List Host.Cell) : Memory.wf (Memory.ofCells l) := Sparse.wf_ofList _ _ l

theorem Memory.wf_nil : Memory.wf ([] : Memory) := Sparse.wf_nil _ _

@[simp] theorem Memory.read_nil (a : Addr) : Memory.read [] a = Memory.initial a.toNat := rfl

/-- Bytes written from `a` on, short of a full turn of the address space: the i-th byte is at `a + i`, every other
address reads as before. -/
theorem Memory.read_writeBytes (m : Memory) (a b : Addr) (bs : List Byte)
    (h : a.toNat + bs.length ≤ 4096) :
    (Memory.writeBytes m a bs).read b =
      if a.toNat ≤ b.toNat ∧ b.toNat < a.toNat + bs.length then bs.getD (b.toNat - a.toNat) 0 else m.read b := by
  induction bs generalizing m a with
  | nil =>
    have : ¬ (a.toNat ≤ b.toNat ∧ b.toNat < a.toNat + 0) := by omega
    rw [List.length_nil, if_neg this]
    rfl
  | cons v bs ih =>
    simp only [List.length_cons] at h ⊢
    unfold Memory.writeBytes
    by_cases hlast : bs = []
    · subst hlast
      simp only [Memory.writeBytes, Memory.read_write, List.length_nil]
      by_cases hab : b = a
      · subst hab; simp
      · have : ¬ (a.toNat ≤ b.toNat ∧ b.toNat < a.toNat + (0 + 1)) := by
          intro hc
          exact hab (BitVec.eq_of_toNat_eq (by omega))
        rw [if_neg hab, if_neg this]
    · have hpos : 0 < bs.length := List.length_pos_of_ne_nil hlast
      have ha1 : (a + 1).toNat = a.toNat + 1 := by
        simp only [BitVec.toNat_add]
        have : (1 : Addr).toNat = 1 := rfl
        omega
      rw [ih _ _ (by omega), ha1, Memory.read_write]
      by_cases hab : b = a
      · subst hab
        have h1 : ¬ (b.toNat + 1 ≤ b.toNat ∧ b.toNat < b.toNat + 1 + bs.length) := by omega
        have h2 : b.toNat ≤ b.toNat ∧ b.toNat < b.toNat + (bs.length + 1) := by omega
        rw [if_neg h1, if_pos h2]
        simp
      · have hne : b.toNat ≠ a.toNat := fun hc => hab (BitVec.eq_of_toNat_eq hc)
        by_cases hin : a.toNat + 1 ≤ b.toNat ∧ b.toNat < a.toNat + 1 + bs.length
        · have h2 : a.toNat ≤ b.toNat ∧ b.toNat < a.toNat + (bs.length + 1) := by omega
          rw [if_pos hin, if_pos h2]
          have : b.toNat - a.toNat = (b.toNat - (a.toNat + 1)) + 1 := by omega
          rw [this, List.getD_cons_succ]
        · have h2 : ¬ (a.toNat ≤ b.toNat ∧ b.toNat < a.toNat + (bs.length + 1)) := by omega
          rw [if_neg hin, if_neg h2, if_neg hab]

/-- What an unlisted byte reads as is the default FONT image followed by zeros (R42, R58). -/
theorem Memory.initial_eq_defaultFont (a : Nat) : Memory.initial a = defaultFont.getD a 0 := by
  unfold Memory.initial defaultFont
  have hl : fontGlyphBytes.length = 0xB4 := rfl
  split
  · rw [List.getD_append _ _ _ _ (by omega)]
    rfl
  · rw [List.getD_append_right _ _ _ _ (by omega)]
    rw [List.getD_eq_getElem?_getD, List.getElem?_replicate]
    split <;> rfl

/-- The fetched word (R52, R53, R65). -/
theorem State.fetchWord_eq (s : State) : s.fetchWord = wordOfBytes (s.readByte s.pc) (s.readByte (s.pc + 1)) := rfl

theorem addr_ne_succ (a : Addr) : a ≠ a + 1 := by
  intro h
  have := congrArg BitVec.toNat h
  simp only [BitVec.toNat_add] at this
  have h1 : (1 : Addr).toNat = 1 := rfl
  have := a.isLt
  omega

/-- The word placed for the host is the word the next fetch reads. -/
@[simp] theorem State.fetchWord_placeWord (s : State) (w : Word) : (s.placeWord w).fetchWord = w := by
  simp only [State.fetchWord, State.placeWord, Memory.read2, Memory.read_write]
  simp

/-! ### Effective addresses -/

theorem State.effAddr_toNat (s : State) (i : Nat) : (s.effAddr i).toNat = (s.I.toNat + i) % 4096 := by
  simp [State.effAddr, u12]

theorem State.effAddr_eq_add (s : State) (i : Nat) : s.effAddr i = s.I + BitVec.ofNat 12 i := by
  apply BitVec.eq_of_toNat_eq
  rw [State.effAddr_toNat, BitVec.toNat_add, BitVec.toNat_ofNat]
  omega

/-- Offsets below 4096 apart give different addresses. -/
theorem State.effAddr_inj (s : State) {i j : Nat} (hi : i < 4096) (hj : j < 4096) :
    s.effAddr i = s.effAddr j ↔ i = j := by
  constructor
  · intro h
    have := congrArg BitVec.toNat h
    rw [State.effAddr_toNat, State.effAddr_toNat] at this
    have := s.I.isLt
    omega
  · rintro rfl; rfl

@[simp] theorem State.effAddr_writeByte (s : State) (a : Addr) (v : Byte) (i : Nat) :
    (s.writeByte a v).effAddr i = s.effAddr i := rfl

@[simp] theorem State.effAddr_setV (s : State) (x : Nibble) (v : Byte) (i : Nat) :
    (s.setV x v).effAddr i = s.effAddr i := rfl

theorem regOfNat_toNat {i : Nat} (h : i < 16) : (regOfNat i).toNat = i := by
  simp [regOfNat, Nat.mod_eq_of_lt h]

@[simp] theorem regOfNat_toNat_self (x : Nibble) : regOfNat x.toNat = x := by
  simp [regOfNat]

theorem lowNibble_toNat (v : Byte) : (lowNibble v).toNat = v.toNat % 16 := by
  simp [lowNibble]

end Sys2Proof.Machine
end

