-- ==== Sys2Proof/Laws/Display.lean ====
section
/-! SUPPORT. The laws of the display: cells, blocks, clearing, scrolling, snapshot, fade, and what drawing can do. -/

namespace Sys2Proof.Machine

/-! ### Cells -/

theorem cellKey_inj {bx bx' r r' : Nat} (h : bx < 128) (h' : bx' < 128) :
    cellKey bx r = cellKey bx' r' ↔ bx = bx' ∧ r = r' := by
  simp only [cellKey, backW]
  omega

theorem cellKey_mod {bx r : Nat} (h : bx < 128) : cellKey bx r % backW = bx := by
  simp only [cellKey, backW]; omega

theorem cellKey_div {bx r : Nat} (h : bx < 128) : cellKey bx r / backW = r := by
  simp only [cellKey, backW]; omega

theorem Display.cell_setCell (d : Display) {bx bx' : Nat} (r r' : Nat) (c : Pixel) (h : bx < 128) (h' : bx' < 128) :
    (d.setCell bx r c).cell bx' r' = if bx' = bx ∧ r' = r then c else d.cell bx' r' := by
  simp only [Display.cell, Display.setCell, Sparse.get_set, cellKey_inj h' h]

theorem Display.wf_setCell {d : Display} (hd : Display.wf d) {bx r : Nat} (hb : bx < 128) (hr : r < 64) (c : Pixel) :
    Display.wf (d.setCell bx r c) :=
  Sparse.wf_set hd (by simp only [cellKey, backW, backH]; omega) c

@[simp] theorem Display.cell_nil (bx r : Nat) : Display.cell [] bx r = Pixel.blank := rfl

theorem Display.wf_nil : Display.wf ([] : Display) := Sparse.wf_nil _ _

/-! ### Modes and blocks -/

theorem ResMode.blockW_pos (m : ResMode) : 0 < m.blockW := by cases m <;> decide
theorem ResMode.blockH_pos (m : ResMode) : 0 < m.blockH := by cases m <;> decide
/-- "In every mode W*bw = 128" (R29). -/
theorem ResMode.width_mul (m : ResMode) : m.width * m.blockW = 128 := by cases m <;> rfl
/-- "and H*bh = 64" (R29). -/
theorem ResMode.height_mul (m : ResMode) : m.height * m.blockH = 64 := by cases m <;> rfl
theorem ResMode.width_pos (m : ResMode) : 0 < m.width := by cases m <;> decide
theorem ResMode.height_pos (m : ResMode) : 0 < m.height := by cases m <;> decide
theorem ResMode.sixteen_le_width (m : ResMode) : 16 ≤ m.width := by cases m <;> decide
theorem ResMode.sixteen_le_height (m : ResMode) : 16 ≤ m.height := by cases m <;> decide

/-- The cells of a block are those whose coordinates divide down to the logical pixel (R30). -/
theorem mem_blockCells {m : ResMode} {x y : Nat} {p : Nat × Nat} :
    p ∈ blockCells m x y ↔ p.1 / m.blockW = x ∧ p.2 / m.blockH = y := by
  obtain ⟨a, b⟩ := p
  simp only [blockCells, List.mem_flatMap, List.mem_range, List.mem_map, Prod.mk.injEq]
  constructor
  · rintro ⟨dx, hdx, dy, hdy, rfl, rfl⟩
    constructor
    · rw [Nat.mul_comm, Nat.mul_add_div m.blockW_pos, Nat.div_eq_of_lt hdx, Nat.add_zero]
    · rw [Nat.mul_comm, Nat.mul_add_div m.blockH_pos, Nat.div_eq_of_lt hdy, Nat.add_zero]
  · rintro ⟨rfl, rfl⟩
    exact ⟨a % m.blockW, Nat.mod_lt _ m.blockW_pos, b % m.blockH, Nat.mod_lt _ m.blockH_pos,
      Nat.div_add_mod' a m.blockW, Nat.div_add_mod' b m.blockH⟩

/-- The block of a logical pixel lies in the backing grid. -/
theorem blockCells_lt {m : ResMode} {x y : Nat} (hx : x < m.width) (hy : y < m.height) :
    ∀ p ∈ blockCells m x y, p.1 < 128 ∧ p.2 < 64 := by
  intro p hp
  obtain ⟨rfl, rfl⟩ := mem_blockCells.mp hp
  have h1 := (Nat.div_lt_iff_lt_mul m.blockW_pos).mp hx
  have h2 := (Nat.div_lt_iff_lt_mul m.blockH_pos).mp hy
  rw [m.width_mul] at h1
  rw [m.height_mul] at h2
  exact ⟨h1, h2⟩

/-- Writing one value to a list of cells. -/
theorem Display.cell_foldl_setCell (l : List (Nat × Nat)) (c : Pixel) (d : Display) {bx r : Nat} (h : bx < 128)
    (hl : ∀ p ∈ l, p.1 < 128) :
    (l.foldl (fun d p => d.setCell p.1 p.2 c) d).cell bx r = if (bx, r) ∈ l then c else d.cell bx r := by
  induction l generalizing d with
  | nil => simp
  | cons p l ih =>
    rw [List.foldl_cons, ih _ (fun q hq => hl q (by simp [hq])),
      Display.cell_setCell d p.2 r c (hl p (by simp)) h]
    by_cases hm : (bx, r) ∈ l
    · simp [hm]
    · by_cases hp : bx = p.1 ∧ r = p.2
      · have : (bx, r) = p := by rw [hp.1, hp.2]
        rw [if_neg hm, if_pos hp, if_pos (by rw [this]; exact List.mem_cons_self)]
      · have : ¬ (bx, r) = p := fun he => hp ⟨congrArg Prod.fst he, congrArg Prod.snd he⟩
        simp [hm, hp, this]

theorem Display.wf_foldl_setCell (l : List (Nat × Nat)) (c : Pixel) {d : Display} (hd : Display.wf d)
    (hl : ∀ p ∈ l, p.1 < 128 ∧ p.2 < 64) : Display.wf (l.foldl (fun d p => d.setCell p.1 p.2 c) d) := by
  induction l generalizing d with
  | nil => exact hd
  | cons p l ih =>
    have hp := hl p (by simp)
    exact ih (Display.wf_setCell hd hp.1 hp.2 c) (fun q hq => hl q (by simp [hq]))

/-- A cell after a logical pixel was written (R30). -/
theorem State.cell_setBlock (s : State) {x y bx r : Nat} (c : Pixel) (hx : x < s.mode.width) (hy : y < s.mode.height)
    (h : bx < 128) :
    (s.setBlock x y c).disp.cell bx r =
      if bx / s.mode.blockW = x ∧ r / s.mode.blockH = y then c else s.disp.cell bx r := by
  rw [State.setBlock, State.setDisp_disp,
    Display.cell_foldl_setCell _ _ _ h (fun p hp => (blockCells_lt hx hy p hp).1)]
  simp only [mem_blockCells]

theorem State.wf_setBlock (s : State) {x y : Nat} (c : Pixel) (hx : x < s.mode.width) (hy : y < s.mode.height)
    (hd : Display.wf s.disp) : Display.wf (s.setBlock x y c).disp :=
  Display.wf_foldl_setCell _ _ hd (blockCells_lt hx hy)

/-- The cell of a logical pixel lies in the grid. -/
theorem pixel_lt {m : ResMode} {x y : Nat} (hx : x < m.width) (hy : y < m.height) :
    x * m.blockW < 128 ∧ y * m.blockH < 64 := by
  have h1 := Nat.mul_lt_mul_of_pos_right hx m.blockW_pos
  have h2 := Nat.mul_lt_mul_of_pos_right hy m.blockH_pos
  rw [m.width_mul] at h1
  rw [m.height_mul] at h2
  exact ⟨h1, h2⟩

/-- A logical pixel after another, or the same, was written (R30). -/
theorem State.pixel_setBlock (s : State) {x y px py : Nat} (c : Pixel) (hx : x < s.mode.width)
    (hy : y < s.mode.height) (hpx : px < s.mode.width) (hpy : py < s.mode.height) :
    (s.setBlock x y c).pixel px py = if px = x ∧ py = y then c else s.pixel px py := by
  have h := pixel_lt hpx hpy
  unfold State.pixel
  rw [show (s.setBlock x y c).mode = s.mode from rfl, State.cell_setBlock s c hx hy h.1,
    Nat.mul_div_cancel _ s.mode.blockW_pos, Nat.mul_div_cancel _ s.mode.blockH_pos]

/-! ### Drawing changes only the display and VF -/

/-- `t` is `s` with some display and some value of VF. -/
def DrawsOnly (s t : State) : Prop := ∃ (d : Display) (f : Byte), t = (s.setV vF f).setDisp d

theorem State.setV_getV (s : State) (x : Nibble) : s.setV x (s.getV x) = s := by
  unfold State.setV State.getV
  rw [Vector.set_getElem_self]

theorem State.setV_setV (s : State) (x : Nibble) (v w : Byte) : (s.setV x v).setV x w = s.setV x w := by
  unfold State.setV
  simp only [Vector.set_set]

theorem DrawsOnly.refl (s : State) : DrawsOnly s s := ⟨s.disp, s.getV vF, by rw [State.setV_getV]; rfl⟩

theorem DrawsOnly.trans {s t u : State} (h : DrawsOnly s t) (h' : DrawsOnly t u) : DrawsOnly s u := by
  obtain ⟨d, f, rfl⟩ := h
  obtain ⟨d', f', rfl⟩ := h'
  exact ⟨d', f', by rw [← State.setV_setV s vF f f']; rfl⟩

theorem DrawsOnly.setV (s : State) (f : Byte) : DrawsOnly s (s.setV vF f) := ⟨s.disp, f, rfl⟩

theorem DrawsOnly.setBlock (s : State) (x y : Nat) (c : Pixel) : DrawsOnly s (s.setBlock x y c) :=
  ⟨(s.setBlock x y c).disp, s.getV vF, by rw [State.setV_getV]; rfl⟩

theorem State.togglePixel_drawsOnly (s : State) (px py : Nat) : DrawsOnly s (s.togglePixel px py) := by
  unfold State.togglePixel
  split
  · exact (DrawsOnly.setBlock s px py _).trans (DrawsOnly.setV _ _)
  · exact DrawsOnly.setBlock s px py _

theorem State.drawAt_drawsOnly (s : State) (px py : Nat) : DrawsOnly s (s.drawAt px py) := by
  unfold State.drawAt
  split
  · exact State.togglePixel_drawsOnly _ _ _
  · split
    · exact DrawsOnly.refl s
    · exact State.togglePixel_drawsOnly _ _ _

theorem DrawsOnly.foldl {β : Type} (f : State → β → State) (h : ∀ s b, DrawsOnly s (f s b)) (l : List β) (s : State) :
    DrawsOnly s (l.foldl f s) := by
  induction l generalizing s with
  | nil => exact DrawsOnly.refl s
  | cons b l ih => exact (h s b).trans (ih (f s b))

theorem State.drawBit_drawsOnly (x0 y0 bpr r : Nat) (s : State) (b : Nat) :
    DrawsOnly s (State.drawBit x0 y0 bpr r s b) := by
  unfold State.drawBit
  split
  · exact State.drawAt_drawsOnly _ _ _
  · exact DrawsOnly.refl s

/-- Everything `DrawSprite` can change: the display and VF. -/
theorem State.drawSprite_drawsOnly (s : State) (d : DrawRequest) : DrawsOnly s (s.drawSprite d) :=
  (DrawsOnly.setV s 0#8).trans (DrawsOnly.foldl _ (fun s _ => DrawsOnly.foldl _
    (fun s b => State.drawBit_drawsOnly _ _ _ _ s b) _ s) _ _)

/-! ### Drawing as toggling a list of pixels -/

/-- The pixel bit `b` of row `r` is drawn at, none for a 0 bit or a clipped one (R153); it depends on no cell and on no
register. -/
def State.landing (s : State) (x0 y0 bpr r b : Nat) : Option (Nat × Nat) :=
  if s.spriteBit bpr r b then
    match s.cfg.q.spriteEdge with
    | .wrap => some ((x0 + b) % s.mode.width, (y0 + r) % s.mode.height)
    | .clip =>
      if x0 + b ≥ s.mode.width ∨ y0 + r ≥ s.mode.height then none else some (x0 + b, y0 + r)
  else none

theorem State.landing_drawsOnly {s t : State} (h : DrawsOnly s t) (x0 y0 bpr r b : Nat) :
    t.landing x0 y0 bpr r b = s.landing x0 y0 bpr r b := by
  obtain ⟨d, f, rfl⟩ := h
  rfl

theorem State.drawBit_eq (x0 y0 bpr r : Nat) (s : State) (b : Nat) :
    State.drawBit x0 y0 bpr r s b =
      match s.landing x0 y0 bpr r b with
      | some p => s.togglePixel p.1 p.2
      | none => s := by
  unfold State.drawBit State.landing State.drawAt
  by_cases hb : s.spriteBit bpr r b = true
  · rw [if_pos hb, if_pos hb]
    cases s.cfg.q.spriteEdge
    · rfl
    · by_cases hc : x0 + b ≥ s.mode.width ∨ y0 + r ≥ s.mode.height
      · simp only [if_pos hc]
      · simp only [if_neg hc]
  · rw [if_neg hb, if_neg hb]

/-- All pixels a sprite draws, in the order it draws them. -/
def State.landings (s : State) (d : DrawRequest) : List (Nat × Nat) :=
  (List.range (spriteShape s.mode d.n).1).flatMap (fun r =>
    (List.range (8 * (spriteShape s.mode d.n).2)).filterMap (fun b =>
      s.landing (d.xv.toNat % s.mode.width) (d.yv.toNat % s.mode.height) (spriteShape s.mode d.n).2 r b))

/-- A list of pixels toggled one after another. -/
def State.toggleAll (s : State) (l : List (Nat × Nat)) : State := l.foldl (fun t p => t.togglePixel p.1 p.2) s

theorem State.toggleAll_append (s : State) (l l' : List (Nat × Nat)) :
    s.toggleAll (l ++ l') = (s.toggleAll l).toggleAll l' := List.foldl_append

theorem State.toggleAll_drawsOnly (s : State) (l : List (Nat × Nat)) : DrawsOnly s (s.toggleAll l) := by
  induction l generalizing s with
  | nil => exact DrawsOnly.refl s
  | cons p l ih => exact (State.togglePixel_drawsOnly s p.1 p.2).trans (ih (s.togglePixel p.1 p.2))

theorem State.foldl_drawBit_eq (s t : State) (h : DrawsOnly s t) (x0 y0 bpr r : Nat) (l : List Nat) :
    l.foldl (State.drawBit x0 y0 bpr r) t = t.toggleAll (l.filterMap (s.landing x0 y0 bpr r)) := by
  induction l generalizing t with
  | nil => rfl
  | cons b l ih =>
    rw [List.foldl_cons, State.drawBit_eq, State.landing_drawsOnly h, List.filterMap_cons]
    cases hl : s.landing x0 y0 bpr r b with
    | none => exact ih t h
    | some p => exact ih _ (h.trans (State.togglePixel_drawsOnly t p.1 p.2))

theorem State.foldl_drawRow_eq (s t : State) (h : DrawsOnly s t) (x0 y0 bpr : Nat) (l : List Nat) :
    l.foldl (State.drawRow x0 y0 bpr) t =
      t.toggleAll (l.flatMap (fun r => (List.range (8 * bpr)).filterMap (s.landing x0 y0 bpr r))) := by
  induction l generalizing t with
  | nil => rfl
  | cons r l ih =>
    rw [List.foldl_cons, State.drawRow, State.foldl_drawBit_eq s t h, List.flatMap_cons, State.toggleAll_append]
    exact ih _ (h.trans (State.toggleAll_drawsOnly t _))

/-- `DrawSprite` is VF ← 0 and then the toggling of its landing pixels (R153). -/
theorem State.drawSprite_eq_toggleAll (s : State) (d : DrawRequest) :
    s.drawSprite d = (s.setV vF 0#8).toggleAll (s.landings d) :=
  State.foldl_drawRow_eq s (s.setV vF 0#8) (DrawsOnly.setV s 0#8) _ _ _ _

/-! ### What toggling does -/

/-- What a drawn pixel's cells become: off under the filter policy if it was lit, else on (R153). -/
def State.toggled (s : State) (px py : Nat) : Pixel := if s.pixOn px py then ⟨false, s.offFade⟩ else ⟨true, 0⟩

theorem DrawsOnly.mode {s t : State} (h : DrawsOnly s t) : t.mode = s.mode := by
  obtain ⟨d, f, rfl⟩ := h; rfl

theorem DrawsOnly.offFade {s t : State} (h : DrawsOnly s t) : t.offFade = s.offFade := by
  obtain ⟨d, f, rfl⟩ := h; rfl

theorem State.cell_togglePixel (s : State) {x y bx r : Nat} (hx : x < s.mode.width) (hy : y < s.mode.height)
    (h : bx < 128) :
    (s.togglePixel x y).disp.cell bx r =
      if bx / s.mode.blockW = x ∧ r / s.mode.blockH = y then s.toggled x y else s.disp.cell bx r := by
  unfold State.togglePixel State.toggled
  split
  · exact State.cell_setBlock s _ hx hy h
  · exact State.cell_setBlock s _ hx hy h

theorem State.wf_togglePixel (s : State) {x y : Nat} (hx : x < s.mode.width) (hy : y < s.mode.height)
    (hd : Display.wf s.disp) : Display.wf (s.togglePixel x y).disp := by
  unfold State.togglePixel
  split
  · exact State.wf_setBlock s _ hx hy hd
  · exact State.wf_setBlock s _ hx hy hd

theorem State.pixel_togglePixel (s : State) {x y px py : Nat} (hx : x < s.mode.width) (hy : y < s.mode.height)
    (hpx : px < s.mode.width) (hpy : py < s.mode.height) :
    (s.togglePixel x y).pixel px py = if px = x ∧ py = y then s.toggled x y else s.pixel px py := by
  unfold State.togglePixel State.toggled
  split
  · exact State.pixel_setBlock s _ hx hy hpx hpy
  · exact State.pixel_setBlock s _ hx hy hpx hpy

theorem State.getV_togglePixel (s : State) (x y : Nat) (k : Nibble) :
    (s.togglePixel x y).getV k = if k = vF ∧ s.pixOn x y = true then 1#8 else s.getV k := by
  unfold State.togglePixel
  by_cases hp : s.pixOn x y = true
  · rw [if_pos hp, State.getV_setV]
    simp only [hp, and_true]
    split <;> rfl
  · rw [if_neg hp]
    simp only [hp, and_false, Bool.false_eq_true, if_false]
    rfl

/-- Cells after a list of different pixels has been toggled. -/
theorem State.cell_toggleAll (s : State) (l : List (Nat × Nat)) (hnd : l.Nodup)
    (hl : ∀ p ∈ l, p.1 < s.mode.width ∧ p.2 < s.mode.height) {bx r : Nat} (h : bx < 128) (hr : r < 64) :
    (s.toggleAll l).disp.cell bx r =
      if (bx / s.mode.blockW, r / s.mode.blockH) ∈ l then s.toggled (bx / s.mode.blockW) (r / s.mode.blockH)
      else s.disp.cell bx r := by
  induction l generalizing s with
  | nil => rfl
  | cons p l ih =>
    have hp := hl p List.mem_cons_self
    have hnd' := List.nodup_cons.mp hnd
    have hd := State.togglePixel_drawsOnly s p.1 p.2
    have hx : bx / s.mode.blockW < s.mode.width :=
      (Nat.div_lt_iff_lt_mul s.mode.blockW_pos).mpr (by rw [s.mode.width_mul]; exact h)
    have hy : r / s.mode.blockH < s.mode.height :=
      (Nat.div_lt_iff_lt_mul s.mode.blockH_pos).mpr (by rw [s.mode.height_mul]; exact hr)
    have ih := ih (s.togglePixel p.1 p.2) hnd'.2
      (fun q hq => by rw [hd.mode]; exact hl q (List.mem_cons_of_mem p hq))
    rw [hd.mode] at ih
    rw [show s.toggleAll (p :: l) = (s.togglePixel p.1 p.2).toggleAll l from rfl, ih]
    by_cases hm : (bx / s.mode.blockW, r / s.mode.blockH) ∈ l
    · have hne : ¬ (bx / s.mode.blockW = p.1 ∧ r / s.mode.blockH = p.2) := by
        intro hc
        exact hnd'.1 (by rw [show p = (bx / s.mode.blockW, r / s.mode.blockH) from Prod.ext hc.1.symm hc.2.symm]; exact hm)
      rw [if_pos hm, if_pos (List.mem_cons_of_mem p hm)]
      unfold State.toggled State.pixOn
      rw [State.pixel_togglePixel s hp.1 hp.2 hx hy, if_neg hne, hd.offFade]
    · rw [if_neg hm, State.cell_togglePixel s hp.1 hp.2 h]
      by_cases hc : bx / s.mode.blockW = p.1 ∧ r / s.mode.blockH = p.2
      · have : (bx / s.mode.blockW, r / s.mode.blockH) = p := Prod.ext hc.1 hc.2
        rw [if_pos hc, if_pos (by rw [this]; exact List.mem_cons_self), hc.1, hc.2]
      · have : (bx / s.mode.blockW, r / s.mode.blockH) ∉ p :: l := by
          intro hin
          rcases List.mem_cons.mp hin with he | hin
          · exact hc ⟨congrArg Prod.fst he, congrArg Prod.snd he⟩
          · exact hm hin
        rw [if_neg hc, if_neg this]

/-- Logical pixels after a list of different pixels has been toggled. -/
theorem State.pixel_toggleAll (s : State) (l : List (Nat × Nat)) (hnd : l.Nodup)
    (hl : ∀ p ∈ l, p.1 < s.mode.width ∧ p.2 < s.mode.height) {px py : Nat} (hx : px < s.mode.width)
    (hy : py < s.mode.height) :
    (s.toggleAll l).pixel px py = if (px, py) ∈ l then s.toggled px py else s.pixel px py := by
  have hb := pixel_lt hx hy
  unfold State.pixel
  rw [(State.toggleAll_drawsOnly s l).mode, State.cell_toggleAll s l hnd hl hb.1 hb.2,
    Nat.mul_div_cancel _ s.mode.blockW_pos, Nat.mul_div_cancel _ s.mode.blockH_pos]

/-- VF after a list of different pixels has been toggled: 1 if one of them was lit, else as before. -/
theorem State.vF_toggleAll (s : State) (l : List (Nat × Nat)) (hnd : l.Nodup)
    (hl : ∀ p ∈ l, p.1 < s.mode.width ∧ p.2 < s.mode.height) :
    ((∃ p ∈ l, s.pixOn p.1 p.2 = true) → (s.toggleAll l).getV vF = 1#8) ∧
    ((¬ ∃ p ∈ l, s.pixOn p.1 p.2 = true) → (s.toggleAll l).getV vF = s.getV vF) := by
  induction l generalizing s with
  | nil => exact ⟨fun ⟨p, hp, _⟩ => absurd hp List.not_mem_nil, fun _ => rfl⟩
  | cons p l ih =>
    have hp := hl p List.mem_cons_self
    have hnd' := List.nodup_cons.mp hnd
    have hd := State.togglePixel_drawsOnly s p.1 p.2
    have ih := ih (s.togglePixel p.1 p.2) hnd'.2
      (fun q hq => by rw [hd.mode]; exact hl q (List.mem_cons_of_mem p hq))
    have hsame : ∀ q ∈ l, (s.togglePixel p.1 p.2).pixOn q.1 q.2 = s.pixOn q.1 q.2 := by
      intro q hq
      have hql := hl q (List.mem_cons_of_mem p hq)
      have hne : ¬ (q.1 = p.1 ∧ q.2 = p.2) := fun hc => hnd'.1 (by rw [← Prod.ext hc.1 hc.2]; exact hq)
      unfold State.pixOn
      rw [State.pixel_togglePixel s hp.1 hp.2 hql.1 hql.2, if_neg hne]
    have hex : (∃ q ∈ l, (s.togglePixel p.1 p.2).pixOn q.1 q.2 = true) ↔ ∃ q ∈ l, s.pixOn q.1 q.2 = true :=
      ⟨fun ⟨q, hq, h⟩ => ⟨q, hq, by rw [← hsame q hq]; exact h⟩, fun ⟨q, hq, h⟩ => ⟨q, hq, by rw [hsame q hq]; exact h⟩⟩
    rw [hex, State.getV_togglePixel] at ih
    rw [show s.toggleAll (p :: l) = (s.togglePixel p.1 p.2).toggleAll l from rfl]
    by_cases hrest : ∃ q ∈ l, s.pixOn q.1 q.2 = true
    · refine ⟨fun _ => ih.1 hrest, fun hno => absurd ?_ hno⟩
      obtain ⟨q, hq, h⟩ := hrest
      exact ⟨q, List.mem_cons_of_mem p hq, h⟩
    · rw [ih.2 hrest]
      by_cases hon : s.pixOn p.1 p.2 = true
      · exact ⟨fun _ => by rw [if_pos ⟨rfl, hon⟩], fun hno => absurd ⟨p, List.mem_cons_self, hon⟩ hno⟩
      · refine ⟨fun ⟨q, hq, h⟩ => ?_, fun _ => by rw [if_neg (fun hc => hon hc.2)]⟩
        rcases List.mem_cons.mp hq with rfl | hq
        · exact absurd h hon
        · exact absurd ⟨q, hq, h⟩ hrest

theorem State.wf_toggleAll (s : State) (l : List (Nat × Nat))
    (hl : ∀ p ∈ l, p.1 < s.mode.width ∧ p.2 < s.mode.height) (hd : Display.wf s.disp) :
    Display.wf (s.toggleAll l).disp := by
  induction l generalizing s with
  | nil => exact hd
  | cons p l ih =>
    have hp := hl p List.mem_cons_self
    refine ih (s.togglePixel p.1 p.2) ?_ (State.wf_togglePixel s hp.1 hp.2 hd)
    intro q hq
    rw [(State.togglePixel_drawsOnly s p.1 p.2).mode]
    exact hl q (List.mem_cons_of_mem p hq)

/-! ### The landing pixels -/

/-- Every shape is at most 16 by 16 (R154). -/
theorem spriteShape_le (m : ResMode) (n : Nibble) : (spriteShape m n).1 ≤ 16 ∧ 8 * (spriteShape m n).2 ≤ 16 := by
  have := n.isLt
  unfold spriteShape
  split
  · exact ⟨le_refl _, le_refl _⟩
  · exact ⟨by simp only; omega, by simp only; omega⟩

theorem State.landing_lt (s : State) {x0 y0 bpr r b : Nat} {p : Nat × Nat} (h : s.landing x0 y0 bpr r b = some p) :
    p.1 < s.mode.width ∧ p.2 < s.mode.height := by
  unfold State.landing at h
  by_cases hb : s.spriteBit bpr r b = true
  · rw [if_pos hb] at h
    cases hq : s.cfg.q.spriteEdge <;> simp only [hq] at h
    · rw [← Option.some.inj h]
      exact ⟨Nat.mod_lt _ s.mode.width_pos, Nat.mod_lt _ s.mode.height_pos⟩
    · split at h
      · simp at h
      · rename_i hc
        rw [← Option.some.inj h]
        push Not at hc
        exact hc
  · simp [hb] at h

/-- Two different bits of a sprite land on different pixels: "no pixel is visited twice in one call" (R153). -/
theorem State.landing_inj (s : State) {x0 y0 bpr r b r' b' : Nat} {p : Nat × Nat} (hr : r < 16) (hr' : r' < 16)
    (hb : b < 16) (hb' : b' < 16) (h : s.landing x0 y0 bpr r b = some p) (h' : s.landing x0 y0 bpr r' b' = some p) :
    r = r' ∧ b = b' := by
  have modinj : ∀ {w a c d : Nat}, 16 ≤ w → c < 16 → d < 16 → (a + c) % w = (a + d) % w → c = d := by
    intro w a c d hw hc hd he
    have : c ≡ d [MOD w] := Nat.ModEq.add_left_cancel' a he
    have h2 : c % w = d % w := this
    rwa [Nat.mod_eq_of_lt (by omega), Nat.mod_eq_of_lt (by omega)] at h2
  unfold State.landing at h h'
  split at h
  · split at h'
    · cases hq : s.cfg.q.spriteEdge <;> simp only [hq] at h h'
      · have he := (Option.some.inj h).trans (Option.some.inj h').symm
        exact ⟨modinj s.mode.sixteen_le_height hr hr' (congrArg Prod.snd he),
          modinj s.mode.sixteen_le_width hb hb' (congrArg Prod.fst he)⟩
      · split at h
        · simp at h
        · split at h'
          · simp at h'
          · have he := (Option.some.inj h).trans (Option.some.inj h').symm
            have h1 := congrArg Prod.fst he
            have h2 := congrArg Prod.snd he
            simp only at h1 h2
            omega
    · simp at h'
  · simp at h

theorem State.mem_landings (s : State) (d : DrawRequest) (p : Nat × Nat) :
    p ∈ s.landings d ↔ ∃ r < (spriteShape s.mode d.n).1, ∃ b < 8 * (spriteShape s.mode d.n).2,
      s.landing (d.xv.toNat % s.mode.width) (d.yv.toNat % s.mode.height) (spriteShape s.mode d.n).2 r b = some p := by
  simp only [State.landings, List.mem_flatMap, List.mem_range, List.mem_filterMap]

theorem State.landings_lt (s : State) (d : DrawRequest) :
    ∀ p ∈ s.landings d, p.1 < s.mode.width ∧ p.2 < s.mode.height := by
  intro p hp
  obtain ⟨r, _, b, _, h⟩ := (State.mem_landings s d p).mp hp
  exact State.landing_lt s h

/-- No pixel is visited twice (R153). -/
theorem State.landings_nodup (s : State) (d : DrawRequest) : (s.landings d).Nodup := by
  have hs := spriteShape_le s.mode d.n
  unfold State.landings
  rw [List.nodup_flatMap]
  constructor
  · intro r hr
    have hr := List.mem_range.mp hr
    rw [List.nodup_iff_pairwise_ne, List.pairwise_filterMap]
    refine List.Pairwise.imp_of_mem ?_ List.nodup_range
    intro b b' hb hb' hne p hp p' hp' he
    have hb := List.mem_range.mp hb
    have hb' := List.mem_range.mp hb'
    exact hne (State.landing_inj s (by omega) (by omega) (by omega) (by omega) hp (he ▸ hp')).2
  · refine List.Pairwise.imp_of_mem ?_ List.nodup_range
    intro r r' hr hr' hne p hp hp'
    have hr := List.mem_range.mp hr
    have hr' := List.mem_range.mp hr'
    obtain ⟨b, hb, h⟩ := List.mem_filterMap.mp hp
    obtain ⟨b', hb', h'⟩ := List.mem_filterMap.mp hp'
    have hb := List.mem_range.mp hb
    have hb' := List.mem_range.mp hb'
    exact hne (State.landing_inj s (by omega) (by omega) (by omega) (by omega) h h').1

/-! ### What `DrawSprite` does (R153) -/

/-- A cell after a sprite was drawn. -/
theorem State.cell_drawSprite (s : State) (d : DrawRequest) {bx r : Nat} (h : bx < 128) (hr : r < 64) :
    (s.drawSprite d).disp.cell bx r =
      if (bx / s.mode.blockW, r / s.mode.blockH) ∈ s.landings d
      then s.toggled (bx / s.mode.blockW) (r / s.mode.blockH) else s.disp.cell bx r := by
  rw [State.drawSprite_eq_toggleAll]
  exact State.cell_toggleAll (s.setV vF 0#8) (s.landings d) (State.landings_nodup s d) (State.landings_lt s d) h hr

/-- A logical pixel after a sprite was drawn. -/
theorem State.pixel_drawSprite (s : State) (d : DrawRequest) {px py : Nat} (hx : px < s.mode.width)
    (hy : py < s.mode.height) :
    (s.drawSprite d).pixel px py = if (px, py) ∈ s.landings d then s.toggled px py else s.pixel px py := by
  rw [State.drawSprite_eq_toggleAll]
  exact State.pixel_toggleAll (s.setV vF 0#8) (s.landings d) (State.landings_nodup s d) (State.landings_lt s d) hx hy

/-- VF after a sprite was drawn: 1 if a lit pixel was turned off, else 0. -/
theorem State.vF_drawSprite (s : State) (d : DrawRequest) :
    (s.drawSprite d).getV vF = if ∃ p ∈ s.landings d, s.pixOn p.1 p.2 = true then 1 else 0 := by
  have h := State.vF_toggleAll (s.setV vF 0#8) (s.landings d) (State.landings_nodup s d) (State.landings_lt s d)
  rw [State.drawSprite_eq_toggleAll]
  split
  · exact h.1 ‹_›
  · rw [h.2 ‹_›]
    simp

theorem State.wf_drawSprite (s : State) (d : DrawRequest) (hd : Display.wf s.disp) :
    Display.wf (s.drawSprite d).disp := by
  rw [State.drawSprite_eq_toggleAll]
  exact State.wf_toggleAll (s.setV vF 0#8) (s.landings d) (State.landings_lt s d) hd

theorem State.landings_drawsOnly {s t : State} (h : DrawsOnly s t) (d : DrawRequest) : t.landings d = s.landings d := by
  obtain ⟨d', f, rfl⟩ := h
  rfl

theorem State.offFade_eq (s : State) :
    s.offFade = if s.cfg.params.filter = .none then 0 else s.cfg.params.fadeFrames := by
  unfold State.offFade
  cases s.cfg.params.filter <;> rfl

/-! ### What drawing looks at -/

/-- Two states that look the same to a draw: memory, I, mode, configuration, display and registers. -/
def SameDrawView (s t : State) : Prop :=
  t.mem = s.mem ∧ t.I = s.I ∧ t.mode = s.mode ∧ t.cfg = s.cfg ∧ t.disp = s.disp ∧ t.V = s.V

theorem SameDrawView.setV {s t : State} (h : SameDrawView s t) (x : Nibble) (v : Byte) :
    SameDrawView (s.setV x v) (t.setV x v) := by
  obtain ⟨h1, h2, h3, h4, h5, h6⟩ := h
  exact ⟨h1, h2, h3, h4, h5, by simp only [State.setV, h6]⟩

theorem SameDrawView.setBlock {s t : State} (h : SameDrawView s t) (x y : Nat) (c : Pixel) :
    SameDrawView (s.setBlock x y c) (t.setBlock x y c) := by
  obtain ⟨h1, h2, h3, h4, h5, h6⟩ := h
  exact ⟨h1, h2, h3, h4, by simp only [State.setBlock, State.setDisp_disp, h3, h5], h6⟩

theorem SameDrawView.togglePixel {s t : State} (h : SameDrawView s t) (x y : Nat) :
    SameDrawView (s.togglePixel x y) (t.togglePixel x y) := by
  have hp : t.pixOn x y = s.pixOn x y := by
    obtain ⟨h1, h2, h3, h4, h5, h6⟩ := h
    simp only [State.pixOn, State.pixel, h3, h5]
  have hf : t.offFade = s.offFade := by
    obtain ⟨h1, h2, h3, h4, h5, h6⟩ := h
    simp only [State.offFade, h4]
  unfold State.togglePixel State.setOff State.setOn
  rw [hp, hf]
  split
  · exact (h.setBlock x y _).setV vF _
  · exact h.setBlock x y _

theorem SameDrawView.toggleAll {s t : State} (h : SameDrawView s t) (l : List (Nat × Nat)) :
    SameDrawView (s.toggleAll l) (t.toggleAll l) := by
  induction l generalizing s t with
  | nil => exact h
  | cons p l ih => exact ih (h.togglePixel p.1 p.2)

theorem SameDrawView.landings {s t : State} (h : SameDrawView s t) (d : DrawRequest) :
    t.landings d = s.landings d := by
  obtain ⟨h1, h2, h3, h4, h5, h6⟩ := h
  have hl : ∀ x0 y0 bpr r b, t.landing x0 y0 bpr r b = s.landing x0 y0 bpr r b := by
    intro x0 y0 bpr r b
    unfold State.landing State.spriteBit State.readByte State.effAddr
    rw [h1, h2, h3, h4]
  simp only [State.landings, hl, h3]

/-- A draw does the same in states that look the same to it. -/
theorem SameDrawView.drawSprite {s t : State} (h : SameDrawView s t) (d : DrawRequest) :
    SameDrawView (s.drawSprite d) (t.drawSprite d) := by
  rw [State.drawSprite_eq_toggleAll, State.drawSprite_eq_toggleAll, h.landings]
  exact (h.setV vF 0#8).toggleAll _

/-- What a draw does, as the two fields it gives. -/
theorem State.drawSprite_eq (s : State) (d : DrawRequest) :
    s.drawSprite d = { s with V := (s.drawSprite d).V, disp := (s.drawSprite d).disp } := by
  obtain ⟨e, f, h⟩ := State.drawSprite_drawsOnly s d
  rw [h]
  rfl

/-- A draw neither reads nor writes the queue. -/
theorem State.drawSprite_setInputs (s : State) (d : DrawRequest) (l : List Input) :
    (s.setInputs l).drawSprite d = (s.drawSprite d).setInputs l := by
  have h : SameDrawView s (s.setInputs l) := ⟨rfl, rfl, rfl, rfl, rfl, rfl⟩
  obtain ⟨-, -, -, -, h5, h6⟩ := h.drawSprite d
  rw [State.drawSprite_eq (s.setInputs l) d, h5, h6, State.drawSprite_eq s d]
  rfl

/-! ### Clearing, fade, scrolling, mode switch -/

theorem clearCell_blank (n : Nat) (k : Nat) : clearCell n (Display.initial k) = Display.initial k := rfl
theorem ageCell_blank (k : Nat) : ageCell (Display.initial k) = Display.initial k := rfl

/-- A cell after `ClearGrid` (R150). -/
theorem State.cell_clearGrid (s : State) (hd : Display.wf s.disp) (bx r : Nat) :
    s.clearGrid.disp.cell bx r = clearCell s.offFade (s.disp.cell bx r) :=
  Sparse.get_mapVals _ hd (clearCell_blank _) _

theorem State.wf_clearGrid (s : State) (hd : Display.wf s.disp) : Display.wf s.clearGrid.disp :=
  Sparse.wf_mapVals _ hd

/-- A cell after `AgeFade` (R165). -/
theorem State.cell_ageFade (s : State) (hd : Display.wf s.disp) (bx r : Nat) :
    s.ageFade.disp.cell bx r = ageCell (s.disp.cell bx r) :=
  Sparse.get_mapVals _ hd ageCell_blank _

theorem State.wf_ageFade (s : State) (hd : Display.wf s.disp) : Display.wf s.ageFade.disp :=
  Sparse.wf_mapVals _ hd

theorem shiftKey_eq_some {dx dy : Int} {k k' : Nat} :
    shiftKey dx dy k = some k' ↔
      k' < 128 * 64 ∧ ((k' % 128 : Nat) : Int) = (k % 128 : Nat) + dx ∧ ((k' / 128 : Nat) : Int) = (k / 128 : Nat) + dy := by
  unfold shiftKey
  by_cases hc : 0 ≤ ((k % backW : Nat) : Int) + dx ∧ ((k % backW : Nat) : Int) + dx < backW ∧
      0 ≤ ((k / backW : Nat) : Int) + dy ∧ ((k / backW : Nat) : Int) + dy < backH
  · simp only [if_pos hc, Option.some.injEq, cellKey]
    simp only [backW, backH] at hc ⊢
    omega
  · simp only [if_neg hc, reduceCtorEq, false_iff]
    simp only [backW, backH] at hc
    omega

/-- A cell after `ShiftGrid` that some cell of the grid moves to (R155). -/
theorem State.cell_shiftGrid_of_source (s : State) {dx dy : Int} {bx r bx' r' : Nat} (h : bx < 128) (hr : r < 64)
    (h' : bx' < 128) (hx : (bx : Int) = bx' + dx) (hy : (r : Int) = r' + dy) :
    (s.shiftGrid dx dy).disp.cell bx r = s.disp.cell bx' r' := by
  have e : shiftKey dx dy (cellKey bx' r') = some (cellKey bx r) := by
    rw [shiftKey_eq_some]
    simp only [cellKey, backW]
    omega
  refine Sparse.get_rekey_of_some s.disp e ?_
  intro p _ hp
  have a := shiftKey_eq_some.mp e
  have b := shiftKey_eq_some.mp hp
  omega

/-- A cell after `ShiftGrid` that no cell of the grid moves to (R155). -/
theorem State.cell_shiftGrid_of_none (s : State) {dx dy : Int} {bx r : Nat} (h : bx < 128)
    (hno : ∀ bx' : Nat, bx' < 128 → ∀ r' : Nat, ¬ ((bx : Int) = bx' + dx ∧ (r : Int) = r' + dy)) :
    (s.shiftGrid dx dy).disp.cell bx r = Pixel.blank := by
  refine Sparse.get_rekey_of_none s.disp ?_
  intro p _ hp
  have b := shiftKey_eq_some.mp hp
  simp only [cellKey, backW] at b
  exact hno (p.1 % 128) (by omega) (p.1 / 128) (by omega)

theorem State.wf_shiftGrid (s : State) (hd : Display.wf s.disp) (dx dy : Int) :
    Display.wf (s.shiftGrid dx dy).disp := by
  refine Sparse.wf_rekey hd ?_ ?_
  · intro a b hab a' ha b' hb
    have h1 := shiftKey_eq_some.mp ha
    have h2 := shiftKey_eq_some.mp hb
    omega
  · intro a _ a' ha
    exact (shiftKey_eq_some.mp ha).1

theorem State.wf_switchMode (s : State) (hd : Display.wf s.disp) (m : ResMode) : Display.wf (s.switchMode m).disp := by
  unfold State.switchMode
  split
  · exact Display.wf_nil
  · exact hd

/-- The snapshot's store holds, for every logical pixel, its top-left cell (R164). -/
theorem State.get_snapshot (s : State) {px py : Nat} (hx : px < s.mode.width) (hy : py < s.mode.height) :
    Sparse.get Display.initial (Sparse.rekey (snapshotKey s.mode) s.disp) (cellKey px py) = s.pixel px py := by
  have hb := pixel_lt hx hy
  have hw : s.mode.width ≤ 128 := by cases s.mode <;> decide
  have hpx : px < 128 := lt_of_lt_of_le hx hw
  refine Sparse.get_rekey_of_some (c := Pixel.blank) s.disp (k := cellKey (px * s.mode.blockW) (py * s.mode.blockH)) ?_ ?_
  · unfold snapshotKey
    simp only [cellKey_mod hb.1, cellKey_div hb.1, Nat.mul_mod_left, and_self, if_true,
      Nat.mul_div_cancel _ s.mode.blockW_pos, Nat.mul_div_cancel _ s.mode.blockH_pos]
  · intro e _ he
    unfold snapshotKey at he
    simp only at he
    split at he
    · rename_i hm
      have hlt : e.1 % backW / s.mode.blockW < 128 :=
        lt_of_le_of_lt (Nat.div_le_self _ _) (Nat.mod_lt _ (by decide))
      have hk := (cellKey_inj hlt hpx).mp (Option.some.inj he)
      have h1 := Nat.div_mul_cancel (Nat.dvd_of_mod_eq_zero hm.1)
      have h2 := Nat.div_mul_cancel (Nat.dvd_of_mod_eq_zero hm.2)
      rw [hk.1] at h1
      rw [hk.2] at h2
      rw [h1, h2]
      simp only [cellKey, backW]
      omega
    · simp at he

end Sys2Proof.Machine
end

