-- ==== Sys2Proof/Laws/Frames.lean ====
section
/-! SUPPORT. The frame relation `OnlyChanges` of Safety.lean: it composes, and one lemma per named update of the state
says which part the update changes. -/

namespace Sys2Proof.Machine

theorem OnlyChanges.refl (ps : List Part) (s : State) : OnlyChanges ps s s := by
  simp [OnlyChanges]

/-- A longer list of parts allows more. -/
theorem OnlyChanges.mono {ps qs : List Part} {s t : State} (h : OnlyChanges ps s t) (hq : ∀ p ∈ ps, p ∈ qs) :
    OnlyChanges qs s t := by
  obtain ⟨h0, h1, h2, h3, h4, h5, h6, h7, h8, h9, h10, h11, h12, h13, h14, h15, h16, h17, h18, h19, h20, h21⟩ := h
  refine ⟨fun h => h0 (fun hp => h (hq _ hp)),
    fun h => h1 (fun hp => h (hq _ hp)),
    fun h => h2 (fun hp => h (hq _ hp)),
    fun h => h3 (fun hp => h (hq _ hp)),
    fun h => h4 (fun hp => h (hq _ hp)),
    fun h => h5 (fun hp => h (hq _ hp)),
    fun h => h6 (fun hp => h (hq _ hp)),
    fun h => h7 (fun hp => h (hq _ hp)),
    fun h => h8 (fun hp => h (hq _ hp)),
    fun h => h9 (fun hp => h (hq _ hp)),
    fun h => h10 (fun hp => h (hq _ hp)),
    fun h => h11 (fun hp => h (hq _ hp)),
    fun h => h12 (fun hp => h (hq _ hp)),
    fun h => h13 (fun hp => h (hq _ hp)),
    fun h => h14 (fun hp => h (hq _ hp)),
    fun h => h15 (fun hp => h (hq _ hp)),
    fun h => h16 (fun hp => h (hq _ hp)),
    fun h => h17 (fun hp => h (hq _ hp)),
    fun h => h18 (fun hp => h (hq _ hp)),
    fun h => h19 (fun hp => h (hq _ hp)),
    fun h => h20 (fun hp => h (hq _ hp)),
    fun h => h21 (fun hp => h (hq _ hp))⟩

theorem OnlyChanges.trans {ps : List Part} {s t u : State} (h : OnlyChanges ps s t) (g : OnlyChanges ps t u) :
    OnlyChanges ps s u := by
  obtain ⟨h0, h1, h2, h3, h4, h5, h6, h7, h8, h9, h10, h11, h12, h13, h14, h15, h16, h17, h18, h19, h20, h21⟩ := h
  obtain ⟨g0, g1, g2, g3, g4, g5, g6, g7, g8, g9, g10, g11, g12, g13, g14, g15, g16, g17, g18, g19, g20, g21⟩ := g
  exact ⟨fun h x => (g0 h x).trans (h0 h x),
    fun h => (g1 h).trans (h1 h),
    fun h => (g2 h).trans (h2 h),
    fun h x => (g3 h x).trans (h3 h x),
    fun h => (g4 h).trans (h4 h),
    fun h => (g5 h).trans (h5 h),
    fun h => (g6 h).trans (h6 h),
    fun h x hx y hy => (g7 h x hx y hy).trans (h7 h x hx y hy),
    fun h => (g8 h).trans (h8 h),
    fun h => (g9 h).trans (h9 h),
    fun h => (g10 h).trans (h10 h),
    fun h => (g11 h).trans (h11 h),
    fun h => (g12 h).trans (h12 h),
    fun h => (g13 h).trans (h13 h),
    fun h => (g14 h).trans (h14 h),
    fun h => (g15 h).trans (h15 h),
    fun h => ⟨(g16 h).1.trans (h16 h).1, (g16 h).2.trans (h16 h).2⟩,
    fun h => (g17 h).trans (h17 h),
    fun h => (g18 h).trans (h18 h),
    fun h => (g19 h).trans (h19 h),
    fun h => (g20 h).trans (h20 h),
    fun h => (g21 h).trans (h21 h)⟩

/-! ### Named updates -/

theorem State.setMem_only (s : State) (m : Memory) : OnlyChanges [.mem] s (s.setMem m) := by
  simp [OnlyChanges, State.readByte]
theorem State.setI_only (s : State) (a : Addr) : OnlyChanges [.I] s (s.setI a) := by
  simp [OnlyChanges, State.readByte]
theorem State.setPc_only (s : State) (a : Addr) : OnlyChanges [.pc] s (s.setPc a) := by
  simp [OnlyChanges, State.readByte]
theorem State.setStack_only (s : State) (l : List Addr) : OnlyChanges [.stack] s (s.setStack l) := by
  simp [OnlyChanges, State.readByte]
theorem State.setDT_only (s : State) (v : Byte) : OnlyChanges [.DT] s (s.setDT v) := by
  simp [OnlyChanges, State.readByte]
theorem State.setST_only (s : State) (v : Byte) : OnlyChanges [.ST] s (s.setST v) := by
  simp [OnlyChanges, State.readByte]
theorem State.setDisp_only (s : State) (d : Display) : OnlyChanges [.disp] s (s.setDisp d) := by
  simp [OnlyChanges, State.readByte]
theorem State.setMode_only (s : State) (m : ResMode) : OnlyChanges [.mode] s (s.setMode m) := by
  simp [OnlyChanges, State.readByte]
theorem State.setKeys_only (s : State) (k : Vector Bool 16) : OnlyChanges [.keys] s (s.setKeys k) := by
  simp [OnlyChanges, State.readByte]
theorem State.setWaitReg_only (s : State) (r : Option Nibble) : OnlyChanges [.waitReg] s (s.setWaitReg r) := by
  simp [OnlyChanges, State.readByte]
theorem State.setSched_only (s : State) (m : SchedMode) : OnlyChanges [.sched] s (s.setSched m) := by
  simp [OnlyChanges, State.readByte]
theorem State.setPendingDraw_only (s : State) (d : Option DrawRequest) : OnlyChanges [.pendingDraw] s (s.setPendingDraw d) := by
  simp [OnlyChanges, State.readByte]
theorem State.setRunning_only (s : State) (b : Bool) : OnlyChanges [.running] s (s.setRunning b) := by
  simp [OnlyChanges, State.readByte]
theorem State.setFault_only (s : State) (f : Option FatalRecord) : OnlyChanges [.fault] s (s.setFault f) := by
  simp [OnlyChanges, State.readByte]
theorem State.setAcc_only (s : State) (n : Nat) : OnlyChanges [.acc] s (s.setAcc n) := by
  simp [OnlyChanges, State.readByte]
theorem State.setInputs_only (s : State) (l : List Input) : OnlyChanges [.inputs] s (s.setInputs l) := by
  simp [OnlyChanges, State.readByte]
theorem State.setDraws_only (s : State) (n : Nat) : OnlyChanges [.draws] s (s.setDraws n) := by
  simp [OnlyChanges, State.readByte]
theorem State.emit_only (s : State) (o : Output) : OnlyChanges [.outputs] s (s.emit o) := by
  simp [OnlyChanges, State.readByte]
theorem State.setV_only (s : State) (x : Nibble) (v : Byte) : OnlyChanges [.V] s (s.setV x v) := by
  simp [OnlyChanges, State.readByte]
theorem State.writeByte_only (s : State) (a : Addr) (v : Byte) : OnlyChanges [.mem] s (s.writeByte a v) :=
  State.setMem_only s _
theorem State.advancePc_only (s : State) : OnlyChanges [.pc] s s.advancePc := State.setPc_only s _
theorem State.push_only (s : State) (a : Addr) : OnlyChanges [.stack] s (s.push a) := State.setStack_only s _
theorem State.drawn_only (s : State) : OnlyChanges [.draws] s s.drawn := State.setDraws_only s _

/-! ### Shared operations -/

theorem State.skipIf_only (s : State) (c : Bool) : OnlyChanges [.pc] s (s.skipIf c) := by
  unfold State.skipIf
  split
  · exact State.advancePc_only s
  · exact OnlyChanges.refl _ s

theorem State.writeST_only (s : State) (v : Byte) : OnlyChanges [.ST, .outputs] s (s.writeST v) := by
  have h := (State.setST_only s v).mono (qs := [.ST, .outputs]) (by simp)
  unfold State.writeST
  split
  · exact h.trans ((State.emit_only _ _).mono (by simp))
  · split
    · exact h.trans ((State.emit_only _ _).mono (by simp))
    · exact h

theorem State.writeWithFlag_only (s : State) (x : Nibble) (r f : Byte) : OnlyChanges [.V] s (s.writeWithFlag x r f) :=
  (State.setV_only s x r).trans (State.setV_only _ vF f)

theorem State.writeLogic_only (s : State) (x : Nibble) (r : Byte) : OnlyChanges [.V] s (s.writeLogic x r) := by
  unfold State.writeLogic
  split
  · exact (State.setV_only s x r).trans (State.setV_only _ vF _)
  · exact State.setV_only s x r

theorem DrawsOnly.onlyChanges {s t : State} (h : DrawsOnly s t) : OnlyChanges [.V, .disp] s t := by
  obtain ⟨d, f, rfl⟩ := h
  exact ((State.setV_only s vF f).mono (by simp)).trans ((State.setDisp_only _ d).mono (by simp))

theorem DrawsOnly.regs {s t : State} (h : DrawsOnly s t) : RegsSameExcept [vF] s t := by
  obtain ⟨d, f, rfl⟩ := h
  intro r hr
  simp at hr
  simp [hr]

theorem State.drawSprite_only (s : State) (d : DrawRequest) : OnlyChanges [.V, .disp] s (s.drawSprite d) :=
  (State.drawSprite_drawsOnly s d).onlyChanges

/-- Taking Fatal (R182): "Nothing else changes". -/
theorem raiseFatal_only (a : Addr) (w : Word) (s : State) : OnlyChanges [.fault, .running] s (raiseFatal a w s) :=
  ((State.setFault_only s _).mono (by simp)).trans ((State.setRunning_only _ _).mono (by simp))

/-- Signalling Underflow (R183): "no other state changes". -/
theorem signalUnderflow_only (s : State) : OnlyChanges [.pc, .underflow] s (signalUnderflow s) := by
  simp [OnlyChanges, signalUnderflow, State.readByte, State.getV]

theorem State.clearGrid_only (s : State) : OnlyChanges [.disp] s s.clearGrid := State.setDisp_only s _

theorem State.shiftGrid_only (s : State) (dx dy : Int) : OnlyChanges [.disp] s (s.shiftGrid dx dy) :=
  State.setDisp_only s _

theorem State.ageFade_only (s : State) : OnlyChanges [.disp] s s.ageFade := State.setDisp_only s _

theorem State.switchMode_only (s : State) (m : ResMode) : OnlyChanges [.mode, .disp] s (s.switchMode m) := by
  have h := (State.setMode_only s m).mono (qs := [.mode, .disp]) (by simp)
  unfold State.switchMode
  split
  · exact h.trans ((State.setDisp_only _ _).mono (by simp))
  · exact h

/-- Folding operations that each change only some parts. -/
theorem OnlyChanges.foldl {β : Type} {ps : List Part} (f : State → β → State) (h : ∀ s b, OnlyChanges ps s (f s b))
    (l : List β) (s : State) : OnlyChanges ps s (l.foldl f s) := by
  induction l generalizing s with
  | nil => exact OnlyChanges.refl ps s
  | cons b l ih => exact (h s b).trans (ih (f s b))

theorem State.pressKey_only (s : State) (i : Nat) : OnlyChanges [.keys] s (s.pressKey i) := State.setKeys_only s _

theorem State.releaseKey_only (s : State) (i : Nat) : OnlyChanges [.keys] s (s.releaseKey i) := State.setKeys_only s _

theorem State.writeWaiting_only (s : State) (k : Nibble) : OnlyChanges [.V] s (s.writeWaiting k) := by
  unfold State.writeWaiting
  split
  · exact State.setV_only s _ _
  · exact OnlyChanges.refl _ s

theorem State.pickDrawn_only (s : State) : OnlyChanges [.draws] s s.pickDrawn := by
  unfold State.pickDrawn
  split
  · exact OnlyChanges.refl _ s
  · exact State.drawn_only s

theorem State.captureKey_only (s : State) (k : Nibble) :
    OnlyChanges [.V, .keys, .waitReg, .sched, .draws] s (s.captureKey k) := by
  refine ((State.writeWaiting_only s k).mono (by simp)).trans ?_
  refine ((State.releaseKey_only _ k.toNat).mono (by simp)).trans ?_
  refine ((State.setWaitReg_only _ none).mono (by simp)).trans ?_
  exact ((State.setSched_only _ .running).mono (by simp)).trans ((State.pickDrawn_only _).mono (by simp))

theorem State.pollKeys_only (s : State) : OnlyChanges [.V, .keys, .waitReg, .sched, .draws] s s.pollKeys := by
  unfold State.pollKeys
  split
  · exact OnlyChanges.refl _ s
  · exact State.captureKey_only s _

theorem State.decrementTimers_only (s : State) : OnlyChanges [.DT, .ST, .outputs] s s.decrementTimers := by
  have h : OnlyChanges [.DT, .ST, .outputs] s (if s.DT ≠ 0 then s.setDT (s.DT - 1) else s) := by
    split
    · exact (State.setDT_only s _).mono (by simp)
    · exact OnlyChanges.refl _ s
  unfold State.decrementTimers
  simp only
  split
  · exact h.trans ((State.writeST_only _ _).mono (by simp))
  · exact h

theorem State.flushDraw_only (s : State) : OnlyChanges [.V, .disp, .pendingDraw, .sched] s s.flushDraw := by
  unfold State.flushDraw
  split
  · rename_i d _ _
    refine ((State.drawSprite_only s d).mono (by simp)).trans ?_
    exact ((State.setPendingDraw_only _ none).mono (by simp)).trans ((State.setSched_only _ _).mono (by simp))
  · exact (State.setSched_only s _).mono (by simp)
  · exact OnlyChanges.refl _ s
  · exact OnlyChanges.refl _ s

/-- Everything a refresh can change, without a draw waiting: the display and the outputs. -/
theorem State.refresh_only (s : State) :
    OnlyChanges [.V, .disp, .pendingDraw, .sched, .outputs] s s.refresh := by
  refine ((State.flushDraw_only s).mono (by simp)).trans ?_
  exact ((State.emit_only _ _).mono (by simp)).trans ((State.ageFade_only _).mono (by simp))

/-- Everything `Tick60` can change. -/
theorem State.tick60_only (s : State) :
    OnlyChanges [.DT, .ST, .outputs, .disp, .V, .sched, .pendingDraw] s s.tick60 :=
  ((State.decrementTimers_only s).mono (by simp)).trans ((State.refresh_only _).mono (by simp))

end Sys2Proof.Machine
end

