-- ==== Sys2Proof/Laws/Ops.lean ====
section
/-! SUPPORT. One lemma per shared operation that says what it does: narrowing arithmetic, flags, skips, the sound timer,
the timers, keys, the bulk moves, and taking the error conditions. -/

namespace Sys2Proof.Machine

/-! ### Narrowing arithmetic (R133) -/

theorem u8_toNat (v : Nat) : (u8 v).toNat = v % 256 := by simp [u8]
theorem u12_toNat (v : Nat) : (u12 v).toNat = v % 4096 := by simp [u12]

theorem add8_toNat (a b : Byte) : (add8 a b).toNat = (a.toNat + b.toNat) % 256 := u8_toNat _

theorem sub8_toNat (a b : Byte) : ((sub8 a b).toNat : Int) = ((a.toNat : Int) - b.toNat) % 256 := by
  have := b.isLt
  rw [sub8, u8_toNat]
  omega

theorem shr8_eq (t : Byte) : shr8 t = t >>> 1 := by
  apply BitVec.eq_of_toNat_eq
  have := t.isLt
  rw [shr8, u8_toNat, BitVec.toNat_ushiftRight, Nat.shiftRight_eq_div_pow]
  omega

theorem shl8_eq (t : Byte) : shl8 t = t <<< 1 := by
  apply BitVec.eq_of_toNat_eq
  rw [shl8, u8_toNat, BitVec.toNat_shiftLeft, Nat.shiftLeft_eq]

/-! ### Flags (R22) -/

theorem carryFlag_eq (a b : Byte) : carryFlag a b = if a.toNat + b.toNat > 255 then 1 else 0 := by
  simp [carryFlag, flagByte]

theorem noBorrowFlag_eq (a b : Byte) : noBorrowFlag a b = if b.toNat ≤ a.toNat then 1 else 0 := by
  simp [noBorrowFlag, flagByte]

theorem shiftedOutLow_eq (t : Byte) : shiftedOutLow t = if t.getLsbD 0 then 1 else 0 := by
  revert t; decide

theorem shiftedOutHigh_eq (t : Byte) : shiftedOutHigh t = if t.getLsbD 7 then 1 else 0 := by
  revert t; decide

theorem indexWrapFlag_eq (a : Addr) (v : Byte) : indexWrapFlag a v = if a.toNat + v.toNat > 0xFFF then 1 else 0 := by
  simp [indexWrapFlag, flagByte]

/-- Result, then flag: the flag wins where the destination is VF (R132). -/
theorem State.getV_writeWithFlag (s : State) (x y : Nibble) (r f : Byte) :
    (s.writeWithFlag x r f).getV y = if y = vF then f else if y = x then r else s.getV y := by
  simp [State.writeWithFlag]

theorem State.getV_writeLogic (s : State) (x y : Nibble) (r : Byte) :
    (s.writeLogic x r).getV y =
      if s.cfg.q.logicClearsVF = true ∧ y = vF then 0 else if y = x then r else s.getV y := by
  unfold State.writeLogic
  by_cases h : s.cfg.q.logicClearsVF = true
  · simp [h]
  · simp [h]

/-! ### Skips (R105) -/

theorem State.skipIf_pc (s : State) (c : Bool) :
    (s.skipIf c).pc.toNat = if c then (s.pc.toNat + 2) % 4096 else s.pc.toNat := by
  unfold State.skipIf
  cases c
  · simp
  · simp [BitVec.toNat_add]

/-! ### The sound timer and the tick's countdown (R27, R189) -/

@[simp] theorem State.writeST_ST (s : State) (v : Byte) : (s.writeST v).ST = v := by
  unfold State.writeST
  split
  · rfl
  · split <;> rfl

theorem State.writeST_outputs (s : State) (v : Byte) :
    (s.writeST v).outputs =
      if s.ST = 0 ∧ v ≠ 0 then .toneStart :: s.outputs
      else if s.ST ≠ 0 ∧ v = 0 then .toneStop :: s.outputs else s.outputs := by
  unfold State.writeST
  split
  · rfl
  · split <;> rfl

theorem byte_sub_one_toNat {v : Byte} (h : v ≠ 0) : (v - 1).toNat = v.toNat - 1 := by
  have h0 : v.toNat ≠ 0 := fun hc => h (BitVec.eq_of_toNat_eq hc)
  have := v.isLt
  rw [BitVec.toNat_sub]
  have : (1 : Byte).toNat = 1 := rfl
  omega

theorem State.decrementTimers_DT (s : State) : s.decrementTimers.DT.toNat = s.DT.toNat - 1 := by
  have hw : ∀ (t : State) (v : Byte), (t.writeST v).DT = t.DT := fun t v =>
    (State.writeST_only t v).2.2.2.2.2.1 (by decide)
  have h : s.decrementTimers.DT = if s.DT ≠ 0 then s.DT - 1 else s.DT := by
    unfold State.decrementTimers
    by_cases hd : s.DT ≠ 0 <;> by_cases hs : s.ST ≠ 0
    · simp only [if_pos hd, if_pos hs, hw]; rfl
    · simp only [if_pos hd, if_neg hs]; rfl
    · simp only [if_neg hd, if_pos hs, hw]
    · simp only [if_neg hd, if_neg hs]
  rw [h]
  by_cases hd : s.DT ≠ 0
  · rw [if_pos hd, byte_sub_one_toNat hd]
  · rw [if_neg hd, not_not.mp hd]; rfl

theorem State.decrementTimers_ST (s : State) : s.decrementTimers.ST.toNat = s.ST.toNat - 1 := by
  unfold State.decrementTimers
  by_cases hs : s.ST ≠ 0
  · simp only [if_pos hs, State.writeST_ST]
    exact byte_sub_one_toNat hs
  · simp only [if_neg hs]
    have h : (if s.DT ≠ 0 then s.setDT (s.DT - 1) else s).ST = s.ST := by split <;> rfl
    rw [h, not_not.mp hs]; rfl

/-- "ToneStop" exactly when ST reaches 0 (R189). -/
theorem State.decrementTimers_outputs (s : State) :
    s.decrementTimers.outputs = if s.ST = 1 then .toneStop :: s.outputs else s.outputs := by
  have ho : (if s.DT ≠ 0 then s.setDT (s.DT - 1) else s).outputs = s.outputs := by split <;> rfl
  have hST : (if s.DT ≠ 0 then s.setDT (s.DT - 1) else s).ST = s.ST := by split <;> rfl
  unfold State.decrementTimers
  by_cases hs : s.ST ≠ 0
  · simp only [if_pos hs, State.writeST_outputs, ho, hST]
    have : s.ST - 1 = 0 ↔ s.ST = 1 := by
      constructor
      · intro h
        have h2 := congrArg (· + 1) h
        simpa using h2
      · intro h; rw [h]; rfl
    by_cases h1 : s.ST = 1
    · rw [if_neg (fun hc => hs hc.1), if_pos ⟨hs, this.mpr h1⟩, if_pos h1]
    · rw [if_neg (fun hc => hs hc.1), if_neg (fun hc => h1 (this.mp hc.2)), if_neg h1]
  · simp only [if_neg hs, ho]
    rw [if_neg]
    intro h
    rw [not_not.mp hs] at h
    exact absurd h (by decide)

theorem State.decrementTimers_disp (s : State) : s.decrementTimers.disp = s.disp := by
  have hw : ∀ (t : State) (v : Byte), (t.writeST v).disp = t.disp := by
    intro t v
    unfold State.writeST
    split
    · rfl
    · split <;> rfl
  have hd : (if s.DT ≠ 0 then s.setDT (s.DT - 1) else s).disp = s.disp := by split <;> rfl
  unfold State.decrementTimers
  simp only
  split
  · rw [hw, hd]
  · exact hd

/-- The countdown of the timers changes nothing a draw looks at. -/
theorem State.decrementTimers_view (s : State) : SameDrawView s s.decrementTimers := by
  have hw : ∀ (t : State) (v : Byte), SameDrawView t (t.writeST v) := by
    intro t v
    unfold State.writeST
    split
    · exact ⟨rfl, rfl, rfl, rfl, rfl, rfl⟩
    · split <;> exact ⟨rfl, rfl, rfl, rfl, rfl, rfl⟩
  have hd : SameDrawView s (if s.DT ≠ 0 then s.setDT (s.DT - 1) else s) := by
    split <;> exact ⟨rfl, rfl, rfl, rfl, rfl, rfl⟩
  unfold State.decrementTimers
  simp only
  split
  · obtain ⟨a1, a2, a3, a4, a5, a6⟩ := hw (if s.DT ≠ 0 then s.setDT (s.DT - 1) else s) (s.ST - 1)
    obtain ⟨b1, b2, b3, b4, b5, b6⟩ := hd
    exact ⟨a1.trans b1, a2.trans b2, a3.trans b3, a4.trans b4, a5.trans b5, a6.trans b6⟩
  · exact hd

/-! ### The refresh edge (R192, R194) -/

theorem State.flushDraw_of_not_waiting {s : State} (h : s.sched ≠ .waitingForVblank) : s.flushDraw = s := by
  unfold State.flushDraw
  split
  · exact absurd ‹_› h
  · exact absurd ‹_› h
  · rfl
  · rfl

theorem State.flushDraw_of_waiting {s : State} {d : DrawRequest} (h : s.sched = .waitingForVblank)
    (hd : s.pendingDraw = some d) : s.flushDraw = ((s.drawSprite d).setPendingDraw none).setSched .running := by
  unfold State.flushDraw
  rw [h, hd]

theorem State.decrementTimers_sched (s : State) : s.decrementTimers.sched = s.sched :=
  (State.decrementTimers_only s).2.2.2.2.2.2.2.2.2.2.2.1 (by decide)

theorem State.decrementTimers_pendingDraw (s : State) : s.decrementTimers.pendingDraw = s.pendingDraw :=
  (State.decrementTimers_only s).2.2.2.2.2.2.2.2.2.2.2.2.1 (by decide)

theorem State.flushDraw_outputs (s : State) : s.flushDraw.outputs = s.outputs :=
  (State.flushDraw_only s).2.2.2.2.2.2.2.2.2.2.2.2.2.2.2.2.2.2.2.2.1 (by decide)

/-- The outputs of a tick: the snapshot after the flush, on top of what the countdown emitted. -/
theorem State.tick60_outputs (s : State) :
    s.tick60.outputs = s.decrementTimers.flushDraw.snapshot :: s.decrementTimers.outputs := by
  show s.decrementTimers.flushDraw.snapshot :: s.decrementTimers.flushDraw.outputs = _
  rw [State.flushDraw_outputs]

theorem State.refresh_DT (s : State) : s.refresh.DT = s.DT := (State.refresh_only s).2.2.2.2.2.1 (by decide)

theorem State.refresh_ST (s : State) : s.refresh.ST = s.ST := (State.refresh_only s).2.2.2.2.2.2.1 (by decide)

/-- After a tick the core does not wait for a refresh edge. -/
theorem State.tick60_sched (s : State) :
    s.tick60.sched = if s.sched = .waitingForVblank then .running else s.sched := by
  show s.decrementTimers.flushDraw.sched = _
  by_cases h : s.sched = .waitingForVblank
  · have h' : s.decrementTimers.sched = .waitingForVblank := (State.decrementTimers_sched s).trans h
    rw [if_pos h]
    unfold State.flushDraw
    rw [h']
    cases s.decrementTimers.pendingDraw <;> rfl
  · rw [if_neg h, State.flushDraw_of_not_waiting (by rw [State.decrementTimers_sched]; exact h),
      State.decrementTimers_sched]

/-! ### Keys (R191, R197) -/

theorem State.keyDown_pressKey (s : State) (i j : Nibble) :
    (s.pressKey i.toNat).keyDown j = (s.keyDown j || j == i) := by
  have hi := i.isLt
  simp only [State.keyDown, State.pressKey, State.setKeys_keys]
  rw [Vector.getElem_setIfInBounds]
  by_cases h : i.toNat = j.toNat
  · have : j = i := (BitVec.eq_of_toNat_eq h).symm
    simp [this]
  · have hne : j ≠ i := fun hc => h (by rw [hc])
    rw [if_neg h]
    simp [hne]

theorem State.keyDown_releaseKey (s : State) (i j : Nibble) :
    (s.releaseKey i.toNat).keyDown j = (s.keyDown j && j != i) := by
  simp only [State.keyDown, State.releaseKey, State.setKeys_keys]
  rw [Vector.getElem_setIfInBounds]
  by_cases h : i.toNat = j.toNat
  · have : j = i := (BitVec.eq_of_toNat_eq h).symm
    simp [this]
  · have hne : j ≠ i := fun hc => h (by rw [hc])
    rw [if_neg h]
    simp [hne]

theorem State.mem_pressedKeys (s : State) (k : Nibble) : k ∈ s.pressedKeys ↔ s.keyDown k = true := by
  simp only [State.pressedKeys, List.mem_filter, List.mem_map, List.mem_range, and_iff_right_iff_imp]
  intro _
  exact ⟨k.toNat, k.isLt, by simp⟩

theorem State.pressedKeys_eq_nil (s : State) : s.pressedKeys = [] ↔ ∀ k, s.keyDown k = false := by
  rw [List.eq_nil_iff_forall_not_mem]
  simp only [State.mem_pressedKeys, Bool.not_eq_true]

/-- The captured key is a pressed one. -/
theorem State.keyDown_pickKey (s : State) (h : s.pressedKeys ≠ []) : s.keyDown s.pickKey = true := by
  rw [← State.mem_pressedKeys]
  have hpos : 0 < s.pressedKeys.length := List.length_pos_of_ne_nil h
  unfold State.pickKey
  split
  · obtain ⟨k, l, hk⟩ := List.exists_cons_of_ne_nil h
    rw [hk]
    exact List.mem_cons_self
  · have hlt := Nat.mod_lt (Config.pickKey s.draws) hpos
    rw [List.getD_eq_getElem?_getD, List.getElem?_eq_getElem hlt]
    exact List.getElem_mem hlt

/-- By default it is the lowest pressed one (R191). -/
theorem State.pickKey_lowest (s : State) (hk : s.cfg.params.keyPick = .lowest) {j : Nibble}
    (hj : j.toNat < s.pickKey.toNat) : s.keyDown j = false := by
  by_contra hc
  have hm : j ∈ s.pressedKeys := (State.mem_pressedKeys s j).mpr (by simpa using hc)
  have hs : s.pressedKeys.Pairwise (fun a b => a.toNat < b.toNat) := by
    unfold State.pressedKeys
    refine List.Pairwise.filter _ ?_
    rw [List.pairwise_map]
    refine List.Pairwise.imp_of_mem ?_ (List.pairwise_lt_range (n := 16))
    intro a b ha hb hab
    have ha := List.mem_range.mp ha
    have hb := List.mem_range.mp hb
    rw [BitVec.toNat_ofNat, BitVec.toNat_ofNat]
    omega
  unfold State.pickKey at hj
  rw [hk] at hj
  cases hl : s.pressedKeys with
  | nil => rw [hl] at hm; exact List.not_mem_nil hm
  | cons k l =>
    rw [hl] at hm hs hj
    simp only [List.headD_cons] at hj
    rcases List.mem_cons.mp hm with rfl | hm
    · omega
    · have := List.rel_of_pairwise_cons hs hm
      omega

/-! ### The bulk moves (R145, R146) -/

theorem State.foldl_storeReg_getV (s : State) (l : List Nat) (y : Nibble) :
    (l.foldl State.storeReg s).getV y = s.getV y :=
  (OnlyChanges.foldl State.storeReg (ps := [.mem]) (fun t _ => State.writeByte_only t _ _) l s).1 (by decide) y

theorem State.foldl_storeReg_I (s : State) (l : List Nat) : (l.foldl State.storeReg s).I = s.I :=
  (OnlyChanges.foldl State.storeReg (ps := [.mem]) (fun t _ => State.writeByte_only t _ _) l s).2.1 (by decide)

/-- A byte after a bulk store of the first `n` registers: `V[i]` at `u12(I + i)`, every other byte as before. -/
theorem State.readByte_storeRegs (s : State) {n : Nat} (hn : n ≤ 16) (a : Addr) :
    ((List.range n).foldl State.storeReg s).readByte a =
      if (a - s.I).toNat < n then s.getV (regOfNat (a - s.I).toNat) else s.readByte a := by
  induction n with
  | zero => simp
  | succ n ih =>
    rw [List.range_succ, List.foldl_append, List.foldl_cons, List.foldl_nil, State.storeReg,
      State.readByte_writeByte, State.effAddr, State.foldl_storeReg_I, State.foldl_storeReg_getV, ih (by omega)]
    have ha := a.isLt
    have hI := s.I.isLt
    have hd : (a - s.I).toNat = (4096 - s.I.toNat + a.toNat) % 4096 := BitVec.toNat_sub a s.I
    by_cases h : a = u12 (s.I.toNat + n)
    · have h2 := congrArg BitVec.toNat h
      rw [u12_toNat] at h2
      have h3 : (a - s.I).toNat = n := by omega
      rw [if_pos h, if_pos (by omega), h3]
    · have h3 : (a - s.I).toNat ≠ n := by
        intro hc
        apply h
        apply BitVec.eq_of_toNat_eq
        rw [u12_toNat]
        omega
      rw [if_neg h]
      by_cases h4 : (a - s.I).toNat < n
      · rw [if_pos h4, if_pos (by omega)]
      · rw [if_neg h4, if_neg (by omega)]

theorem State.foldl_loadReg_only (s : State) (l : List Nat) : OnlyChanges [.V] s (l.foldl State.loadReg s) :=
  OnlyChanges.foldl State.loadReg (fun t _ => State.setV_only t _ _) l s

/-- A register after a bulk load of the first `n` registers. -/
theorem State.getV_loadRegs (s : State) {n : Nat} (hn : n ≤ 16) (y : Nibble) :
    ((List.range n).foldl State.loadReg s).getV y =
      if y.toNat < n then s.readByte (s.effAddr y.toNat) else s.getV y := by
  induction n with
  | zero => simp
  | succ n ih =>
    have hf := State.foldl_loadReg_only s (List.range n)
    have hmem := hf.2.2.2.1 (by decide)
    have hI := hf.2.1 (by decide)
    rw [List.range_succ, List.foldl_append, List.foldl_cons, List.foldl_nil, State.loadReg, State.getV_setV,
      hmem, State.effAddr, hI, ih (by omega)]
    by_cases h : y = regOfNat n
    · have h2 : y.toNat = n := by rw [h, regOfNat_toNat (by omega)]
      rw [if_pos h, if_pos (by omega), h2]
      rfl
    · have h2 : y.toNat ≠ n := by
        intro hc
        apply h
        rw [← hc, regOfNat_toNat_self]
      rw [if_neg h]
      by_cases h3 : y.toNat < n
      · rw [if_pos h3, if_pos (by omega)]
      · rw [if_neg h3, if_neg (by omega)]

theorem State.bulkIndex_toNat (s : State) (x : Nibble) :
    (s.cfg.q.memIncrement = .byXPlus1 → (s.bulkIndex x).toNat = (s.I.toNat + x.toNat + 1) % 4096) ∧
    (s.cfg.q.memIncrement = .byX → (s.bulkIndex x).toNat = (s.I.toNat + x.toNat) % 4096) ∧
    (s.cfg.q.memIncrement = .unchanged → s.bulkIndex x = s.I) := by
  refine ⟨fun h => ?_, fun h => ?_, fun h => ?_⟩ <;> simp [State.bulkIndex, h, u12]

/-! ### Sprites (R153) -/

theorem State.spriteBit_eq (s : State) (bpr r b : Nat) :
    s.spriteBit bpr r b = (s.readByte (s.I + BitVec.ofNat 12 (r * bpr + b / 8))).getLsbD (7 - b % 8) := by
  rw [State.spriteBit, State.effAddr_eq_add]

theorem State.landing_eq_some (s : State) {x0 y0 bpr r b px py : Nat} (hx : px < s.mode.width)
    (hy : py < s.mode.height) :
    s.landing x0 y0 bpr r b = some (px, py) ↔
      s.spriteBit bpr r b = true ∧
      (s.cfg.q.spriteEdge = .wrap → px = (x0 + b) % s.mode.width ∧ py = (y0 + r) % s.mode.height) ∧
      (s.cfg.q.spriteEdge = .clip → px = x0 + b ∧ py = y0 + r) := by
  unfold State.landing
  by_cases hsb : s.spriteBit bpr r b = true
  · cases hq : s.cfg.q.spriteEdge
    · simp [hsb, eq_comm]
    · simp only [hsb, if_true]
      split
      · simp only [reduceCtorEq, false_iff]
        rintro ⟨_, _, h⟩
        have := h trivial
        omega
      · simp [eq_comm]
  · simp [hsb]

/-- The pixels a sprite covers (Safety.lean) are those it toggles. -/
theorem spriteCovers_iff (s : State) (d : DrawRequest) {px py : Nat} (hx : px < s.mode.width)
    (hy : py < s.mode.height) : SpriteCovers s d px py ↔ (px, py) ∈ s.landings d := by
  have hs : spriteShape s.mode d.n = (if d.n = 0 ∧ s.mode = .hires then (16, 2) else (d.n.toNat, 1)) := rfl
  rw [State.mem_landings]
  unfold SpriteCovers
  simp only [State.landing_eq_some s hx hy, hs, State.spriteBit_eq]
  by_cases h : d.n = 0 ∧ s.mode = .hires
  · simp only [if_pos h]
    exact ⟨fun ⟨r, b, h1, h2, h3⟩ => ⟨r, h1, b, h2, h3⟩, fun ⟨r, h1, b, h2, h3⟩ => ⟨r, b, h1, h2, h3⟩⟩
  · simp only [if_neg h]
    exact ⟨fun ⟨r, b, h1, h2, h3⟩ => ⟨r, h1, b, h2, h3⟩, fun ⟨r, h1, b, h2, h3⟩ => ⟨r, b, h1, h2, h3⟩⟩

theorem spriteCollides_iff (s : State) (d : DrawRequest) :
    SpriteCollides s d ↔ ∃ p ∈ s.landings d, s.pixOn p.1 p.2 = true := by
  constructor
  · rintro ⟨px, hx, py, hy, hc, ho⟩
    exact ⟨(px, py), (spriteCovers_iff s d hx hy).mp hc, ho⟩
  · rintro ⟨⟨px, py⟩, hp, ho⟩
    have h := State.landings_lt s d _ hp
    exact ⟨px, h.1, py, h.2, (spriteCovers_iff s d h.1 h.2).mpr hp, ho⟩

/-! ### Memory keeps its canonical form -/

theorem State.wf_writeByte {s : State} (h : Memory.wf s.mem) (a : Addr) (v : Byte) :
    Memory.wf (s.writeByte a v).mem := Memory.wf_write h a v

theorem State.wf_foldl_storeReg {s : State} (h : Memory.wf s.mem) (l : List Nat) :
    Memory.wf (l.foldl State.storeReg s).mem := by
  induction l generalizing s with
  | nil => exact h
  | cons i l ih => exact ih (State.wf_writeByte h _ _)

theorem State.foldl_loadReg_mem (s : State) (l : List Nat) : (l.foldl State.loadReg s).mem = s.mem := by
  induction l generalizing s with
  | nil => rfl
  | cons i l ih => exact ih (s.loadReg i)

theorem wf_loadedMemory (font image : List Byte) : Memory.wf (loadedMemory font image) :=
  Memory.wf_writeBytes (Memory.wf_writeBytes Memory.wf_nil _ _) _ _

/-- A byte after a load (R42, R210). -/
theorem read_loadedMemory (font image : List Byte) (hf : font.length = 512) (hi : image.length ≤ 3584) (a : Addr) :
    (loadedMemory font image).read a =
      if a.toNat < 0x200 then font.getD a.toNat 0
      else if a.toNat < 0x200 + image.length then image.getD (a.toNat - 0x200) 0 else 0 := by
  have h200 : startAddr.toNat = 0x200 := rfl
  have h0 : (0x000#12).toNat = 0 := rfl
  unfold loadedMemory
  rw [Memory.read_writeBytes _ _ _ _ (by omega), h200, Memory.read_writeBytes _ _ _ _ (by omega), h0, hf]
  by_cases h : a.toNat < 0x200
  · rw [if_neg (by omega), if_pos (by omega), if_pos h]
    rfl
  · rw [if_neg (show ¬ a.toNat < 0x200 from h)]
    by_cases h2 : a.toNat < 0x200 + image.length
    · rw [if_pos ⟨by omega, h2⟩, if_pos h2]
    · rw [if_neg (by omega), if_neg (by omega), if_neg h2, Memory.read_nil, Memory.initial, if_neg (by omega)]
      rfl

end Sys2Proof.Machine
end

