-- ==== Sys2Proof/Laws/Exec.lean ====
section
/-! SUPPORT. Whole instructions and events: the outcome is always a next state, an instruction neither reads nor writes
the queue, and every instruction keeps the canonical forms. -/

namespace Sys2Proof.Machine

/-- An instruction has no outcome but a next state. -/
theorem exec_next (i : Instr) (s : State) : ∃ t, exec i s = .next t := by
  cases i
  case ret => simp only [exec, execRet]; split <;> exact ⟨_, rfl⟩
  case drw => simp only [exec, execDrw]; split <;> exact ⟨_, rfl⟩
  case addI => simp only [exec, execAddI]; split <;> exact ⟨_, rfl⟩
  all_goals exact ⟨_, rfl⟩

theorem stepInstr_next (s : State) : ∃ t, stepInstr s = .next t := by
  unfold stepInstr
  split
  · exact exec_next _ _
  · exact ⟨_, rfl⟩

/-! ### The queue -/

theorem State.writeLogic_setInputs (s : State) (x : Nibble) (r : Byte) (l : List Input) :
    (s.setInputs l).writeLogic x r = (s.writeLogic x r).setInputs l := by
  by_cases h : s.cfg.q.logicClearsVF = true
  · have h' : (s.setInputs l).cfg.q.logicClearsVF = true := h
    simp only [State.writeLogic, if_pos h, if_pos h']
    rfl
  · have h' : ¬ (s.setInputs l).cfg.q.logicClearsVF = true := h
    simp only [State.writeLogic, if_neg h, if_neg h']
    rfl

theorem State.skipIf_setInputs (s : State) (c : Bool) (l : List Input) :
    (s.setInputs l).skipIf c = (s.skipIf c).setInputs l := by
  unfold State.skipIf
  split <;> rfl

theorem State.writeST_setInputs (s : State) (v : Byte) (l : List Input) :
    (s.setInputs l).writeST v = (s.writeST v).setInputs l := by
  by_cases h : s.ST = 0 ∧ v ≠ 0
  · have h' : (s.setInputs l).ST = 0 ∧ v ≠ 0 := h
    simp only [State.writeST, if_pos h, if_pos h']
    rfl
  · have h' : ¬ ((s.setInputs l).ST = 0 ∧ v ≠ 0) := h
    by_cases h2 : s.ST ≠ 0 ∧ v = 0
    · have h2' : (s.setInputs l).ST ≠ 0 ∧ v = 0 := h2
      simp only [State.writeST, if_neg h, if_neg h', if_pos h2, if_pos h2']
      rfl
    · have h2' : ¬ ((s.setInputs l).ST ≠ 0 ∧ v = 0) := h2
      simp only [State.writeST, if_neg h, if_neg h', if_neg h2, if_neg h2']
      rfl

theorem State.switchMode_setInputs (s : State) (m : ResMode) (l : List Input) :
    (s.setInputs l).switchMode m = (s.switchMode m).setInputs l := by
  by_cases h : s.cfg.params.modeSwitchClears = true
  · have h' : (s.setInputs l).cfg.params.modeSwitchClears = true := h
    simp only [State.switchMode, if_pos h, if_pos h']
    rfl
  · have h' : ¬ (s.setInputs l).cfg.params.modeSwitchClears = true := h
    simp only [State.switchMode, if_neg h, if_neg h']
    rfl

theorem State.foldl_storeReg_setInputs (s : State) (l : List Input) (is : List Nat) :
    is.foldl State.storeReg (s.setInputs l) = (is.foldl State.storeReg s).setInputs l := by
  induction is generalizing s with
  | nil => rfl
  | cons i is ih => exact ih (s.storeReg i)

theorem State.foldl_loadReg_setInputs (s : State) (l : List Input) (is : List Nat) :
    is.foldl State.loadReg (s.setInputs l) = (is.foldl State.loadReg s).setInputs l := by
  induction is generalizing s with
  | nil => rfl
  | cons i is ih => exact ih (s.loadReg i)

/-- An instruction neither reads nor writes the queue. -/
theorem exec_setInputs {i : Instr} {s t : State} (l : List Input) (h : exec i s = .next t) :
    exec i (s.setInputs l) = .next (t.setInputs l) := by
  have key : ∀ {a b c : State}, Host.Outcome.next (φ := Fault) (ρ := Refusal) a = .next b → c = a.setInputs l →
      Host.Outcome.next (φ := Fault) (ρ := Refusal) c = .next (b.setInputs l) := by
    intro a b c h hc
    rw [hc, Host.Outcome.next.inj h]
  cases i
  case ret =>
    simp only [exec, execRet] at *
    simp only [State.setInputs_stack]
    split at h
    · exact key h rfl
    · exact key h rfl
  case drw x y n =>
    by_cases hc : s.cfg.q.vblankSync = true
    · have hc' : (s.setInputs l).cfg.q.vblankSync = true := hc
      simp only [exec, execDrw, if_pos hc, if_pos hc'] at *
      exact key h rfl
    · have hc' : ¬ (s.setInputs l).cfg.q.vblankSync = true := hc
      simp only [exec, execDrw, if_neg hc, if_neg hc'] at *
      exact key h (State.drawSprite_setInputs s _ l)
  case addI =>
    by_cases hc : s.cfg.params.addISetsVF = true
    · have hc' : (s.setInputs l).cfg.params.addISetsVF = true := hc
      simp only [exec, execAddI, if_pos hc, if_pos hc'] at *
      exact key h rfl
    · have hc' : ¬ (s.setInputs l).cfg.params.addISetsVF = true := hc
      simp only [exec, execAddI, if_neg hc, if_neg hc'] at *
      exact key h rfl
  case or => exact key h (State.writeLogic_setInputs _ _ _ _)
  case and => exact key h (State.writeLogic_setInputs _ _ _ _)
  case xor => exact key h (State.writeLogic_setInputs _ _ _ _)
  case seImm => exact key h (State.skipIf_setInputs _ _ _)
  case sneImm => exact key h (State.skipIf_setInputs _ _ _)
  case seReg => exact key h (State.skipIf_setInputs _ _ _)
  case sneReg => exact key h (State.skipIf_setInputs _ _ _)
  case skp => exact key h (State.skipIf_setInputs _ _ _)
  case sknp => exact key h (State.skipIf_setInputs _ _ _)
  case low => exact key h (State.switchMode_setInputs _ _ _)
  case high => exact key h (State.switchMode_setInputs _ _ _)
  case ldSTVx => exact key h (State.writeST_setInputs _ _ _)
  case storeRegs x =>
    exact key h (congrArg (fun u => State.setI u (s.bulkIndex x)) (State.foldl_storeReg_setInputs s l _))
  case loadRegs x =>
    exact key h (congrArg (fun u => State.setI u (s.bulkIndex x)) (State.foldl_loadReg_setInputs s l _))
  all_goals exact key h rfl

theorem stepInstr_setInputs {s t : State} (l : List Input) (h : stepInstr s = .next t) :
    stepInstr (s.setInputs l) = .next (t.setInputs l) := by
  unfold stepInstr at *
  have hf : (s.setInputs l).fetchWord = s.fetchWord := rfl
  rw [hf]
  split at h
  · exact exec_setInputs l h
  · rw [← Host.Outcome.next.inj h]
    rfl

theorem exec_inputs {i : Instr} {s t : State} (h : exec i s = .next t) : t.inputs = s.inputs := by
  have h2 := exec_setInputs s.inputs h
  have h3 : s.setInputs s.inputs = s := rfl
  rw [h3, h] at h2
  rw [Host.Outcome.next.inj h2]
  rfl

/-- A key poll neither reads nor writes the queue. -/
theorem State.pollKeys_setInputs (s : State) (l : List Input) : (s.setInputs l).pollKeys = s.pollKeys.setInputs l := by
  have hp : (s.setInputs l).pickKey = s.pickKey := rfl
  have hk : (s.setInputs l).pressedKeys = s.pressedKeys := rfl
  have hw : ∀ k, (s.setInputs l).writeWaiting k = (s.writeWaiting k).setInputs l := by
    intro k
    unfold State.writeWaiting
    rw [State.setInputs_waitReg]
    cases s.waitReg <;> rfl
  have hd : ∀ u : State, (u.setInputs l).pickDrawn = u.pickDrawn.setInputs l := by
    intro u
    unfold State.pickDrawn
    rw [State.setInputs_cfg]
    cases u.cfg.params.keyPick <;> rfl
  unfold State.pollKeys
  rw [hk, hp]
  by_cases h : s.pressedKeys = []
  · rw [if_pos h, if_pos h]
  · rw [if_neg h, if_neg h]
    unfold State.captureKey
    rw [hw, ← hd]
    rfl

/-! ### The canonical forms -/

/-- Memory keeps its canonical form in every instruction: only the three storing ones touch it. -/
theorem exec_wf_mem {i : Instr} {s t : State} (hm : Memory.wf s.mem) (h : exec i s = .next t) : Memory.wf t.mem := by
  have key : ∀ {a : State}, Host.Outcome.next (φ := Fault) (ρ := Refusal) a = .next t → Memory.wf a.mem →
      Memory.wf t.mem := by
    intro a h ha
    rw [← Host.Outcome.next.inj h]
    exact ha
  have hif : ∀ (c : Bool), (s.skipIf c).mem = s.mem := fun c => by unfold State.skipIf; split <;> rfl
  have hlog : ∀ x r, (s.writeLogic x r).mem = s.mem := fun x r => by unfold State.writeLogic; split <;> rfl
  have hsw : ∀ m, (s.switchMode m).mem = s.mem := fun m => by unfold State.switchMode; split <;> rfl
  have hdr : ∀ d, (s.drawSprite d).mem = s.mem := fun d => by rw [State.drawSprite_eq]
  have hst : ∀ v, (s.writeST v).mem = s.mem := fun v => by
    unfold State.writeST
    split
    · rfl
    · split <;> rfl
  cases i
  case ret =>
    simp only [exec, execRet] at h
    split at h <;> exact key h hm
  case drw =>
    simp only [exec, execDrw] at h
    split at h
    · exact key h hm
    · exact key h (by rw [hdr]; exact hm)
  case addI =>
    simp only [exec, execAddI] at h
    split at h <;> exact key h hm
  case or => exact key h (by rw [hlog]; exact hm)
  case and => exact key h (by rw [hlog]; exact hm)
  case xor => exact key h (by rw [hlog]; exact hm)
  case seImm => exact key h (by rw [hif]; exact hm)
  case sneImm => exact key h (by rw [hif]; exact hm)
  case seReg => exact key h (by rw [hif]; exact hm)
  case sneReg => exact key h (by rw [hif]; exact hm)
  case skp => exact key h (by rw [hif]; exact hm)
  case sknp => exact key h (by rw [hif]; exact hm)
  case low => exact key h (by rw [hsw]; exact hm)
  case high => exact key h (by rw [hsw]; exact hm)
  case ldSTVx => exact key h (by rw [hst]; exact hm)
  case ldB =>
    exact key h (State.wf_writeByte (State.wf_writeByte (State.wf_writeByte hm _ _) _ _) _ _)
  case storeRegs x => exact key h (State.wf_foldl_storeReg hm (List.range (x.toNat + 1)))
  case loadRegs x =>
    exact key h (show Memory.wf ((List.range (x.toNat + 1)).foldl State.loadReg s).mem by
      rw [State.foldl_loadReg_mem]; exact hm)
  all_goals exact key h hm

/-- What every instruction does to the display: nothing, or one of the display engine's operations (R28). -/
theorem exec_disp {i : Instr} {s t : State} (h : exec i s = .next t) :
    t.disp = s.disp ∨ t.disp = s.clearGrid.disp ∨ (∃ d, t.disp = (s.drawSprite d).disp) ∨
    (∃ dx dy : Int, t.disp = (s.shiftGrid dx dy).disp) ∨ t.disp = [] := by
  have key : ∀ {a : State}, Host.Outcome.next (φ := Fault) (ρ := Refusal) a = .next t → t = a :=
    fun h => (Host.Outcome.next.inj h).symm
  have hif : ∀ (c : Bool), (s.skipIf c).disp = s.disp := fun c => by unfold State.skipIf; split <;> rfl
  have hlog : ∀ x r, (s.writeLogic x r).disp = s.disp := fun x r => by unfold State.writeLogic; split <;> rfl
  have hst : ∀ v, (s.writeST v).disp = s.disp := fun v => by
    unfold State.writeST
    split
    · rfl
    · split <;> rfl
  have hsw : ∀ m, (s.switchMode m).disp = s.disp ∨ (s.switchMode m).disp = [] := fun m => by
    unfold State.switchMode
    split
    · exact .inr rfl
    · exact .inl rfl
  have hstore : ∀ l : List Nat, (l.foldl State.storeReg s).disp = s.disp := by
    intro l
    induction l using List.reverseRecOn with
    | nil => rfl
    | append_singleton l i ih => rw [List.foldl_append]; exact ih
  have hload : ∀ l : List Nat, (l.foldl State.loadReg s).disp = s.disp := by
    intro l
    induction l using List.reverseRecOn with
    | nil => rfl
    | append_singleton l i ih => rw [List.foldl_append]; exact ih
  cases i
  case ret =>
    simp only [exec, execRet] at h
    split at h <;> exact .inl (by rw [key h]; rfl)
  case drw =>
    simp only [exec, execDrw] at h
    split at h
    · exact .inl (by rw [key h]; rfl)
    · exact .inr (.inr (.inl ⟨_, by rw [key h]⟩))
  case addI =>
    simp only [exec, execAddI] at h
    split at h <;> exact .inl (by rw [key h]; rfl)
  case or => exact .inl (by rw [key h]; exact hlog _ _)
  case and => exact .inl (by rw [key h]; exact hlog _ _)
  case xor => exact .inl (by rw [key h]; exact hlog _ _)
  case seImm => exact .inl (by rw [key h]; exact hif _)
  case sneImm => exact .inl (by rw [key h]; exact hif _)
  case seReg => exact .inl (by rw [key h]; exact hif _)
  case sneReg => exact .inl (by rw [key h]; exact hif _)
  case skp => exact .inl (by rw [key h]; exact hif _)
  case sknp => exact .inl (by rw [key h]; exact hif _)
  case ldSTVx => exact .inl (by rw [key h]; exact hst _)
  case storeRegs => exact .inl (by rw [key h]; exact hstore _)
  case loadRegs => exact .inl (by rw [key h]; exact hload _)
  case cls => exact .inr (.inl (by rw [key h]))
  case hires64 => exact .inr (.inl (by rw [key h]; rfl))
  case scd => exact .inr (.inr (.inr (.inl ⟨_, _, by rw [key h]⟩)))
  case scr => exact .inr (.inr (.inr (.inl ⟨_, _, by rw [key h]⟩)))
  case scl => exact .inr (.inr (.inr (.inl ⟨_, _, by rw [key h]⟩)))
  case low =>
    rcases hsw .lores with hd | hd
    · exact .inl (by rw [key h]; exact hd)
    · exact .inr (.inr (.inr (.inr (by rw [key h]; exact hd))))
  case high =>
    rcases hsw .hires with hd | hd
    · exact .inl (by rw [key h]; exact hd)
    · exact .inr (.inr (.inr (.inr (by rw [key h]; exact hd))))
  all_goals exact .inl (by rw [key h]; rfl)

/-- The display keeps its canonical form in every instruction. -/
theorem exec_wf_disp {i : Instr} {s t : State} (hd : Display.wf s.disp) (h : exec i s = .next t) :
    Display.wf t.disp := by
  rcases exec_disp h with e | e | ⟨d, e⟩ | ⟨dx, dy, e⟩ | e <;> rw [e]
  · exact hd
  · exact State.wf_clearGrid s hd
  · exact State.wf_drawSprite s d hd
  · exact State.wf_shiftGrid s hd dx dy
  · exact Display.wf_nil

end Sys2Proof.Machine
end

