-- ==== Sys2Proof/Laws/PerInstr.lean ====
section
/-! SUPPORT. Statements made instruction by instruction: family TableRow, the word of an instruction is selected by the
instruction's own row of spec/opcode_table.json (R74, R75). -/

namespace Sys2Proof.Laws.TableRow

/-- The word the encoder gives has the match value under the mask of the instruction's table row. -/
def Statement (i : Instr) : Prop := encode i &&& i.row.mask = i.row.pattern

theorem packNNN_and (op : Nibble) (nnn : Addr) : packNNN op nnn &&& 0xF000#16 = packNNN op 0x000#12 := by
  rw [packNNN_eq_append, packNNN_eq_append]
  apply BitVec.eq_of_getLsbD_eq
  intro i hi
  simp only [BitVec.getLsbD_and, BitVec.getLsbD_append]
  interval_cases i <;> simp

theorem packXNN_and (op x : Nibble) (nn : Byte) : packXNN op x nn &&& 0xF000#16 = packNNN op 0x000#12 := by
  rw [packXNN_eq_append, packNNN_eq_append]
  apply BitVec.eq_of_getLsbD_eq
  intro i hi
  simp only [BitVec.getLsbD_and, BitVec.getLsbD_append]
  interval_cases i <;> simp

theorem packXNN_and_low (op x : Nibble) (nn : Byte) : packXNN op x nn &&& 0xF0FF#16 = packXNN op 0x0#4 nn := by
  rw [packXNN_eq_append, packXNN_eq_append]
  apply BitVec.eq_of_getLsbD_eq
  intro i hi
  simp only [BitVec.getLsbD_and, BitVec.getLsbD_append]
  interval_cases i <;> simp

theorem packXYN_and (op x y n : Nibble) : packXYN op x y n &&& 0xF000#16 = packNNN op 0x000#12 := by
  rw [packXYN_eq_append, packNNN_eq_append]
  apply BitVec.eq_of_getLsbD_eq
  intro i hi
  simp only [BitVec.getLsbD_and, BitVec.getLsbD_append]
  interval_cases i <;> simp

theorem packXYN_and_low (op x y n : Nibble) : packXYN op x y n &&& 0xF00F#16 = packXYN op 0x0#4 0x0#4 n := by
  rw [packXYN_eq_append, packXYN_eq_append]
  apply BitVec.eq_of_getLsbD_eq
  intro i hi
  simp only [BitVec.getLsbD_and, BitVec.getLsbD_append]
  interval_cases i <;> simp

theorem packXYN_and_high (op x y n : Nibble) : packXYN op x y n &&& 0xFFF0#16 = packXYN op x y 0x0#4 := by
  rw [packXYN_eq_append, packXYN_eq_append]
  apply BitVec.eq_of_getLsbD_eq
  intro i hi
  simp only [BitVec.getLsbD_and, BitVec.getLsbD_append]
  interval_cases i <;> simp

theorem cls : Statement .cls := rfl
theorem ret : Statement .ret := rfl
theorem scd (n : Nibble) : Statement (.scd n) := packXYN_and_high _ _ _ _
theorem scr : Statement .scr := rfl
theorem scl : Statement .scl := rfl
theorem low : Statement .low := rfl
theorem high : Statement .high := rfl
theorem hires64 : Statement .hires64 := rfl
theorem sys (nnn : Addr) : Statement (.sys nnn) := packNNN_and _ _
theorem jp (nnn : Addr) : Statement (.jp nnn) := packNNN_and _ _
theorem call (nnn : Addr) : Statement (.call nnn) := packNNN_and _ _
theorem seImm (x : Nibble) (nn : Byte) : Statement (.seImm x nn) := packXNN_and _ _ _
theorem sneImm (x : Nibble) (nn : Byte) : Statement (.sneImm x nn) := packXNN_and _ _ _
theorem seReg (x y : Nibble) : Statement (.seReg x y) := packXYN_and_low _ _ _ _
theorem ldImm (x : Nibble) (nn : Byte) : Statement (.ldImm x nn) := packXNN_and _ _ _
theorem addImm (x : Nibble) (nn : Byte) : Statement (.addImm x nn) := packXNN_and _ _ _
theorem ldReg (x y : Nibble) : Statement (.ldReg x y) := packXYN_and_low _ _ _ _
theorem or (x y : Nibble) : Statement (.or x y) := packXYN_and_low _ _ _ _
theorem and (x y : Nibble) : Statement (.and x y) := packXYN_and_low _ _ _ _
theorem xor (x y : Nibble) : Statement (.xor x y) := packXYN_and_low _ _ _ _
theorem addReg (x y : Nibble) : Statement (.addReg x y) := packXYN_and_low _ _ _ _
theorem sub (x y : Nibble) : Statement (.sub x y) := packXYN_and_low _ _ _ _
theorem shr (x y : Nibble) : Statement (.shr x y) := packXYN_and_low _ _ _ _
theorem subn (x y : Nibble) : Statement (.subn x y) := packXYN_and_low _ _ _ _
theorem shl (x y : Nibble) : Statement (.shl x y) := packXYN_and_low _ _ _ _
theorem sneReg (x y : Nibble) : Statement (.sneReg x y) := packXYN_and_low _ _ _ _
theorem ldI (nnn : Addr) : Statement (.ldI nnn) := packNNN_and _ _
theorem jpV0 (nnn : Addr) : Statement (.jpV0 nnn) := packNNN_and _ _
theorem rnd (x : Nibble) (nn : Byte) : Statement (.rnd x nn) := packXNN_and _ _ _
theorem drw (x y n : Nibble) : Statement (.drw x y n) := packXYN_and _ _ _ _
theorem skp (x : Nibble) : Statement (.skp x) := packXNN_and_low _ _ _
theorem sknp (x : Nibble) : Statement (.sknp x) := packXNN_and_low _ _ _
theorem ldVxDT (x : Nibble) : Statement (.ldVxDT x) := packXNN_and_low _ _ _
theorem ldVxK (x : Nibble) : Statement (.ldVxK x) := packXNN_and_low _ _ _
theorem ldDTVx (x : Nibble) : Statement (.ldDTVx x) := packXNN_and_low _ _ _
theorem ldSTVx (x : Nibble) : Statement (.ldSTVx x) := packXNN_and_low _ _ _
theorem addI (x : Nibble) : Statement (.addI x) := packXNN_and_low _ _ _
theorem ldF (x : Nibble) : Statement (.ldF x) := packXNN_and_low _ _ _
theorem ldHF (x : Nibble) : Statement (.ldHF x) := packXNN_and_low _ _ _
theorem ldB (x : Nibble) : Statement (.ldB x) := packXNN_and_low _ _ _
theorem storeRegs (x : Nibble) : Statement (.storeRegs x) := packXNN_and_low _ _ _
theorem loadRegs (x : Nibble) : Statement (.loadRegs x) := packXNN_and_low _ _ _

end Sys2Proof.Laws.TableRow
end

