-- ==== Sys2Proof/Laws/Step.lean ====
section
/-! SUPPORT. Everything one step of the machine can do: one enabled event, or one piece of the queue's bookkeeping. -/

namespace Sys2Proof.Machine

theorem perform_next (e : Event) (s : State) : ∃ t, perform e s = .next t := by
  cases e
  case step => exact stepInstr_next s
  all_goals exact ⟨_, rfl⟩

theorem fire_eq_next {e : Event} {s t : State} :
    fire e s = .next t ↔ enabled e s = true ∧ perform e s = .next t := by
  unfold fire
  split
  · simp [*]
  · simp [*]

theorem enabled_setInputs (e : Event) (s : State) (l : List Input) : enabled e (s.setInputs l) = enabled e s := by
  cases e <;> rfl

/-- A step is an enabled event, taken with some rest of the queue, or it only moves the queue and the accumulator. -/
theorem step_cases {s t : State} (h : step s = .next t) :
    (∃ l e, enabled e s = true ∧ perform e (s.setInputs l) = .next t) ∨
    (∃ l a, t = (s.setInputs l).setAcc a ∧ (a = s.acc ∨ a < 60)) := by
  unfold step advance at h
  split at h
  · rename_i hi
    unfold State.runAlone at h
    split at h
    · rename_i he
      refine .inl ⟨[], s.ownEvent, he, ?_⟩
      have hs : s.setInputs [] = s := by rw [← hi]; rfl
      rw [hs]
      exact h
    · cases h
  · rename_i i rest hi
    cases i with
    | event e =>
      have h2 := fire_eq_next.mp h
      exact .inl ⟨rest, e, by rw [← enabled_setInputs e s rest]; exact h2.1, h2.2⟩
    | frame =>
      refine .inr ⟨.schedTick (s.setInputs rest).frameBudget :: rest, (s.setInputs rest).frameAcc, ?_, ?_⟩
      · rw [← Host.Outcome.next.inj h]
        rfl
      · unfold State.frameAcc
        split
        · exact .inr (Nat.mod_lt _ (by decide))
        · exact .inl rfl
    | schedTick k =>
      have hq : ∀ l, ((s.setInputs rest).queueFirst l) = (s.setInputs (l ++ rest)).setAcc s.acc := fun l => rfl
      have h2 := Host.Outcome.next.inj h
      rw [← h2]
      unfold State.beginTick
      split
      · split
        · exact .inr ⟨_, s.acc, hq _, .inl rfl⟩
        · exact .inr ⟨_, s.acc, hq _, .inl rfl⟩
        · exact .inr ⟨_, s.acc, hq _, .inl rfl⟩
      · exact .inr ⟨rest, s.acc, rfl, .inl rfl⟩
    | cpu k =>
      cases k with
      | zero =>
        refine .inr ⟨rest, s.acc, ?_, .inl rfl⟩
        rw [← Host.Outcome.next.inj h]
        rfl
      | succ k =>
        simp only [State.take, State.cpuLoop] at h
        split at h
        · rename_i he
          exact .inl ⟨.cpu k :: rest, .step, by rw [← enabled_setInputs .step s rest]; exact he, h⟩
        · refine .inr ⟨rest, s.acc, ?_, .inl rfl⟩
          rw [← Host.Outcome.next.inj h]
          rfl
    | endTick =>
      simp only [State.take, State.endTick] at h
      split at h
      · rename_i he
        exact .inl ⟨rest, .tick60, by rw [← enabled_setInputs .tick60 s rest]; exact he, h⟩
      · refine .inr ⟨rest, s.acc, ?_, .inl rfl⟩
        rw [← Host.Outcome.next.inj h]
        rfl

/-! ### The unloaded core (R212) -/

@[simp] theorem unloadedState_loaded (n : Nat) (i : List Input) (o : List Output) :
    (unloadedState n i o).loaded = false := rfl
@[simp] theorem unloadedState_running (n : Nat) (i : List Input) (o : List Output) :
    (unloadedState n i o).running = false := rfl
@[simp] theorem unloadedState_inputs (n : Nat) (i : List Input) (o : List Output) :
    (unloadedState n i o).inputs = i := rfl
@[simp] theorem unloadedState_outputs (n : Nat) (i : List Input) (o : List Output) :
    (unloadedState n i o).outputs = o := rfl
@[simp] theorem unloadedState_draws (n : Nat) (i : List Input) (o : List Output) :
    (unloadedState n i o).draws = n + 1 := rfl

/-- The unspecified memory and display of an unloaded core are in canonical form. -/
theorem unloadedState_wf (n : Nat) (i : List Input) (o : List Output) :
    Memory.wf (unloadedState n i o).mem ∧ Display.wf (unloadedState n i o).disp :=
  ⟨Memory.wf_ofCells _, Sparse.wf_ofList _ _ _⟩

/-- Of a core that is not loaded only `Load` is enabled. -/
theorem enabled_of_not_loaded {s : State} (h : s.loaded = false) (e : Event) :
    enabled e s = true ↔ ∃ im md, e = .load im md := by
  cases e <;> simp [enabled, h]

end Sys2Proof.Machine
end

