-- ==== Sys2Proof/Tests/Slice0.lean ====
section
/-! SUPPORT. The model's own tests: every constructor's word written out bit by bit from R72 and R75, the WellFormed
checks, one-step vectors from spec/95_test_vectors.md (their ids are in the comments), and a witness for the hypotheses of
every obligation. -/

namespace Sys2Proof.Tests

set_option Elab.async false

open Sys2Proof.Machine

/-! ### Helpers -/

/-- The start state of 95_test_vectors.md with some registers set. -/
def regs (l : List (Nibble × Byte)) : State := l.foldl (fun s p => s.setV p.1 p.2) State.reset

/-- A state under other quirks. -/
def quirk (f : Quirks → Quirks) (s : State) : State := { s with cfg := { s.cfg with q := f s.cfg.q } }

/-- A state under other open parameters. -/
def params (f : Params → Params) (s : State) : State := { s with cfg := { s.cfg with params := f s.cfg.params } }

/-- A state with some bytes stored. -/
def bytes (l : List (Addr × Byte)) (s : State) : State := l.foldl (fun s p => s.writeByte p.1 p.2) s

/-- A state with some logical pixels lit. -/
def light (l : List (Nat × Nat)) (s : State) : State := l.foldl (fun s p => s.setOn p.1 p.2) s

/-- A state in another resolution mode. -/
def inMode (m : ResMode) (s : State) : State := s.setMode m

/-- One step on the word placed at `pc`, and what a question about the next state answers. -/
def after {α : Type} (s : State) (w : Nat) (f : State → α) : Option α :=
  match step (s.withFetchWord 16 w) with
  | .next t => some (f t)
  | .fault _ => none
  | .refused _ => none

/-- One event, and what a question about the next state answers. -/
def afterEvent {α : Type} (s : State) (e : Event) (f : State → α) : Option α :=
  match fire e s with
  | .next t => some (f t)
  | .fault _ => none
  | .refused _ => none

/-- Which of some logical pixels are lit. -/
def litOf (l : List (Nat × Nat)) (t : State) : List Bool := l.map (fun p => t.pixOn p.1 p.2)

/-- A metadata record with the quirks of Q0. -/
def record (ips : Nat) : Metadata :=
  ⟨false, .vx, .v0, .clip, false, false, false, ips, defaultParams⟩

/-! ### Decoding: one word of every row, bit by bit (R72, R75) -/

theorem test_decode_cls : decode 0b0000000011100000#16 = .ok (.cls) := by decide
theorem test_decode_ret : decode 0b0000000011101110#16 = .ok (.ret) := by decide
theorem test_decode_scd : decode 0b0000000011001111#16 = .ok (.scd 0xF#4) := by decide
theorem test_decode_scr : decode 0b0000000011111011#16 = .ok (.scr) := by decide
theorem test_decode_scl : decode 0b0000000011111100#16 = .ok (.scl) := by decide
theorem test_decode_low : decode 0b0000000011111110#16 = .ok (.low) := by decide
theorem test_decode_high : decode 0b0000000011111111#16 = .ok (.high) := by decide
theorem test_decode_hires64 : decode 0b0000001000110000#16 = .ok (.hires64) := by decide
theorem test_decode_sys : decode 0b0000001000110001#16 = .ok (.sys 0x231#12) := by decide
theorem test_decode_jp : decode 0b0001101010111100#16 = .ok (.jp 0xABC#12) := by decide
theorem test_decode_call : decode 0b0010001100000000#16 = .ok (.call 0x300#12) := by decide
theorem test_decode_seImm : decode 0b0011101000000101#16 = .ok (.seImm 0xA#4 0x05#8) := by decide
theorem test_decode_sneImm : decode 0b0100101000000101#16 = .ok (.sneImm 0xA#4 0x05#8) := by decide
theorem test_decode_seReg : decode 0b0101000100100000#16 = .ok (.seReg 0x1#4 0x2#4) := by decide
theorem test_decode_ldImm : decode 0b0110101001111101#16 = .ok (.ldImm 0xA#4 0x7D#8) := by decide
theorem test_decode_addImm : decode 0b0111000100000101#16 = .ok (.addImm 0x1#4 0x05#8) := by decide
theorem test_decode_ldReg : decode 0b1000000100100000#16 = .ok (.ldReg 0x1#4 0x2#4) := by decide
theorem test_decode_or : decode 0b1000111100100001#16 = .ok (.or 0xF#4 0x2#4) := by decide
theorem test_decode_and : decode 0b1000000100100010#16 = .ok (.and 0x1#4 0x2#4) := by decide
theorem test_decode_xor : decode 0b1000000111110011#16 = .ok (.xor 0x1#4 0xF#4) := by decide
theorem test_decode_addReg : decode 0b1000101010110100#16 = .ok (.addReg 0xA#4 0xB#4) := by decide
theorem test_decode_sub : decode 0b1000000100100101#16 = .ok (.sub 0x1#4 0x2#4) := by decide
theorem test_decode_shr : decode 0b1000000100100110#16 = .ok (.shr 0x1#4 0x2#4) := by decide
theorem test_decode_subn : decode 0b1000000100100111#16 = .ok (.subn 0x1#4 0x2#4) := by decide
theorem test_decode_shl : decode 0b1000000100101110#16 = .ok (.shl 0x1#4 0x2#4) := by decide
theorem test_decode_sneReg : decode 0b1001000100100000#16 = .ok (.sneReg 0x1#4 0x2#4) := by decide
theorem test_decode_ldI : decode 0b1010001011110000#16 = .ok (.ldI 0x2F0#12) := by decide
theorem test_decode_jpV0 : decode 0b1011001000010000#16 = .ok (.jpV0 0x210#12) := by decide
theorem test_decode_rnd : decode 0b1100000100001111#16 = .ok (.rnd 0x1#4 0x0F#8) := by decide
theorem test_decode_drw : decode 0b1101000000010101#16 = .ok (.drw 0x0#4 0x1#4 0x5#4) := by decide
theorem test_decode_skp : decode 0b1110000110011110#16 = .ok (.skp 0x1#4) := by decide
theorem test_decode_sknp : decode 0b1110000110100001#16 = .ok (.sknp 0x1#4) := by decide
theorem test_decode_ldVxDT : decode 0b1111010100000111#16 = .ok (.ldVxDT 0x5#4) := by decide
theorem test_decode_ldVxK : decode 0b1111000100001010#16 = .ok (.ldVxK 0x1#4) := by decide
theorem test_decode_ldDTVx : decode 0b1111010100010101#16 = .ok (.ldDTVx 0x5#4) := by decide
theorem test_decode_ldSTVx : decode 0b1111001000011000#16 = .ok (.ldSTVx 0x2#4) := by decide
theorem test_decode_addI : decode 0b1111000100011110#16 = .ok (.addI 0x1#4) := by decide
theorem test_decode_ldF : decode 0b1111001100101001#16 = .ok (.ldF 0x3#4) := by decide
theorem test_decode_ldHF : decode 0b1111001100110000#16 = .ok (.ldHF 0x3#4) := by decide
theorem test_decode_ldB : decode 0b1111001000110011#16 = .ok (.ldB 0x2#4) := by decide
theorem test_decode_storeRegs : decode 0b1111001001010101#16 = .ok (.storeRegs 0x2#4) := by decide
theorem test_decode_loadRegs : decode 0b1111111101100101#16 = .ok (.loadRegs 0xF#4) := by decide

/-- The unrecognized words of 95_test_vectors.md 2.1 (R76). -/
theorem test_decode_unrecognized :
    [0x5121#16, 0x8128#16, 0x812F#16, 0x9121#16, 0xE19F#16, 0xF175#16, 0xF000#16].all
      (fun w => decide (decode w = .error (.unrecognized w))) = true := by decide +kernel

theorem test_decode_too_short : decodeBytes [0x60#8] = .error .tooShort := by decide

/-- The byte at the lower address is bits 15 to 8 (R53). -/
theorem test_decode_bytes : decodeBytes [0x6A#8, 0x7D#8, 0x01#8] = .ok (.ldImm 0xA#4 0x7D#8, [0x01#8]) := by decide

theorem test_decode_table_word : decodeTableWord 16 0xD015 = some (.drw 0x0#4 0x1#4 0x5#4) := by decide

/-! ### WellFormed: each check refuses an ill-formed term -/

/-- `notScdWord`: 00C7 is SCD, never SYS. -/
theorem test_sys_of_scd_word_refused : (Instr.sys 0x0C7#12).wellFormed = false ∧ notFixedWord 0x0C7#12 = true := by decide

/-- `notFixedWord`: the seven fixed family-0 words are never SYS. -/
theorem test_sys_of_fixed_word_refused :
    [0x0E0#12, 0x0EE#12, 0x0FB#12, 0x0FC#12, 0x0FE#12, 0x0FF#12, 0x230#12].all
      (fun a => !(Instr.sys a).wellFormed && notScdWord a) = true := by decide

theorem test_sys_wellFormed : (Instr.sys 0x0FD#12).wellFormed = true ∧ (Instr.sys 0x000#12).wellFormed = true := by decide

/-! ### Control flow (95_test_vectors.md 2.2) -/

/-- CF1 -/
theorem test_jp :
    after State.reset 0x1ABC State.pc = some 0xABC#12 := by decide +kernel
/-- CF2 -/
theorem test_call_wraps :
    after (State.reset.setPc 0xFFE#12) 0x2300 (fun t => (t.stack, t.pc)) = some ([0x000#12], 0x300#12) := by decide +kernel
/-- CF3 -/
theorem test_ret_underflow :
    after State.reset 0x00EE (fun t => (t.pc, t.stack, t.underflowSeen, t.underflowCount, t.running)) =
      some (0x200#12, [], true, 1, true) := by decide +kernel
/-- CF4; the head of the list is the top -/
theorem test_ret_pops :
    after (State.reset.setStack [0x30A#12, 0x202#12]) 0x00EE (fun t => (t.pc, t.stack)) = some (0x30A#12, [0x202#12]) := by decide +kernel
/-- CF5 -/
theorem test_se_imm_wraps :
    after ((regs [(0xA#4, 0x05#8)]).setPc 0xFFC#12) 0x3A05 State.pc = some 0x000#12 := by decide +kernel
/-- CF6 -/
theorem test_se_imm_differs :
    after (regs [(0xA#4, 0x06#8)]) 0x3A05 State.pc = some 0x202#12 := by decide +kernel
/-- CF7 -/
theorem test_sne_imm_equal :
    after (regs [(0xA#4, 0x05#8)]) 0x4A05 State.pc = some 0x202#12 := by decide +kernel
/-- CF8 -/
theorem test_sne_imm_differs :
    after (regs [(0xA#4, 0x06#8)]) 0x4A05 State.pc = some 0x204#12 := by decide +kernel
/-- CF9 -/
theorem test_se_reg :
    after (regs [(1#4, 7#8), (2#4, 7#8)]) 0x5120 State.pc = some 0x204#12 := by decide +kernel
/-- CF10 -/
theorem test_unrecognized_is_fatal :
    after (regs [(1#4, 7#8), (2#4, 7#8)]) 0x5121 (fun t => (t.fault, t.pc, t.running)) =
      some (some ⟨0x200#12, 0x5121#16⟩, 0x202#12, false) := by decide +kernel
/-- CF11 -/
theorem test_sne_reg :
    after (regs [(1#4, 7#8), (2#4, 8#8)]) 0x9120 State.pc = some 0x204#12 := by decide +kernel
/-- CF12 -/
theorem test_sne_reg_same :
    after (regs [(1#4, 7#8)]) 0x9110 State.pc = some 0x202#12 := by decide +kernel
/-- CF13 -/
theorem test_jp_v0 :
    after (regs [(0#4, 4#8), (2#4, 0x10#8)]) 0xB210 State.pc = some 0x214#12 := by decide +kernel
/-- CF14 -/
theorem test_jp_vx :
    after (quirk (fun q => { q with jumpSource := .vx }) (regs [(0#4, 4#8), (2#4, 0x10#8)])) 0xB210 State.pc =
      some 0x220#12 := by decide +kernel
/-- CF17 -/
theorem test_sys_is_fatal :
    after (State.reset.setPc 0x300#12) 0x0123 (fun t => (t.fault, t.pc, t.running)) =
      some (some ⟨0x300#12, 0x0123#16⟩, 0x302#12, false) := by decide +kernel
/-- CF18 -/
theorem test_fetch_wraps :
    (match step (bytes [(0xFFF#12, 0x12#8)] (State.reset.setPc 0xFFF#12)) with
      | .next t => some t.pc
      | .fault _ => none
      | .refused _ => none) = some 0x2F0#12 := by decide +kernel

/-! ### Register, arithmetic, logic, shift, random (2.3) -/

/-- A1 -/
theorem test_ld_imm :
    after State.reset 0x6A7D (fun t => t.getV 0xA#4) = some 0x7D#8 := by decide +kernel
/-- A2 -/
theorem test_add_imm_no_flag :
    after (regs [(1#4, 0xFE#8), (0xF#4, 7#8)]) 0x7105 (fun t => (t.getV 1#4, t.getV 0xF#4)) = some (3#8, 7#8) := by decide +kernel
/-- A3 -/
theorem test_add_imm_vf :
    after (regs [(0xF#4, 0xFF#8)]) 0x7F01 (fun t => t.getV 0xF#4) = some 0#8 := by decide +kernel
/-- A4 -/
theorem test_ld_reg :
    after (regs [(2#4, 0x42#8)]) 0x8120 (fun t => (t.getV 1#4, t.getV 2#4)) = some (0x42#8, 0x42#8) := by decide +kernel
/-- A5, quirk off -/
theorem test_or :
    after (regs [(1#4, 0x0F#8), (2#4, 0xF0#8), (0xF#4, 1#8)]) 0x8121 (fun t => (t.getV 1#4, t.getV 0xF#4)) =
      some (0xFF#8, 1#8) := by decide +kernel
/-- A6, quirk on: the result is lost -/
theorem test_or_vf_lost :
    after (quirk (fun q => { q with logicClearsVF := true }) (regs [(0xF#4, 0x0F#8), (2#4, 0xF0#8)])) 0x8F21
      (fun t => t.getV 0xF#4) = some 0#8 := by decide +kernel
/-- A8 -/
theorem test_and :
    after (regs [(1#4, 0x3C#8), (2#4, 0x0F#8)]) 0x8122 (fun t => t.getV 1#4) = some 0x0C#8 := by decide +kernel
/-- A7, quirk on: the old VF was the operand -/
theorem test_xor_old_vf :
    after (quirk (fun q => { q with logicClearsVF := true }) (regs [(1#4, 0xFF#8), (0xF#4, 0x0F#8)])) 0x81F3
      (fun t => (t.getV 1#4, t.getV 0xF#4)) = some (0xF0#8, 0#8) := by decide +kernel
/-- A14 -/
theorem test_add_reg_vf_is_carry :
    after (regs [(0xF#4, 0xFF#8), (1#4, 2#8)]) 0x8F14 (fun t => (t.getV 0xF#4, t.getV 1#4)) = some (1#8, 2#8) := by decide +kernel
/-- A12 -/
theorem test_add_reg_no_carry :
    after (regs [(1#4, 0x80#8), (2#4, 0x7F#8), (0xF#4, 1#8)]) 0x8124 (fun t => (t.getV 1#4, t.getV 0xF#4)) =
      some (0xFF#8, 0#8) := by decide +kernel
/-- A16 -/
theorem test_sub_borrow :
    after (regs [(1#4, 0x10#8), (2#4, 0x20#8)]) 0x8125 (fun t => (t.getV 1#4, t.getV 0xF#4)) = some (0xF0#8, 0#8) := by decide +kernel
/-- A17 -/
theorem test_sub_equal :
    after (regs [(1#4, 0x20#8), (2#4, 0x20#8)]) 0x8125 (fun t => (t.getV 1#4, t.getV 0xF#4)) = some (0#8, 1#8) := by decide +kernel
/-- A21 -/
theorem test_subn :
    after (regs [(1#4, 0x10#8), (2#4, 0x20#8)]) 0x8127 (fun t => (t.getV 1#4, t.getV 0xF#4)) = some (0x10#8, 1#8) := by decide +kernel
/-- A22 -/
theorem test_subn_borrow :
    after (regs [(1#4, 0x20#8), (2#4, 0x10#8)]) 0x8127 (fun t => (t.getV 1#4, t.getV 0xF#4)) = some (0xF0#8, 0#8) := by decide +kernel
/-- A23 -/
theorem test_shr_vx :
    after (regs [(1#4, 0x7D#8), (2#4, 0xFF#8)]) 0x8126 (fun t => (t.getV 1#4, t.getV 2#4, t.getV 0xF#4)) =
      some (0x3E#8, 0xFF#8, 1#8) := by decide +kernel
/-- A28 -/
theorem test_shr_vy :
    after (quirk (fun q => { q with shiftSource := .vy }) (regs [(0xF#4, 5#8), (1#4, 0xAA#8)])) 0x81F6
      (fun t => (t.getV 1#4, t.getV 0xF#4)) = some (2#8, 1#8) := by decide +kernel
/-- A29 -/
theorem test_shl_vx :
    after (regs [(1#4, 0x81#8)]) 0x812E (fun t => (t.getV 1#4, t.getV 0xF#4)) = some (2#8, 1#8) := by decide +kernel
/-- A31 -/
theorem test_shl_vf :
    after (regs [(0xF#4, 0x80#8)]) 0x8FFE (fun t => t.getV 0xF#4) = some 1#8 := by decide +kernel
/-- A33: whatever the byte drawn is, `nn = 00` gives 00. -/
theorem test_rnd_masked (b : Byte) : b &&& 0x00#8 = 0x00#8 ∧
    after (regs [(1#4, 9#8)]) 0xC100 (fun t => (t.pc, t.draws)) = some (0x202#12, 1) := ⟨by simp, by decide +kernel⟩

/-! ### Index register and memory (2.4) -/

/-- I1 -/
theorem test_ld_i :
    after State.reset 0xA2F0 State.I = some 0x2F0#12 := by decide +kernel
/-- I3 -/
theorem test_add_i_wraps :
    after ((regs [(1#4, 1#8), (0xF#4, 5#8)]).setI 0xFFF#12) 0xF11E (fun t => (t.I, t.getV 0xF#4)) = some (0x000#12, 5#8) := by decide +kernel
/-- I4 -/
theorem test_add_i_flag :
    after (params (fun p => { p with addISetsVF := true }) ((regs [(1#4, 1#8), (0xF#4, 5#8)]).setI 0xFFF#12)) 0xF11E
      (fun t => (t.I, t.getV 0xF#4)) = some (0x000#12, 1#8) := by decide +kernel
/-- I7 -/
theorem test_ld_f :
    after (regs [(3#4, 0x1A#8)]) 0xF329 State.I = some 0x032#12 := by decide +kernel
/-- I8 -/
theorem test_ld_hf :
    after (regs [(3#4, 7#8)]) 0xF330 State.I = some 0x096#12 := by decide +kernel
/-- I10 -/
theorem test_bcd :
    after ((regs [(2#4, 0x7B#8)]).setI 0x300#12) 0xF233
      (fun t => (t.readByte 0x300#12, t.readByte 0x301#12, t.readByte 0x302#12, t.I)) = some (1#8, 2#8, 3#8, 0x300#12) := by decide +kernel
/-- I12; the byte at 001 is the font's -/
theorem test_bcd_wraps :
    after ((regs [(2#4, 7#8)]).setI 0xFFE#12) 0xF233
      (fun t => (t.readByte 0xFFE#12, t.readByte 0xFFF#12, t.readByte 0x000#12, t.readByte 0x001#12)) =
      some (0#8, 0#8, 7#8, 0x90#8) := by decide +kernel
/-- I13 -/
theorem test_store_regs :
    after ((regs [(0#4, 0x11#8), (1#4, 0x22#8), (2#4, 0x33#8), (3#4, 0x44#8)]).setI 0x400#12) 0xF255
      (fun t => ([0x400#12, 0x401#12, 0x402#12, 0x403#12].map t.readByte, t.I)) =
      some ([0x11#8, 0x22#8, 0x33#8, 0#8], 0x403#12) := by decide +kernel
/-- I15 -/
theorem test_store_regs_wraps :
    after ((regs [(0#4, 0xAA#8), (1#4, 0xBB#8)]).setI 0xFFF#12) 0xF155
      (fun t => (t.readByte 0xFFF#12, t.readByte 0x000#12, t.I)) = some (0xAA#8, 0xBB#8, 0x001#12) := by decide +kernel
/-- I14 -/
theorem test_load_regs :
    after (bytes [(0x400#12, 0x11#8), (0x401#12, 0x22#8), (0x402#12, 0x33#8), (0x403#12, 0x44#8)]
      ((regs [(3#4, 0x99#8)]).setI 0x400#12)) 0xF265
      (fun t => ([0#4, 1#4, 2#4, 3#4].map t.getV, t.I)) = some ([0x11#8, 0x22#8, 0x33#8, 0x99#8], 0x403#12) := by decide +kernel
/-- I16's index rule on a load -/
theorem test_load_regs_by_x :
    after (quirk (fun q => { q with memIncrement := .byX }) (bytes [(0x400#12, 0x11#8)] (State.reset.setI 0x400#12))) 0xF065
      (fun t => (t.getV 0#4, t.I)) = some (0x11#8, 0x400#12) := by decide +kernel

/-! ### Display (2.5) -/

/-- S1 -/
theorem test_cls :
    after (light [(0, 0), (63, 31)] (regs [(0xF#4, 1#8)])) 0x00E0 (fun t => (t.disp, t.getV 0xF#4)) = some ([], 1#8) := by decide +kernel
/-- DR1 -/
theorem test_drw_clip :
    after (bytes [(0x300#12, 0xC0#8)] ((regs [(0#4, 0x3F#8)]).setI 0x300#12)) 0xD011
      (fun t => (litOf [(63, 0), (0, 0)] t, t.getV 0xF#4)) = some ([true, false], 0#8) := by decide +kernel
/-- DR4 -/
theorem test_drw_collides :
    after (light [(1, 0), (5, 0)] (bytes [(0x300#12, 0xF0#8)] (State.reset.setI 0x300#12))) 0xD011
      (fun t => (litOf [(0, 0), (1, 0), (2, 0), (3, 0), (4, 0), (5, 0)] t, t.getV 0xF#4)) =
      some ([true, false, true, true, false, true], 1#8) := by decide +kernel
/-- S2 -/
theorem test_scd :
    after (light [(3, 0), (5, 30), (6, 29)] State.reset) 0x00C2
      (fun t => litOf [(3, 0), (3, 2), (5, 30), (5, 31), (6, 31)] t) = some [false, true, false, false, true] := by decide +kernel
/-- S10 -/
theorem test_scd_backing :
    after (params (fun p => { p with scrollUnits := .backing }) (light [(10, 5)] State.reset)) 0x00C1
      (fun t => (litOf [(10, 5), (10, 6)] t, (t.disp.cell 20 11).on, (t.disp.cell 20 10).on)) =
      some ([false, true], true, false) := by decide +kernel
/-- S5 -/
theorem test_scr :
    after (light [(10, 5), (123, 5), (124, 5)] (inMode .hires State.reset)) 0x00FB
      (fun t => litOf [(10, 5), (14, 5), (127, 5), (124, 5)] t) = some [false, true, true, false] := by decide +kernel
/-- S7 -/
theorem test_scr_lores :
    after (light [(10, 5), (59, 5), (60, 5)] State.reset) 0x00FB
      (fun t => litOf [(14, 5), (63, 5), (10, 5)] t) = some [true, true, false] := by decide +kernel
/-- S6 -/
theorem test_scl :
    after (light [(10, 5), (2, 5), (4, 5)] (inMode .hires State.reset)) 0x00FC
      (fun t => litOf [(6, 5), (0, 5), (10, 5)] t) = some [true, true, false] := by decide +kernel
/-- M3 -/
theorem test_low :
    after (light [(7, 0), (8, 2), (9, 3)] (inMode .hires State.reset)) 0x00FE
      (fun t => (t.mode, litOf [(3, 0), (4, 1)] t)) = some (.lores, [false, true]) := by decide +kernel
/-- M1 -/
theorem test_high :
    after (light [(3, 0)] State.reset) 0x00FF
      (fun t => (t.mode, litOf [(6, 0), (7, 0), (6, 1), (7, 1), (5, 0)] t)) = some (.hires, [true, true, true, true, false]) := by decide +kernel
/-- M2 -/
theorem test_high_clears :
    after (params (fun p => { p with modeSwitchClears := true }) (light [(3, 0)] State.reset)) 0x00FF
      (fun t => (t.mode, t.disp)) = some (.hires, []) := by decide +kernel
/-- M4 -/
theorem test_hires64 :
    after (light [(3, 0)] State.reset) 0x0230 (fun t => (t.mode, t.disp)) = some (.viphires, []) := by decide +kernel

/-! ### Timers and keys (2.6) -/

/-- T1 -/
theorem test_ld_vx_dt :
    after (State.reset.setDT 0x3B#8) 0xF507 (fun t => t.getV 5#4) = some 0x3B#8 := by decide +kernel
/-- T2 -/
theorem test_ld_dt_vx :
    after (regs [(5#4, 0x3C#8)]) 0xF515 State.DT = some 0x3C#8 := by decide +kernel
/-- T3 -/
theorem test_ld_st_starts :
    after (regs [(2#4, 2#8)]) 0xF218 (fun t => (t.ST, t.outputs)) = some (2#8, [.toneStart]) := by decide +kernel
/-- T5 -/
theorem test_ld_st_stops :
    after ((State.reset).setST 5#8) 0xF218 (fun t => (t.ST, t.outputs)) = some (0#8, [.toneStop]) := by decide +kernel
/-- K3 -/
theorem test_skp_low_nibble :
    after ((regs [(1#4, 0x1A#8)]).pressKey 10) 0xE19E (fun t => (t.pc, t.keyDown 0xA#4)) = some (0x204#12, true) := by decide +kernel
/-- K2 -/
theorem test_skp_up :
    after (regs [(1#4, 0x0A#8)]) 0xE19E State.pc = some 0x202#12 := by decide +kernel
/-- K4 -/
theorem test_sknp_down :
    after ((regs [(1#4, 0x0A#8)]).pressKey 10) 0xE1A1 State.pc = some 0x202#12 := by decide +kernel
/-- K5 -/
theorem test_sknp_up :
    after (regs [(1#4, 0x0A#8)]) 0xE1A1 State.pc = some 0x204#12 := by decide +kernel
/-- K6 -/
theorem test_ld_vx_k :
    after ((regs [(3#4, 0x55#8)]).pressKey 9) 0xF30A
      (fun t => (t.pc, t.getV 3#4, t.waitReg, t.sched, t.keyDown 9#4)) =
      some (0x202#12, 0x55#8, some 3#4, .waitingForKey, true) := by decide +kernel

/-! ### Events (60_exceptions.md, part 4) -/

/-- The state of K6 after its Step: a key-wait for V3. -/
def waiting : State := ((regs [(3#4, 0x55#8)]).setWaitReg (some 3#4)).setSched .waitingForKey

/-- A draw of a one-row sprite waiting for the refresh edge. -/
def drawing : State :=
  ((quirk (fun q => { q with vblankSync := true }) State.reset).setPendingDraw (some ⟨0#8, 0#8, 1#4⟩)).setSched
    .waitingForVblank

/-- K6 -/
theorem test_poll_keys :
    afterEvent (waiting.pressKey 9) .pollKeys (fun t => (t.getV 3#4, t.keyDown 9#4, t.waitReg, t.sched)) =
      some (9#8, false, none, .running) := by decide +kernel
/-- K7 -/
theorem test_poll_keys_lowest :
    afterEvent ((waiting.pressKey 15).pressKey 0) .pollKeys (fun t => (t.getV 3#4, t.keyDown 0#4, t.keyDown 0xF#4)) =
      some (0#8, false, true) := by decide +kernel
/-- W8 -/
theorem test_tick_timers :
    afterEvent ((State.reset.setDT 2#8).setST 1#8) .tick60 (fun t => (t.DT, t.ST, t.outputs.tail)) =
      some (1#8, 0#8, [.toneStop]) := by decide +kernel
/-- P3's flush, with the first font byte F0 at I = 000 -/
theorem test_tick_flushes :
    afterEvent drawing .tick60 (fun t => (litOf [(0, 0), (3, 0), (4, 0)] t, t.sched, t.pendingDraw)) =
      some ([true, true, false], .running, none) := by decide +kernel
/-- E4: the empty image -/
theorem test_load_too_long :
    afterEvent State.reset (.load (some []) (record 600)) (fun t => (t.loaded, t.running, t.outputs)) =
      some (false, false, [.supplyFailure]) := by decide +kernel
/-- E4 -/
theorem test_load_stops_tone :
    afterEvent (State.reset.setST 5#8) (.load (some [0x60#8, 0x01#8]) (record 600))
      (fun t => (t.ST, t.outputs, t.fetchWord, t.loaded)) = some (0#8, [.loadOk, .toneStop], 0x6001#16, true) := by decide +kernel
/-- E1: 700 instructions a second give 11 and leave 40 -/
theorem test_frame_budget :
    (({ State.reset with cfg := { resetCfg with ips := 700 } } : State).frameBudget,
      ({ State.reset with cfg := { resetCfg with ips := 700 } } : State).frameAcc) = (11, 40) := by decide +kernel
/-- E3: after Stop nothing but the host's events is enabled -/
theorem test_stopped_is_stuck :
    (match step (State.reset.setRunning false) with
      | .next _ => false
      | .fault r => decide (r = .halted)
      | .refused _ => false) = true := by decide +kernel

/-! ### Witnesses: states and operands that meet the hypotheses of the obligations -/

/-- DecodeOfEncodeGivesInstr: the one constructor with a check, at a well-formed operand, and one without. -/
theorem witness_DecodeOfEncodeGivesInstr :
    (Instr.sys 0xFFF#12).wellFormed = true ∧ (Instr.drw 0xF#4 0x0#4 0xF#4).wellFormed = true := by decide

theorem witness_EncodeOfDecodeGivesWord : decode 0x00FD#16 = .ok (.sys 0x0FD#12) := by decide

/-- DecoderSelectsFirstTableRow: both clauses. -/
theorem witness_DecoderSelectsFirstTableRow :
    decode 0xFFFF#16 = .error (.unrecognized 0xFFFF#16) ∧ decode 0x00EE#16 = .ok .ret := by decide

/-- ListedWordsTakeFatal: a word no row matches, and a SYS word, at `pc`; and a family without unrecognized words. -/
theorem witness_ListedWordsTakeFatal :
    (State.reset.placeWord 0x5121#16).loaded = true ∧ (State.reset.placeWord 0x5121#16).running = true ∧
    (State.reset.placeWord 0x5121#16).sched = .running ∧
    decode (State.reset.placeWord 0x5121#16).fetchWord = .error (.unrecognized 0x5121#16) ∧
    decode (State.reset.placeWord 0x0000#16).fetchWord = .ok (.sys 0x000#12) ∧
    (0x0#4 : Nibble) ∉ [0x5#4, 0x8#4, 0x9#4, 0xE#4, 0xF#4] := by decide +kernel

/-- StepRunsDecodedInstr: the three clauses. -/
theorem witness_StepRunsDecodedInstr :
    (State.reset.placeWord 0x6A7D#16).loaded = true ∧ (State.reset.placeWord 0x6A7D#16).running = true ∧
    (State.reset.placeWord 0x6A7D#16).sched = .running ∧
    decode (State.reset.placeWord 0x6A7D#16).fetchWord = .ok (.ldImm 0xA#4 0x7D#8) ∧
    (State.reset.placeWord 0x6A7D#16).inputs = [] ∧
    decode ((State.reset.placeWord 0x6A7D#16).setInputs [.event .step]).fetchWord = .ok (.ldImm 0xA#4 0x7D#8) ∧
    ((State.reset.placeWord 0x6A7D#16).setInputs [.event .step]).inputs = [.event .step] ∧
    enabled .pollKeys State.reset = false := by decide +kernel

/-- FetchIsBigEndianAndWraps: the last address. -/
theorem witness_FetchIsBigEndianAndWraps : (State.reset.setPc 0xFFF#12).pc = 0xFFF#12 := rfl

/-- EventsHappenExactlyWhenEnabled: an event without a transition, and one with. -/
theorem witness_EventsHappenExactlyWhenEnabled :
    (¬ ∃ t, fire .pollKeys State.reset = .next t) ∧ ∃ t, fire .tick60 State.reset = .next t :=
  ⟨fun ⟨_, h⟩ => (by cases h), _, rfl⟩

/-- RetPopsOrFallsBack: both stacks. -/
theorem witness_RetPopsOrFallsBack :
    State.reset.stack = [] ∧ (State.reset.setStack [0x204#12]).stack = 0x204#12 :: [] := ⟨rfl, rfl⟩

/-- JumpsLoadPc: both quirks. -/
theorem witness_JumpsLoadPc :
    State.reset.cfg.q.jumpSource = .v0 ∧
    (quirk (fun q => { q with jumpSource := .vx }) State.reset).cfg.q.jumpSource = .vx := ⟨rfl, rfl⟩

/-- CallThenRetReturns: CALL 300 at 200 and RET at 300. -/
theorem witness_CallThenRetReturns :
    ∃ t, step (bytes [(0x300#12, 0x00#8), (0x301#12, 0xEE#8)] (State.reset.placeWord 0x2300#16)) = .next t ∧
      (bytes [(0x300#12, 0x00#8), (0x301#12, 0xEE#8)] (State.reset.placeWord 0x2300#16)).fetchWord =
        (0x2#4 ++ 0x300#12 : BitVec 16) ∧
      (bytes [(0x300#12, 0x00#8), (0x301#12, 0xEE#8)] (State.reset.placeWord 0x2300#16)).loaded = true ∧
      (bytes [(0x300#12, 0x00#8), (0x301#12, 0xEE#8)] (State.reset.placeWord 0x2300#16)).running = true ∧
      (bytes [(0x300#12, 0x00#8), (0x301#12, 0xEE#8)] (State.reset.placeWord 0x2300#16)).sched = .running ∧
      (bytes [(0x300#12, 0x00#8), (0x301#12, 0xEE#8)] (State.reset.placeWord 0x2300#16)).inputs = [] ∧
      t.fetchWord = 0x00EE#16 :=
  ⟨_, rfl, by decide +kernel, rfl, rfl, rfl, rfl, by decide +kernel⟩

/-- LogicOpsClearFlagByQuirk: the three instructions, both quirks, and a destination that is not VF. -/
theorem witness_LogicOpsClearFlagByQuirk :
    (∃ r, Instr.or 1#4 2#4 = .or 1#4 2#4 ∧ r = State.reset.getV 1#4 ||| State.reset.getV 2#4) ∧
    (∃ r, Instr.and 1#4 2#4 = .and 1#4 2#4 ∧ r = State.reset.getV 1#4 &&& State.reset.getV 2#4) ∧
    (∃ r, Instr.xor 1#4 2#4 = .xor 1#4 2#4 ∧ r = State.reset.getV 1#4 ^^^ State.reset.getV 2#4) ∧
    State.reset.cfg.q.logicClearsVF = false ∧
    (quirk (fun q => { q with logicClearsVF := true }) State.reset).cfg.q.logicClearsVF = true ∧
    (1#4 : Nibble) ≠ 0xF#4 := ⟨⟨_, rfl, rfl⟩, ⟨_, rfl, rfl⟩, ⟨_, rfl, rfl⟩, rfl, rfl, by decide⟩

/-- AddSetsCarry: a destination that is not VF. -/
theorem witness_AddSetsCarry : (0xE#4 : Nibble) ≠ 0xF#4 := by decide

/-- SubtractionsSetNoBorrow: both instructions. -/
theorem witness_SubtractionsSetNoBorrow :
    (∃ a b, Instr.sub 1#4 2#4 = .sub 1#4 2#4 ∧ a = State.reset.getV 1#4 ∧ b = State.reset.getV 2#4) ∧
    (∃ a b, Instr.subn 1#4 2#4 = .subn 1#4 2#4 ∧ a = State.reset.getV 2#4 ∧ b = State.reset.getV 1#4) :=
  ⟨⟨_, _, rfl, rfl, rfl⟩, ⟨_, _, rfl, rfl, rfl⟩⟩

/-- ShiftsPutBitOutInFlag: both quirks. -/
theorem witness_ShiftsPutBitOutInFlag :
    (State.reset.cfg.q.shiftSource = .vx ∧ (0#8 : Byte) = State.reset.getV 1#4) ∧
    ((quirk (fun q => { q with shiftSource := .vy }) (regs [(2#4, 4#8)])).cfg.q.shiftSource = .vy ∧
      (4#8 : Byte) = (quirk (fun q => { q with shiftSource := .vy }) (regs [(2#4, 4#8)])).getV 2#4) := by
  decide +kernel

/-- AddIndexWrapsAndSparesFlag: both values of the switch. -/
theorem witness_AddIndexWrapsAndSparesFlag :
    State.reset.cfg.params.addISetsVF = false ∧
    (params (fun p => { p with addISetsVF := true }) State.reset).cfg.params.addISetsVF = true := ⟨rfl, rfl⟩

/-- BulkStoreWritesRegisters and BulkLoadReadsRegisters: the least and the greatest register number, one above it, and
the three index quirks. -/
theorem witness_BulkMoves :
    (0x0#4 : Nibble).toNat ≤ (0x0#4 : Nibble).toNat ∧ (0xF#4 : Nibble).toNat ≤ (0xF#4 : Nibble).toNat ∧
    (0xE#4 : Nibble).toNat < (0xF#4 : Nibble).toNat ∧ State.reset.cfg.q.memIncrement = .byXPlus1 ∧
    (quirk (fun q => { q with memIncrement := .byX }) State.reset).cfg.q.memIncrement = .byX ∧
    (quirk (fun q => { q with memIncrement := .unchanged }) State.reset).cfg.q.memIncrement = .unchanged := by
  decide

/-- BulkStoreLoadRoundTrip: the later state is the store's own, with I put back. -/
theorem witness_BulkStoreLoadRoundTrip :
    ∃ t, exec (.storeRegs 0xF#4) State.reset = .next t ∧ (∀ a, (t.setI 0x000#12).readByte a = t.readByte a) ∧
      (t.setI 0x000#12).I = State.reset.I := by
  obtain ⟨t, ht⟩ := exec_next (.storeRegs 0xF#4) State.reset
  exact ⟨t, ht, fun _ => rfl, rfl⟩

/-- StoreIsSeenByNextFetch: V0 and V1 stored over the word at `pc`. -/
theorem witness_StoreIsSeenByNextFetch :
    (0x0#4 : Nibble).toNat + 1 ≤ (0x1#4 : Nibble).toNat ∧
    (State.reset.setI 0x200#12).pc = (State.reset.setI 0x200#12).effAddr (0x0#4 : Nibble).toNat := by decide

/-- ClearingTurnsOffEveryCell: both instructions, on a display with a lit pixel. -/
theorem witness_ClearingTurnsOffEveryCell :
    Display.wf (light [(63, 31)] State.reset).disp ∧
    (Instr.cls = .cls ∧ (0x00E0#16 : Word) = 0x00E0#16 ∧ ResMode.lores = (light [(63, 31)] State.reset).mode ∧
      [Part.disp] = [.disp]) ∧
    (Instr.hires64 = .hires64 ∧ (0x0230#16 : Word) = 0x0230#16 ∧ ResMode.viphires = .viphires ∧
      [Part.mode, Part.disp] = [.mode, .disp]) := by decide +kernel

theorem witness_SuspendingInstrsBeginTheirWait :
    (quirk (fun q => { q with vblankSync := true }) State.reset).cfg.q.vblankSync = true := rfl

/-- DrwXorsCoveredPixels and DrwCollisionFlagAndFrame: without the quirk, a pixel the first font row covers, one it
does not, a block's cell, a draw that collides and one that does not. -/
theorem witness_Drw :
    State.reset.cfg.q.vblankSync = false ∧
    SpriteCovers State.reset ⟨0#8, 0#8, 1#4⟩ 3 0 ∧ ¬ SpriteCovers State.reset ⟨0#8, 0#8, 0#4⟩ 3 0 ∧
    (7, 1) ∈ blockCells State.reset.mode 3 0 ∧
    SpriteCollides (light [(3, 0)] State.reset) ⟨0#8, 0#8, 1#4⟩ ∧ ¬ SpriteCollides State.reset ⟨0#8, 0#8, 0#4⟩ := by
  refine ⟨rfl, ⟨0, 3, by decide, by decide, by decide +kernel, by decide, by decide⟩, ?_, by decide, ?_, ?_⟩
  · rintro ⟨r, b, hr, _⟩
    exact absurd hr (by simp [State.reset])
  · exact ⟨3, by decide, 0, by decide, ⟨0, 3, by decide, by decide, by decide +kernel, by decide, by decide⟩,
      by decide +kernel⟩
  · rintro ⟨_, _, _, _, ⟨r, b, hr, _⟩, _⟩
    exact absurd hr (by simp [State.reset])

/-- DrawTwiceRestoresPixels: an empty display. -/
theorem witness_DrawTwiceRestoresPixels :
    (∃ t, t = State.reset.drawSprite ⟨10#8, 5#8, 8#4⟩) ∧
    ∀ px < State.reset.mode.width, ∀ py < State.reset.mode.height, State.reset.pixOn px py = false :=
  ⟨⟨_, rfl⟩, fun _ _ _ _ => rfl⟩

/-- ScrollsMoveCells: LORES with LOGICAL units, at the longest distance, and BACKING units. -/
theorem witness_ScrollsMoveCells :
    30 = (if State.reset.cfg.params.scrollUnits = .logical then (0xF#4 : Nibble).toNat * State.reset.mode.blockH
      else (0xF#4 : Nibble).toNat) ∧
    8 = (if State.reset.cfg.params.scrollUnits = .logical then 4 * State.reset.mode.blockW else 4) ∧
    4 = (if (params (fun p => { p with scrollUnits := .backing }) State.reset).cfg.params.scrollUnits = .logical
      then 4 * State.reset.mode.blockW else 4) := by decide

/-- LowAndHighSwitchMode: both switches of MODE_SWITCH_CLEARS (the instructions are the disjunction's own). -/
theorem witness_LowAndHighSwitchMode :
    (Instr.low = .low ∧ (0x00FE#16 : Word) = 0x00FE#16 ∧ ResMode.lores = .lores) ∧
    (Instr.high = .high ∧ (0x00FF#16 : Word) = 0x00FF#16 ∧ ResMode.hires = .hires) ∧
    State.reset.cfg.params.modeSwitchClears = false ∧
    (params (fun p => { p with modeSwitchClears := true }) State.reset).cfg.params.modeSwitchClears = true :=
  ⟨⟨rfl, rfl, rfl⟩, ⟨rfl, rfl, rfl⟩, rfl, rfl⟩

/-- FadeNeverInfluencesInstr: a cell that fades beside one that does not. -/
theorem witness_FadeNeverInfluencesInstr :
    EqualButFade (State.reset.setDisp [(5, ⟨false, 3⟩)]) State.reset := by
  refine ⟨by decide +kernel, Display.wf_nil, ?_, rfl⟩
  intro bx _ row _
  simp only [State.setDisp_disp, Display.cell, Sparse.get]
  split <;> rfl

/-- InstrKeepsBlocksUniform: a block drawn in LORES. -/
theorem witness_InstrKeepsBlocksUniform :
    Instr.cls ≠ .low ∧ Instr.cls ≠ .high ∧ Instr.cls ≠ .hires64 ∧ State.reset.cfg.params.scrollUnits = .logical ∧
    Display.wf State.reset.disp ∧ State.reset.BlocksUniform ∧ ∃ t, exec .cls State.reset = .next t :=
  ⟨by decide, by decide, by decide, rfl, Display.wf_nil, fun _ _ _ _ _ _ => rfl, _, rfl⟩

/-- LdSTEmitsToneEdges: the three clauses. -/
theorem witness_LdSTEmitsToneEdges :
    (State.reset.ST = 0 ∧ (regs [(2#4, 2#8)]).getV 2#4 ≠ 0) ∧
    ((State.reset.setST 5#8).ST ≠ 0 ∧ (State.reset.setST 5#8).getV 2#4 = 0) ∧
    (State.reset.ST = 0 ↔ State.reset.getV 2#4 = 0) := by decide +kernel

/-- KeySkipsTestLowNibble: the key is the low nibble of V1. -/
theorem witness_KeySkipsTestLowNibble : (0xA#4 : Nibble).toNat = ((regs [(1#4, 0x1A#8)]).getV 1#4).toNat % 16 := by
  decide +kernel

/-- PollKeysCapturesAKey: no key down, and the last key down. -/
theorem witness_PollKeysCapturesAKey :
    waiting.loaded = true ∧ waiting.running = true ∧ waiting.sched = .waitingForKey ∧ waiting.waitReg = some 3#4 ∧
    (∀ k, waiting.keyDown k = false) ∧ (waiting.pressKey 15).waitReg = some 3#4 ∧
    (waiting.pressKey 15).keyDown 0xF#4 = true ∧ waiting.cfg.params.keyPick = .lowest := by decide +kernel

theorem witness_KeyEventsChangeOneKey : State.reset.loaded = true := rfl

/-- TickCountsTimersDown and TickSnapshotsThenAgesFade: both clauses of the tone. -/
theorem witness_Tick :
    State.reset.loaded = true ∧ State.reset.running = true ∧ State.reset.sched ≠ .waitingForVblank ∧
    Display.wf State.reset.disp ∧ (State.reset.setST 1#8).ST = 1 ∧ (State.reset.setST 2#8).ST ≠ 1 := by decide

/-- TickFlushesQueuedDraw. -/
theorem witness_TickFlushesQueuedDraw :
    drawing.loaded = true ∧ drawing.running = true ∧ drawing.sched = .waitingForVblank ∧
    drawing.pendingDraw = some ⟨0#8, 0#8, 1#4⟩ ∧ Display.wf drawing.disp ∧
    ∃ u, u = drawing.drawSprite ⟨0#8, 0#8, 1#4⟩ :=
  ⟨rfl, rfl, rfl, rfl, Display.wf_nil, _, rfl⟩

/-- LoadResetsEverything: the shortest and the longest image, and both clauses of the tone. -/
theorem witness_LoadResetsEverything :
    1 ≤ (List.replicate 1 0x00#8).length ∧ (List.replicate 1 0x00#8).length ≤ 3584 ∧
    1 ≤ (List.replicate 3584 0x00#8).length ∧ (List.replicate 3584 0x00#8).length ≤ 3584 ∧
    1 ≤ (record 1).ips ∧ (record 1).params.font.length = 512 ∧
    ¬ ((record 1).incrementByX = true ∧ (record 1).incrementUnchanged = true) ∧
    ((State.reset.setST 5#8).loaded = true ∧ (State.reset.setST 5#8).ST ≠ 0) ∧
    ¬ (State.reset.loaded = true ∧ State.reset.ST ≠ 0) := by
  simp only [List.length_replicate]
  decide +kernel

/-- R212, R210: before the first load a queued Step has no transition, and a queued load of one byte starts the core. -/
theorem test_first_load :
    step (State.beforeFirstLoad.setInputs [.event .step]) = .fault .notEnabled ∧
    (match step (State.beforeFirstLoad.setInputs [.event (.load (some [0x12#8]) (record 700))]) with
      | .next t => some (t.loaded, t.running, t.pc, t.readByte 0x200#12, t.getV 0xF#4, t.cfg.ips)
      | .fault _ => none
      | .refused _ => none) = some (true, true, 0x200#12, 0x12#8, 0x00#8, 700) :=
  ⟨rfl, by decide +kernel⟩

/-- RefusedLoadUnloads: each of the reasons, at its boundary, and both clauses of the tone. -/
theorem witness_RefusedLoadUnloads :
    ((none : Option (List Byte)) = none) ∧ (([] : List Byte).length = 0) ∧
    (3584 < (List.replicate 3585 0x00#8).length) ∧ ((record 0).ips = 0) ∧
    (({ record 1 with params := { defaultParams with font := [] } } : Metadata).params.font.length ≠ 512) ∧
    (({ record 1 with incrementByX := true, incrementUnchanged := true } : Metadata).incrementByX = true ∧
      ({ record 1 with incrementByX := true, incrementUnchanged := true } : Metadata).incrementUnchanged = true) ∧
    ((State.reset.setST 5#8).loaded = true ∧ (State.reset.setST 5#8).ST ≠ 0) ∧
    ¬ (State.reset.loaded = true ∧ State.reset.ST ≠ 0) := by
  simp only [List.length_replicate]
  decide

/-- QueuedTickRefinesSchedTick: a tick that runs one instruction. -/
theorem witness_QueuedTickRefinesSchedTick :
    ((State.reset.placeWord 0x6A7D#16).running = true → (State.reset.placeWord 0x6A7D#16).loaded = true) ∧
    (State.reset.placeWord 0x6A7D#16).inputs = [] ∧
    ∃ t, schedTick 1 (State.reset.placeWord 0x6A7D#16) = .next t := ⟨fun _ => rfl, rfl, _, rfl⟩

/-- SixtyFramesAttemptIps: the greatest accumulator, and a frame of a running and of a waiting core. -/
theorem witness_SixtyFramesAttemptIps :
    59 < 60 ∧ (State.reset.setInputs [.frame]).inputs = .frame :: [] ∧ State.reset.running = true ∧
    State.reset.sched = .running ∧ (waiting.setInputs [.frame]).inputs = .frame :: [] ∧
    ¬ (waiting.running = true ∧ waiting.sched = .running) := by decide

/-- The reset state with a word to fetch meets the machine's invariant. -/
theorem inv_placed (w : Word) : (State.reset.placeWord w).Inv := by
  refine ⟨Memory.wf_write (Memory.wf_write Memory.wf_nil _ _) _ _, Display.wf_nil, fun _ => rfl, fun _ => ?_⟩
  refine ⟨?_, ?_, ?_, ?_, ?_, ?_, ?_, ?_⟩
  iterate 4 simp [State.placeWord, State.reset]
  · intro _ _ _ _ h
    cases h
  · intro _ _ _ _
    exact Nat.zero_le _
  iterate 2 simp [State.placeWord, State.reset]

theorem witness_StepKeepsMachineInvariant :
    (State.reset.placeWord 0x6A7D#16).Inv ∧ ∃ t, step (State.reset.placeWord 0x6A7D#16) = .next t :=
  ⟨inv_placed _, _, rfl⟩

/-- StepKeepsToneAlternation: a tone that is on. -/
theorem witness_StepKeepsToneAlternation :
    (((State.reset.placeWord 0x6A7D#16).setST 5#8).emit .toneStart).ToneInv ∧
    ∃ t, step (((State.reset.placeWord 0x6A7D#16).setST 5#8).emit .toneStart) = .next t := by
  refine ⟨⟨rfl, ?_⟩, _, rfl⟩
  simp [State.toneOn, toneEdges, State.placeWord, State.setST, State.emit, State.reset]

theorem witness_FlagWrittenOnlyByListedInstrs :
    ∃ t, exec (.ldImm 0xF#4 0x07#8) State.reset = .next t ∧ t.getV 0xF#4 ≠ State.reset.getV 0xF#4 :=
  ⟨_, rfl, by decide⟩

theorem witness_OnlyStepAndLoadMoveProgram :
    Event.tick60 ≠ .step ∧ (∀ im md, Event.tick60 ≠ .load im md) ∧ ∃ t, fire .tick60 State.reset = .next t :=
  ⟨by decide, fun _ _ h => (by cases h), _, rfl⟩

/-- WaitsEndOnlyByTheirEvents: both waits end. -/
theorem witness_WaitsEndOnlyByTheirEvents :
    (∃ t, fire .pollKeys (waiting.pressKey 9) = .next t ∧ (waiting.pressKey 9).sched = .waitingForKey ∧
      t.sched ≠ .waitingForKey) ∧
    (∃ t, fire .tick60 drawing = .next t ∧ drawing.sched = .waitingForVblank ∧ t.sched ≠ .waitingForVblank) :=
  ⟨⟨_, rfl, rfl, by decide +kernel⟩, ⟨_, rfl, rfl, by decide +kernel⟩⟩

theorem witness_StoppedCoreAwaitsLoad :
    State.reset.loaded = true ∧ (State.reset.setRunning false).running = false ∧
    (∀ im md, Event.keyDown 4 ≠ .load im md) ∧
    ∃ t, fire (.keyDown 4) (State.reset.setRunning false) = .next t :=
  ⟨rfl, rfl, fun _ _ h => (by cases h), _, rfl⟩

/-- SelfJumpStepsInPlace: 1200 at 200. -/
theorem witness_SelfJumpStepsInPlace :
    EndedNormally 0x200#12 (State.reset.placeWord 0x1200#16) ∧ (State.reset.placeWord 0x1200#16).inputs = [] :=
  ⟨⟨rfl, rfl, rfl, rfl, by decide +kernel⟩, rfl⟩

/-- Ticks keep a core loaded and running. -/
theorem ticks_alive (n : Nat) (s : State) (h : s.loaded = true ∧ s.running = true) :
    (State.tick60^[n] s).loaded = true ∧ (State.tick60^[n] s).running = true := by
  induction n generalizing s with
  | zero => exact h
  | succ n ih =>
    have hf := State.tick60_only s
    exact ih s.tick60 ⟨(hf.2.2.2.2.2.2.2.2.2.2.2.2.2.1 (by decide)).trans h.1,
      (hf.2.2.2.2.2.2.2.2.2.2.2.2.2.2.1 (by decide)).trans h.2⟩

/-- FairTickEndsVblankWait: the run of ticks from a queued draw. -/
theorem witness_FairTickEndsVblankWait :
    ∃ (σ : Nat → State) (e : Nat → Event), IsRun σ e ∧ WeaklyFair .tick60 σ e ∧ (σ 0).loaded = true ∧
      (σ 0).running = true ∧ (σ 0).sched = .waitingForVblank ∧
      ∀ m ≥ 0, e m ≠ .stop ∧ ∀ im md, e m ≠ .load im md := by
  refine ⟨fun n => State.tick60^[n] drawing, fun _ => .tick60, ?_, fun n _ => ⟨n, le_refl n, rfl⟩, rfl, rfl, rfl,
    fun _ _ => ⟨fun h => (by cases h), fun _ _ h => (by cases h)⟩⟩
  intro n
  have h := ticks_alive n drawing ⟨rfl, rfl⟩
  show fire .tick60 (State.tick60^[n] drawing) = .next (State.tick60^[n + 1] drawing)
  rw [Function.iterate_succ_apply']
  exact fire_eq_next.mpr ⟨by simp [enabled, h.1, h.2], rfl⟩

/-- The run of `witness_FairPollAndKeyEndKeyWait`: a key press, a poll, and so on. -/
def pollingRun : Nat → State
  | 0 => waiting
  | n + 1 =>
    if n % 2 = 0 then (pollingRun n).pressKey 5
    else if enabled .pollKeys (pollingRun n) = true then (pollingRun n).pollKeys else (pollingRun n).pressKey 5

/-- The events of that run. -/
def pollingEvents (n : Nat) : Event :=
  if n % 2 = 0 then .keyDown 5 else if enabled .pollKeys (pollingRun n) = true then .pollKeys else .keyDown 5

theorem pollingRun_loaded (n : Nat) : (pollingRun n).loaded = true := by
  induction n with
  | zero => rfl
  | succ n ih =>
    unfold pollingRun
    split
    · exact ih
    · split
      · exact ((State.pollKeys_only _).2.2.2.2.2.2.2.2.2.2.2.2.2.1 (by decide)).trans ih
      · exact ih

/-- FairPollAndKeyEndKeyWait: keys are pressed at every even point and polled, where a poll is enabled, at every odd
one. -/
theorem witness_FairPollAndKeyEndKeyWait :
    IsRun pollingRun pollingEvents ∧ WeaklyFair .pollKeys pollingRun pollingEvents ∧ HostPresses pollingEvents ∧
      (pollingRun 0).loaded = true ∧ (pollingRun 0).running = true ∧ (pollingRun 0).sched = .waitingForKey ∧
      ∀ m ≥ 0, pollingEvents m ≠ .stop ∧ (∀ im md, pollingEvents m ≠ .load im md) ∧ ∀ i, pollingEvents m ≠ .keyUp i := by
  refine ⟨?_, ?_, ?_, rfl, rfl, rfl, ?_⟩
  · intro n
    have hk : fire (.keyDown 5) (pollingRun n) = .next ((pollingRun n).pressKey 5) :=
      fire_eq_next.mpr ⟨by simp [enabled, pollingRun_loaded n], rfl⟩
    unfold pollingEvents
    rw [pollingRun]
    by_cases h : n % 2 = 0
    · rw [if_pos h, if_pos h]
      exact hk
    · rw [if_neg h, if_neg h]
      by_cases he : enabled .pollKeys (pollingRun n) = true
      · rw [if_pos he, if_pos he]
        exact fire_eq_next.mpr ⟨he, rfl⟩
      · rw [if_neg he, if_neg he]
        exact hk
  · intro n h
    refine ⟨2 * n + 1, by omega, ?_⟩
    unfold pollingEvents
    rw [if_neg (by omega), if_pos (h (2 * n + 1) (by omega))]
  · intro n
    refine ⟨2 * n, by omega, 5, by omega, ?_⟩
    unfold pollingEvents
    rw [if_pos (by omega)]
  · intro m _
    unfold pollingEvents
    split
    · exact ⟨by decide, fun _ _ h => (by cases h), fun _ h => (by cases h)⟩
    · split
      · exact ⟨by decide, fun _ _ h => (by cases h), fun _ h => (by cases h)⟩
      · exact ⟨by decide, fun _ _ h => (by cases h), fun _ h => (by cases h)⟩

end Sys2Proof.Tests
end

section
/-! What `Load` does with a valid image and record (R210, R211): the record it puts in force, the state after it and
the outputs. -/

namespace Sys2Proof.Machine

/-! ### The record supplied at `Load` -/

/-- The index increment the two flags of the record select (C2); `byX` wins where both are set, which R211 refuses. -/
def incrementOf (md : Metadata) : MemIncrement :=
  if md.incrementByX then .byX else if md.incrementUnchanged then .unchanged else .byXPlus1

/-- The configuration a valid record puts in force (R38, R210). -/
def cfgOf (md : Metadata) : Cfg where
  q :=
    { logicClearsVF := md.logicClearsVF
      shiftSource := md.shiftSource
      jumpSource := md.jumpSource
      spriteEdge := md.spriteEdge
      vblankSync := md.vblankSync
      memIncrement := incrementOf md }
  ips := md.ips
  params := md.params

theorem quirksOf_eq_some {md : Metadata} (h : ¬ (md.incrementByX = true ∧ md.incrementUnchanged = true)) :
    quirksOf md = some (cfgOf md).q := by
  cases hx : md.incrementByX <;> cases hu : md.incrementUnchanged
  case true.true => exact absurd ⟨hx, hu⟩ h
  all_goals simp [quirksOf, cfgOf, incrementOf, hx, hu]

/-- R211's conditions for a valid load. -/
theorem loadedPair_eq_some {image : List Byte} {md : Metadata} (hpos : 1 ≤ image.length) (hmax : image.length ≤ 3584)
    (hips : 1 ≤ md.ips) (hfont : md.params.font.length = 512)
    (hinc : ¬ (md.incrementByX = true ∧ md.incrementUnchanged = true)) :
    loadedPair (some image) md = some (image, cfgOf md) := by
  have hfits : imageFits image = true := decide_eq_true ⟨hpos, hmax⟩
  have hrates : ratesOk md = true := decide_eq_true ⟨hips, hfont⟩
  simp [loadedPair, quirksOf_eq_some hinc, hfits, hrates, cfgOf]

/-! ### The state after a valid `Load` -/

theorem State.load_of_loadedPair {s : State} {image : Option (List Byte)} {md : Metadata} {bytes : List Byte}
    {cfg : Cfg} (h : loadedPair image md = some (bytes, cfg)) :
    s.load image md = (s.silence.resetWith bytes cfg).emit .loadOk := by
  simp [State.load, h]

theorem fire_load (s : State) (image : Option (List Byte)) (md : Metadata) :
    fire (.load image md) s = .next (s.load image md) := rfl

/-- The tone of a loaded core is stopped before a load, and only that (R210). -/
theorem State.silence_outputs_of_toneOn {s : State} (hl : s.loaded = true) (hST : s.ST ≠ 0) :
    s.silence.outputs = .toneStop :: s.outputs := by
  rw [State.silence, if_pos ⟨hl, hST⟩, State.emit_outputs]

theorem State.silence_outputs_of_not_toneOn {s : State} (h : ¬ (s.loaded = true ∧ s.ST ≠ 0)) :
    s.silence.outputs = s.outputs := by
  rw [State.silence, if_neg h]

@[simp] theorem State.resetWith_outputs (s : State) (image : List Byte) (cfg : Cfg) :
    (s.resetWith image cfg).outputs = s.outputs := rfl

@[simp] theorem State.emit_keyDown (s : State) (o : Output) (k : Nibble) : (s.emit o).keyDown k = s.keyDown k := rfl

@[simp] theorem State.resetWith_getV (s : State) (image : List Byte) (cfg : Cfg) (x : Nibble) :
    (s.resetWith image cfg).getV x = 0 := by
  simp [State.resetWith, State.getV, State.reset]

@[simp] theorem State.resetWith_keyDown (s : State) (image : List Byte) (cfg : Cfg) (k : Nibble) :
    (s.resetWith image cfg).keyDown k = false := by
  simp [State.resetWith, State.keyDown, State.reset]

/-- Settles O46: a valid `Load` answers the reset state with FONT, the image and the record put in, so each element is
read off `State.resetWith`; memory is `read_loadedMemory`, the outputs are those of `State.silence`. -/
theorem loadResetsEverything : Obligations.LoadResetsEverything := by
  intro s image md hpos hmax hips hfont hinc
  refine ⟨(s.silence.resetWith image (cfgOf md)).emit .loadOk, ?fires, ?mem, ?regs, rfl, rfl, rfl, rfl, rfl, ?disp,
    rfl, ?keys, rfl, rfl, rfl, rfl, rfl, rfl, rfl, rfl, rfl, rfl, rfl, rfl, rfl, rfl, rfl, rfl, rfl, ?toneOn, ?toneOff⟩
  case fires =>
    rw [fire_load, State.load_of_loadedPair (loadedPair_eq_some hpos hmax hips hfont hinc)]
  case mem =>
    intro a
    exact read_loadedMemory md.params.font image hfont hmax a
  case regs =>
    intro x
    rw [State.emit_getV, State.resetWith_getV]
  case disp =>
    intro bx _ row _
    exact Display.cell_nil bx row
  case keys =>
    intro k
    rw [State.emit_keyDown, State.resetWith_keyDown]
  case toneOn =>
    intro hl hST
    rw [State.emit_outputs, State.resetWith_outputs, State.silence_outputs_of_toneOn hl hST]
  case toneOff =>
    intro h
    rw [State.emit_outputs, State.resetWith_outputs, State.silence_outputs_of_not_toneOn h]

end Sys2Proof.Machine
end

section
/-! The frame of an instruction (`mayChange`), read part by part, and the obligations that follow from it. -/

namespace Sys2Proof.Machine

/-! ### A frame read one part at a time -/

section
variable {ps : List Part} {s t : State}

theorem OnlyChanges.getV (h : OnlyChanges ps s t) (hp : Part.V ∉ ps) (x : Nibble) : t.getV x = s.getV x := h.1 hp x

theorem OnlyChanges.ST (h : OnlyChanges ps s t) (hp : Part.ST ∉ ps) : t.ST = s.ST := h.2.2.2.2.2.2.1 hp

theorem OnlyChanges.cell (h : OnlyChanges ps s t) (hp : Part.disp ∉ ps) {bx row : Nat} (hx : bx < 128)
    (hy : row < 64) : t.disp.cell bx row = s.disp.cell bx row := h.2.2.2.2.2.2.2.1 hp bx hx row hy

theorem OnlyChanges.mode (h : OnlyChanges ps s t) (hp : Part.mode ∉ ps) : t.mode = s.mode :=
  h.2.2.2.2.2.2.2.2.1 hp

theorem OnlyChanges.waitReg (h : OnlyChanges ps s t) (hp : Part.waitReg ∉ ps) : t.waitReg = s.waitReg :=
  h.2.2.2.2.2.2.2.2.2.2.1 hp

theorem OnlyChanges.sched (h : OnlyChanges ps s t) (hp : Part.sched ∉ ps) : t.sched = s.sched :=
  h.2.2.2.2.2.2.2.2.2.2.2.1 hp

theorem OnlyChanges.pendingDraw (h : OnlyChanges ps s t) (hp : Part.pendingDraw ∉ ps) :
    t.pendingDraw = s.pendingDraw := h.2.2.2.2.2.2.2.2.2.2.2.2.1 hp

theorem OnlyChanges.loaded (h : OnlyChanges ps s t) (hp : Part.loaded ∉ ps) : t.loaded = s.loaded :=
  h.2.2.2.2.2.2.2.2.2.2.2.2.2.1 hp

theorem OnlyChanges.running (h : OnlyChanges ps s t) (hp : Part.running ∉ ps) : t.running = s.running :=
  h.2.2.2.2.2.2.2.2.2.2.2.2.2.2.1 hp

theorem OnlyChanges.fault (h : OnlyChanges ps s t) (hp : Part.fault ∉ ps) : t.fault = s.fault :=
  h.2.2.2.2.2.2.2.2.2.2.2.2.2.2.2.1 hp

theorem OnlyChanges.underflow (h : OnlyChanges ps s t) (hp : Part.underflow ∉ ps) :
    t.underflowSeen = s.underflowSeen ∧ t.underflowCount = s.underflowCount :=
  h.2.2.2.2.2.2.2.2.2.2.2.2.2.2.2.2.1 hp

theorem OnlyChanges.acc (h : OnlyChanges ps s t) (hp : Part.acc ∉ ps) : t.acc = s.acc :=
  h.2.2.2.2.2.2.2.2.2.2.2.2.2.2.2.2.2.1 hp

theorem OnlyChanges.cfg (h : OnlyChanges ps s t) (hp : Part.cfg ∉ ps) : t.cfg = s.cfg :=
  h.2.2.2.2.2.2.2.2.2.2.2.2.2.2.2.2.2.2.1 hp

theorem OnlyChanges.outputs (h : OnlyChanges ps s t) (hp : Part.outputs ∉ ps) : t.outputs = s.outputs :=
  h.2.2.2.2.2.2.2.2.2.2.2.2.2.2.2.2.2.2.2.2.1 hp

end

/-! ### The frame of every instruction -/

/-- Two changes one after the other change the parts of both. -/
theorem OnlyChanges.seq {ps qs : List Part} {s t u : State} (h : OnlyChanges ps s t) (g : OnlyChanges qs t u) :
    OnlyChanges (ps ++ qs) s u :=
  (h.mono fun _ => List.mem_append_left qs).trans (g.mono fun _ => List.mem_append_right ps)

theorem next_inj {a b : State} (h : (.next a : Res) = .next b) : b = a := (Host.Outcome.next.inj h).symm

theorem OnlyChanges.of_next {ps : List Part} {s t a : State} (h : (.next a : Res) = .next t)
    (ha : OnlyChanges ps s a) : OnlyChanges ps s t := next_inj h ▸ ha

theorem execRet_only {s t : State} (h : execRet s = .next t) : OnlyChanges [.pc, .stack, .underflow] s t := by
  unfold execRet at h
  split at h
  · exact .of_next h ((signalUnderflow_only s).mono (by simp))
  · exact .of_next h (((State.setStack_only s _).seq (State.setPc_only _ _)).mono (by simp))

theorem execCall_only (s : State) (nnn : Addr) : OnlyChanges [.pc, .stack] s ((s.push s.pc).setPc nnn) :=
  ((State.push_only s _).seq (State.setPc_only _ _)).mono (by simp)

theorem execDrw_only {x y n : Nibble} {s t : State} (h : execDrw x y n s = .next t) :
    OnlyChanges [.V, .disp, .pendingDraw, .sched] s t := by
  unfold execDrw at h
  split at h
  · exact .of_next h (((State.setPendingDraw_only s _).seq (State.setSched_only _ _)).mono (by simp))
  · exact .of_next h ((State.drawSprite_only s _).mono (by simp))

theorem execAddI_only {x : Nibble} {s t : State} (h : execAddI x s = .next t) : OnlyChanges [.I, .V] s t := by
  unfold execAddI at h
  split at h
  · exact .of_next h ((State.setI_only s _).seq (State.setV_only _ _ _))
  · exact .of_next h ((State.setI_only s _).mono (by simp))

theorem State.foldl_storeReg_only (s : State) (l : List Nat) : OnlyChanges [.mem] s (l.foldl State.storeReg s) :=
  OnlyChanges.foldl State.storeReg (fun t _ => State.writeByte_only t _ _) l s

/-- An instruction changes at most the parts `mayChange` lists for it. -/
theorem exec_only {i : Instr} {s t : State} (h : exec i s = .next t) : OnlyChanges (mayChange i) s t := by
  cases i
  case cls => exact .of_next h (State.clearGrid_only s)
  case ret => exact execRet_only h
  case scd | scr | scl => exact .of_next h (State.shiftGrid_only s _ _)
  case low | high => exact .of_next h (State.switchMode_only s _)
  case hires64 => exact .of_next h ((State.setMode_only s _).seq (State.clearGrid_only _))
  case sys => exact .of_next h (raiseFatal_only _ _ s)
  case jp | jpV0 => exact .of_next h (State.setPc_only s _)
  case call => exact .of_next h (execCall_only s _)
  case seImm | sneImm | seReg | sneReg | skp | sknp => exact .of_next h (State.skipIf_only s _)
  case ldImm | addImm | ldReg | ldVxDT => exact .of_next h (State.setV_only s _ _)
  case or | and | xor => exact .of_next h (State.writeLogic_only s _ _)
  case addReg | sub | subn | shr | shl => exact .of_next h (State.writeWithFlag_only s _ _ _)
  case ldI | ldF | ldHF => exact .of_next h (State.setI_only s _)
  case rnd => exact .of_next h ((State.setV_only s _ _).seq (State.drawn_only _))
  case drw => exact (execDrw_only h).mono (by simp [mayChange])
  case ldVxK => exact .of_next h ((State.setWaitReg_only s _).seq (State.setSched_only _ _))
  case ldDTVx => exact .of_next h (State.setDT_only s _)
  case ldSTVx => exact .of_next h (State.writeST_only s _)
  case addI => exact execAddI_only h
  case ldB =>
    exact .of_next h (((State.writeByte_only s _ _).trans (State.writeByte_only _ _ _)).trans
      (State.writeByte_only _ _ _))
  case storeRegs => exact .of_next h ((State.foldl_storeReg_only s _).seq (State.setI_only _ _))
  case loadRegs => exact .of_next h ((State.foldl_loadReg_only s _).seq (State.setI_only _ _))

/-- Settles O53: `exec_next` says that every instruction completes, `exec_only` that it keeps to its parts. -/
theorem everyInstrCompletesWithinItsParts : Obligations.EveryInstrCompletesWithinItsParts := by
  intro i s
  obtain ⟨t, h⟩ := exec_next i s
  exact ⟨t, h, exec_only h⟩

/-! ### Who writes VF (R22) -/

/-- A register write changes VF only where VF is its destination. -/
theorem State.setV_changes_vF {s : State} {x : Nibble} {v : Byte} (h : (s.setV x v).getV vF ≠ s.getV vF) :
    x = vF := by
  by_contra hne
  rw [State.getV_setV, if_neg (Ne.symm hne)] at h
  exact h rfl

theorem State.writeLogic_changes_vF {s : State} {x : Nibble} {r : Byte}
    (h : (s.writeLogic x r).getV vF ≠ s.getV vF) : s.cfg.q.logicClearsVF = true ∨ x = vF := by
  by_cases hq : s.cfg.q.logicClearsVF = true
  · exact .inl hq
  · rw [State.writeLogic, if_neg hq] at h
    exact .inr (State.setV_changes_vF h)

/-- LD Vx,[I] reaches VF only with x = 15 (R146). -/
theorem State.loadRegs_changes_vF {s : State} {x : Nibble}
    (h : ((List.range (x.toNat + 1)).foldl State.loadReg s).getV vF ≠ s.getV vF) : x = vF := by
  have hx := x.isLt
  rw [State.getV_loadRegs s (by omega)] at h
  have hle : vF.toNat < x.toNat + 1 := by
    by_contra hc
    exact h (if_neg hc)
  have hF : vF.toNat = 15 := rfl
  exact BitVec.eq_of_toNat_eq (by omega)

theorem execDrw_changes_vF {x y n : Nibble} {s t : State} (h : execDrw x y n s = .next t)
    (hv : t.getV vF ≠ s.getV vF) : s.cfg.q.vblankSync = false := by
  by_contra hq
  rw [execDrw, if_pos (Bool.not_eq_false _ ▸ hq)] at h
  rw [next_inj h] at hv
  exact hv rfl

theorem execAddI_changes_vF {x : Nibble} {s t : State} (h : execAddI x s = .next t)
    (hv : t.getV vF ≠ s.getV vF) : s.cfg.params.addISetsVF = true := by
  by_contra hq
  rw [execAddI, if_neg hq] at h
  rw [next_inj h] at hv
  exact hv rfl

/-- Settles O54: an instruction whose frame has no register leaves VF alone (`exec_only`); of the others each either
stands in R22's table or writes VF only where its destination is VF. -/
theorem flagWrittenOnlyByListedInstrs : Obligations.FlagWrittenOnlyByListedInstrs := by
  intro i s t h hv
  change t.getV vF ≠ s.getV vF at hv
  by_cases hp : Part.V ∈ mayChange i
  swap
  · exact absurd ((exec_only h).getV hp vF) hv
  have hset : ∀ {x v}, t = s.setV x v → x = vF := fun e => State.setV_changes_vF (e ▸ hv)
  have hlogic : ∀ {x r}, t = s.writeLogic x r → s.cfg.q.logicClearsVF = true ∨ x = vF :=
    fun e => State.writeLogic_changes_vF (e ▸ hv)
  cases i
  case addReg x y | sub x y | subn x y | shr x y | shl x y => exact .inl ⟨x, y, by simp⟩
  case or x y | and x y | xor x y =>
    rcases hlogic (next_inj h) with hq | hx
    · exact .inr (.inl ⟨hq, x, y, by simp⟩)
    · exact .inr (.inr (.inr (.inr ⟨0, y, by simp [hx, vF]⟩)))
  case drw x y n => exact .inr (.inr (.inl ⟨x, y, n, rfl, execDrw_changes_vF h hv⟩))
  case addI x => exact .inr (.inr (.inr (.inl ⟨execAddI_changes_vF h hv, x, rfl⟩)))
  case ldImm x nn | addImm x nn => exact .inr (.inr (.inr (.inr ⟨nn, 0, by simp [hset (next_inj h), vF]⟩)))
  case ldReg x y => exact .inr (.inr (.inr (.inr ⟨0, y, by simp [hset (next_inj h), vF]⟩)))
  case ldVxDT x => exact .inr (.inr (.inr (.inr ⟨0, 0, by simp [hset (next_inj h), vF]⟩)))
  case rnd x nn =>
    rw [next_inj h, State.drawn_getV] at hv
    exact .inr (.inr (.inr (.inr ⟨nn, 0, by simp [State.setV_changes_vF hv, vF]⟩)))
  case loadRegs x =>
    rw [next_inj h, State.setI_getV] at hv
    exact .inr (.inr (.inr (.inr ⟨0, 0, by simp [State.loadRegs_changes_vF hv, vF]⟩)))
  all_goals simp [mayChange] at hp

end Sys2Proof.Machine
end

section
/-! RET, CALL and LD ST,Vx: their words and what they do. -/

namespace Sys2Proof.Machine

/-! ### Words -/

theorem decode_ret : decode 0x00EE#16 = .ok .ret := by decide

theorem decode_call (nnn : Addr) : decode (0x2#4 ++ nnn : BitVec 16) = .ok (.call nnn) := by
  rw [show (0x2#4 ++ nnn : BitVec 16) = packNNN 0x2#4 nnn from (packNNN_eq_append _ _).symm]
  simp [decode]

theorem decode_ldSTVx (x : Nibble) : decode (0xF#4 ++ x ++ 0x18#8 : BitVec 16) = .ok (.ldSTVx x) := by
  rw [show (0xF#4 ++ x ++ 0x18#8 : BitVec 16) = packXNN 0xF#4 x 0x18#8 from (packXNN_eq_append _ _ _).symm]
  simp [decode, decodeFamilyF]

/-! ### RET and CALL -/

theorem exec_ret_of_nil {s : State} (h : s.stack = []) : exec .ret s = .next (signalUnderflow s) := by
  simp [exec, execRet, h]

theorem exec_ret_of_cons {s : State} {a : Addr} {rest : List Addr} (h : s.stack = a :: rest) :
    exec .ret s = .next ((s.setStack rest).setPc a) := by
  simp [exec, execRet, h]

/-- Settles O11: on an empty stack RET is `signalUnderflow`, else it pops; `signalUnderflow_only` and the frames of the
two updates say that nothing else changes. -/
theorem retPopsOrFallsBack : Obligations.RetPopsOrFallsBack := by
  refine ⟨decode_ret, ?empty, ?pop⟩
  case empty =>
    intro s h
    exact ⟨_, exec_ret_of_nil h, rfl, h, rfl, rfl, signalUnderflow_only s⟩
  case pop =>
    intro s a rest h
    exact ⟨_, exec_ret_of_cons h, rfl, rfl, ((State.setStack_only s rest).seq (State.setPc_only _ a)).mono (by simp)⟩

/-- Settles O13: CALL is a push of the advanced pc and a jump. -/
theorem callPushesReturnAddress : Obligations.CallPushesReturnAddress := by
  intro s nnn
  exact ⟨decode_call nnn, _, rfl, rfl, rfl, execCall_only s nnn⟩

/-! ### LD ST,Vx -/

/-- Settles O38: LD ST,Vx is `writeST`, whose outputs `writeST_outputs` gives in its three cases. -/
theorem ldSTEmitsToneEdges : Obligations.LdSTEmitsToneEdges := by
  intro s x
  refine ⟨decode_ldSTVx x, s.writeST (s.getV x), rfl, State.writeST_ST s _, ?start, ?stop, ?none,
    State.writeST_only s _⟩
  case start =>
    intro h0 hv
    rw [State.writeST_outputs, if_pos ⟨h0, hv⟩]
  case stop =>
    intro h0 hv
    rw [State.writeST_outputs, if_neg (fun h => h0 h.1), if_pos ⟨h0, hv⟩]
  case none =>
    intro h
    rw [State.writeST_outputs, if_neg (fun hc => hc.2 (h.mp hc.1)), if_neg (fun hc => hc.1 (h.mpr hc.2))]

end Sys2Proof.Machine
end

section
/-! What a `Load` that R211 refuses does (R184, R210, R212), and the core before its first `Load`. -/

namespace Sys2Proof.Machine

/-! ### The refused records -/

theorem loadedPair_none_image (md : Metadata) : loadedPair none md = none := by simp [loadedPair]

theorem loadedPair_of_not_fits {image : List Byte} (md : Metadata) (h : image.length = 0 ∨ 3584 < image.length) :
    loadedPair (some image) md = none := by
  have hfits : imageFits image = false := decide_eq_false (by omega)
  cases hq : quirksOf md <;> simp [loadedPair, hq, hfits]

theorem loadedPair_of_not_rates (image : Option (List Byte)) {md : Metadata}
    (h : md.ips = 0 ∨ md.params.font.length ≠ 512) : loadedPair image md = none := by
  have hrates : ratesOk md = false := decide_eq_false (by omega)
  cases image <;> cases hq : quirksOf md <;> simp [loadedPair, hq, hrates]

theorem loadedPair_of_both_increments (image : Option (List Byte)) {md : Metadata}
    (h : md.incrementByX = true ∧ md.incrementUnchanged = true) : loadedPair image md = none := by
  have hq : quirksOf md = none := by simp [quirksOf, h.1, h.2]
  cases image <;> simp [loadedPair, hq]

/-! ### The state after a refused `Load` -/

theorem State.load_of_refused {s : State} {image : Option (List Byte)} {md : Metadata}
    (h : loadedPair image md = none) : s.load image md = s.silence.unload.emit .supplyFailure := by
  simp [State.load, h]

@[simp] theorem State.unload_outputs (s : State) : s.unload.outputs = s.outputs := rfl

/-- The event that comes by itself is no `Load`, so an unloaded core does not move by itself. -/
theorem State.ownEvent_not_enabled {s : State} (h : s.loaded = false) : enabled s.ownEvent s = false := by
  unfold State.ownEvent
  cases s.sched <;> simp [enabled, h]

theorem step_of_unloaded {s : State} (h : s.loaded = false) (hq : s.inputs = []) : step s = .fault .halted := by
  simp [step, advance, hq, State.runAlone, State.ownEvent_not_enabled h]

/-- Settles O47: before the first `Load` and after a refused one the core is an `unloadedState`, of which
`enabled_of_not_loaded` says that only `Load` is enabled. -/
theorem refusedLoadUnloads : Obligations.RefusedLoadUnloads := by
  refine ⟨⟨rfl, rfl, enabled_of_not_loaded rfl, step_of_unloaded rfl rfl⟩, ?_⟩
  intro s image md hbad
  have hnone : loadedPair image md = none := by
    rcases hbad with rfl | ⟨b, rfl, hlen⟩ | hips | hfont | hinc
    · exact loadedPair_none_image md
    · exact loadedPair_of_not_fits md hlen
    · exact loadedPair_of_not_rates image (.inl hips)
    · exact loadedPair_of_not_rates image (.inr hfont)
    · exact loadedPair_of_both_increments image hinc
  refine ⟨s.silence.unload.emit .supplyFailure, ?fires, rfl, rfl, ?toneOn, ?toneOff, enabled_of_not_loaded rfl⟩
  case fires => rw [fire_load, State.load_of_refused hnone]
  case toneOn =>
    intro hl hST
    rw [State.emit_outputs, State.unload_outputs, State.silence_outputs_of_toneOn hl hST]
  case toneOff =>
    intro h
    rw [State.emit_outputs, State.unload_outputs, State.silence_outputs_of_not_toneOn h]

/-- A `Load` makes the reset state of a valid pair, or unloads the core. -/
theorem State.load_cases (s : State) (image : Option (List Byte)) (md : Metadata) :
    (∃ bytes cfg, s.load image md = (s.silence.resetWith bytes cfg).emit .loadOk) ∨
    s.load image md = s.silence.unload.emit .supplyFailure := by
  cases h : loadedPair image md with
  | none => exact .inr (State.load_of_refused h)
  | some p => exact .inl ⟨p.1, p.2, State.load_of_loadedPair h⟩

end Sys2Proof.Machine
end

section
/-! The tone invariant of R190: kept by every event, so by every step. -/

namespace Sys2Proof.Machine

/-! ### Lists of tone edges -/

@[simp] theorem toneEdges_toneStart (o : List Output) : toneEdges (.toneStart :: o) = true :: toneEdges o := rfl
@[simp] theorem toneEdges_toneStop (o : List Output) : toneEdges (.toneStop :: o) = false :: toneEdges o := rfl
@[simp] theorem toneEdges_snapshot (m : ResMode) (g : List (Nat × Pixel)) (o : List Output) :
    toneEdges (.snapshot m g :: o) = toneEdges o := rfl
@[simp] theorem toneEdges_loadOk (o : List Output) : toneEdges (.loadOk :: o) = toneEdges o := rfl
@[simp] theorem toneEdges_supplyFailure (o : List Output) : toneEdges (.supplyFailure :: o) = toneEdges o := rfl

/-- A further edge keeps the alternation if and only if it starts a tone that is off or stops one that is on. -/
theorem edgesAlternate_cons (b : Bool) (l : List Bool) :
    EdgesAlternate (b :: l) ↔ (b = true ↔ l.head? ≠ some true) ∧ EdgesAlternate l := by
  cases l with
  | nil => simp [EdgesAlternate]
  | cons c l => cases b <;> cases c <;> simp [EdgesAlternate]

/-! ### What keeps the invariant -/

/-- The invariant looks at `loaded`, ST and the tone edges only. -/
theorem State.ToneInv.congr {s t : State} (h : s.ToneInv) (hl : t.loaded = s.loaded) (hST : t.ST = s.ST)
    (ho : toneEdges t.outputs = toneEdges s.outputs) : t.ToneInv := by
  unfold State.ToneInv State.toneOn at *
  rw [hl, hST, ho]
  exact h

theorem State.ToneInv.of_only {ps : List Part} {s t : State} (h : s.ToneInv) (hc : OnlyChanges ps s t)
    (hl : Part.loaded ∉ ps) (hST : Part.ST ∉ ps) (ho : Part.outputs ∉ ps) : t.ToneInv :=
  h.congr (hc.loaded hl) (hc.ST hST) (by rw [hc.outputs ho])

theorem State.writeST_loaded (s : State) (v : Byte) : (s.writeST v).loaded = s.loaded :=
  (State.writeST_only s v).loaded (by simp)

/-- In a loaded core `writeST` emits exactly the edge the new value of ST asks for (R27, R190). -/
theorem State.ToneInv.writeST {s : State} (h : s.ToneInv) (hl : s.loaded = true) (v : Byte) :
    (s.writeST v).ToneInv := by
  obtain ⟨halt, hon⟩ := h
  simp only [State.toneOn, hl, true_and] at hon
  unfold State.ToneInv State.toneOn
  rw [State.writeST_loaded, State.writeST_ST, State.writeST_outputs, hl]
  by_cases hstart : s.ST = 0 ∧ v ≠ 0
  · have hoff : (toneEdges s.outputs).head? ≠ some true := fun hc => hon.mpr hc hstart.1
    rw [if_pos hstart, toneEdges_toneStart, edgesAlternate_cons]
    exact ⟨⟨iff_of_true rfl hoff, halt⟩, iff_of_true ⟨rfl, hstart.2⟩ rfl⟩
  · rw [if_neg hstart]
    by_cases hstop : s.ST ≠ 0 ∧ v = 0
    · rw [if_pos hstop, toneEdges_toneStop, edgesAlternate_cons]
      exact ⟨⟨iff_of_false Bool.false_ne_true (not_not.mpr (hon.mp hstop.1)), halt⟩,
        iff_of_false (fun ht => ht.2 hstop.2) (by simp)⟩
    · have hsame : v ≠ 0 ↔ s.ST ≠ 0 := by tauto
      rw [if_neg hstop, ← hon, ← hsame]
      exact ⟨halt, and_iff_right rfl⟩

theorem State.ToneInv.decrementTimers {s : State} (h : s.ToneInv) (hl : s.loaded = true) :
    s.decrementTimers.ToneInv := by
  have hDT : (if s.DT ≠ 0 then s.setDT (s.DT - 1) else s).ToneInv ∧
      (if s.DT ≠ 0 then s.setDT (s.DT - 1) else s).loaded = true := by
    split
    · exact ⟨h.congr rfl rfl rfl, hl⟩
    · exact ⟨h, hl⟩
  unfold State.decrementTimers
  simp only
  split
  · exact hDT.1.writeST hDT.2 _
  · exact hDT.1

theorem State.ToneInv.refresh {s : State} (h : s.ToneInv) : s.refresh.ToneInv := by
  have hf : s.flushDraw.ToneInv := h.of_only (State.flushDraw_only s) (by simp) (by simp) (by simp)
  have hs : (s.flushDraw.emit s.flushDraw.snapshot).ToneInv := hf.congr rfl rfl rfl
  exact hs.of_only (State.ageFade_only _) (by simp) (by simp) (by simp)

/-- After `silence` the edges alternate and the last is no ToneStart, whatever comes of the load (R210). -/
theorem State.ToneInv.silence {s : State} (h : s.ToneInv) :
    EdgesAlternate (toneEdges s.silence.outputs) ∧ (toneEdges s.silence.outputs).head? ≠ some true := by
  obtain ⟨halt, hon⟩ := h
  by_cases ht : s.loaded = true ∧ s.ST ≠ 0
  · rw [State.silence_outputs_of_toneOn ht.1 ht.2, toneEdges_toneStop, edgesAlternate_cons]
    simp [halt, hon.mp ht]
  · rw [State.silence_outputs_of_not_toneOn ht]
    exact ⟨halt, fun hc => ht (hon.mpr hc)⟩

theorem State.ToneInv.load {s : State} (h : s.ToneInv) (image : Option (List Byte)) (md : Metadata) :
    (s.load image md).ToneInv := by
  obtain ⟨halt, hoff⟩ := h.silence
  rcases State.load_cases s image md with ⟨bytes, cfg, e⟩ | e
  · rw [e]
    exact ⟨halt, iff_of_false (fun ht => ht.2 rfl) hoff⟩
  · rw [e]
    exact ⟨halt, iff_of_false (fun ht => Bool.false_ne_true ht.1) hoff⟩

/-! ### Every event, every step -/

/-- No instruction loads or unloads the core, moves the accumulator or changes the configuration. -/
theorem not_mem_mayChange (i : Instr) :
    Part.loaded ∉ mayChange i ∧ Part.acc ∉ mayChange i ∧ Part.cfg ∉ mayChange i := by
  cases i <;> simp [mayChange]

theorem State.ToneInv.exec {i : Instr} {s t : State} (hinv : s.ToneInv) (hl : s.loaded = true)
    (h : exec i s = .next t) : t.ToneInv := by
  by_cases hp : Part.ST ∈ mayChange i ∨ Part.outputs ∈ mayChange i
  · cases i
    case ldSTVx x => rw [next_inj h]; exact hinv.writeST hl _
    all_goals simp [mayChange] at hp
  · rw [not_or] at hp
    exact hinv.of_only (exec_only h) (not_mem_mayChange i).1 hp.1 hp.2

theorem State.ToneInv.stepInstr {s t : State} (hinv : s.ToneInv) (hl : s.loaded = true)
    (h : stepInstr s = .next t) : t.ToneInv := by
  have hadv : s.advancePc.ToneInv := hinv.congr rfl rfl rfl
  unfold Machine.stepInstr at h
  split at h
  · exact hadv.exec hl h
  · rw [next_inj h]
    exact hadv.congr rfl rfl rfl

theorem State.ToneInv.perform {e : Event} {s t : State} (hinv : s.ToneInv) (he : enabled e s = true)
    (h : perform e s = .next t) : t.ToneInv := by
  cases e with
  | load image md => rw [next_inj h]; exact hinv.load image md
  | step =>
    simp only [enabled, Bool.and_eq_true] at he
    exact hinv.stepInstr he.1.1 h
  | pollKeys => rw [next_inj h]; exact hinv.of_only (State.pollKeys_only s) (by simp) (by simp) (by simp)
  | tick60 =>
    simp only [enabled, Bool.and_eq_true] at he
    rw [next_inj h]
    exact (hinv.decrementTimers he.1).refresh
  | keyDown _ | keyUp _ | stop => rw [next_inj h]; exact hinv.congr rfl rfl rfl

/-- Settles O52: a step is an enabled event, which keeps the tone invariant, or it moves only the queue and the
accumulator, at which the invariant does not look (`step_cases`). -/
theorem stepKeepsToneAlternation : Obligations.StepKeepsToneAlternation := by
  intro s t hinv h
  rcases step_cases h with ⟨l, e, he, hp⟩ | ⟨l, a, rfl, -⟩
  · exact State.ToneInv.perform (s := s.setInputs l) (hinv.congr rfl rfl rfl)
      ((enabled_setInputs e s l).trans he) hp
  · exact hinv.congr rfl rfl rfl

end Sys2Proof.Machine
end

section
/-! DRW drawn at once (R152 to R154), by the laws of `drawSprite`. -/

namespace Sys2Proof.Machine

theorem exec_drw_of_not_vblankSync {s : State} (h : s.cfg.q.vblankSync = false) (x y n : Nibble) :
    exec (.drw x y n) s = .next (s.drawSprite ⟨s.getV x, s.getV y, n⟩) := by
  simp [exec, execDrw, h]

/-- A logical pixel after a draw: inverted where the sprite lands on it (R153). -/
theorem State.pixOn_drawSprite (s : State) (d : DrawRequest) {px py : Nat} (hx : px < s.mode.width)
    (hy : py < s.mode.height) :
    (s.drawSprite d).pixOn px py = if (px, py) ∈ s.landings d then !s.pixOn px py else s.pixOn px py := by
  unfold State.pixOn
  rw [State.pixel_drawSprite s d hx hy]
  split
  · unfold State.toggled State.pixOn
    cases (s.pixel px py).on <;> rfl
  · rfl

/-- Settles O30: the covered pixels are the landing pixels (`spriteCovers_iff`), and those are inverted. -/
theorem drwXorsCoveredPixels : Obligations.DrwXorsCoveredPixels := by
  intro s x y n hq
  refine ⟨_, exec_drw_of_not_vblankSync hq x y n, ?_⟩
  intro px hx py hy
  rw [State.pixOn_drawSprite s _ hx hy, spriteCovers_iff s _ hx hy]
  by_cases hm : (px, py) ∈ s.landings ⟨s.getV x, s.getV y, n⟩
  · simp [hm]
  · simp [hm]

/-- Settles O31: VF by `vF_drawSprite`, the cells of a block by `cell_drawSprite`, the frame by `drawSprite_only`. -/
theorem drwCollisionFlagAndFrame : Obligations.DrwCollisionFlagAndFrame := by
  intro s x y n hq
  refine ⟨_, exec_drw_of_not_vblankSync hq x y n, ?hit, ?miss, ?cells, (State.drawSprite_drawsOnly s _).regs,
    (State.drawSprite_only s _).mono (by simp)⟩
  case hit =>
    intro hc
    exact (State.vF_drawSprite s _).trans (if_pos ((spriteCollides_iff s _).mp hc))
  case miss =>
    intro hc
    exact (State.vF_drawSprite s _).trans (if_neg (fun h => hc ((spriteCollides_iff s _).mpr h)))
  case cells =>
    intro px hx py hy p hp
    obtain ⟨hp1, hp2⟩ := blockCells_lt hx hy p hp
    obtain ⟨rfl, rfl⟩ := mem_blockCells.mp hp
    rw [State.cell_drawSprite s _ hp1 hp2, spriteCovers_iff s _ hx hy]
    refine ⟨fun hc => ?_, fun hc => if_neg hc⟩
    rw [if_pos hc, State.toggled, State.offFade_eq]

end Sys2Proof.Machine
end

section
/-! Key polls, ticks and frames: what ends a wait, what a tick counts down, and the instruction budget of R196. -/

namespace Sys2Proof.Machine

/-! ### PollKeys (R191) -/

theorem State.writeWaiting_of_some {s : State} {x : Nibble} (h : s.waitReg = some x) (k : Nibble) :
    s.writeWaiting k = s.setV x (k.setWidth 8) := by
  simp [State.writeWaiting, h]

@[simp] theorem State.pickDrawn_getV (s : State) (x : Nibble) : s.pickDrawn.getV x = s.getV x :=
  (State.pickDrawn_only s).getV (by simp) x

@[simp] theorem State.pickDrawn_waitReg (s : State) : s.pickDrawn.waitReg = s.waitReg :=
  (State.pickDrawn_only s).waitReg (by simp)

@[simp] theorem State.pickDrawn_sched (s : State) : s.pickDrawn.sched = s.sched :=
  (State.pickDrawn_only s).sched (by simp)

@[simp] theorem State.pickDrawn_keyDown (s : State) (j : Nibble) : s.pickDrawn.keyDown j = s.keyDown j := by
  unfold State.pickDrawn
  split <;> rfl

theorem State.captureKey_waitReg (s : State) (k : Nibble) : (s.captureKey k).waitReg = none := by
  rw [State.captureKey, State.pickDrawn_waitReg]
  rfl

theorem State.captureKey_sched (s : State) (k : Nibble) : (s.captureKey k).sched = .running := by
  rw [State.captureKey, State.pickDrawn_sched]
  rfl

theorem State.captureKey_getV {s : State} {x : Nibble} (h : s.waitReg = some x) (k y : Nibble) :
    (s.captureKey k).getV y = if y = x then k.setWidth 8 else s.getV y := by
  rw [State.captureKey, State.pickDrawn_getV, State.writeWaiting_of_some h]
  exact State.getV_setV s x y _

theorem State.captureKey_keyDown {s : State} {x : Nibble} (h : s.waitReg = some x) (k j : Nibble) :
    (s.captureKey k).keyDown j = (s.keyDown j && j != k) := by
  rw [State.captureKey, State.pickDrawn_keyDown, State.writeWaiting_of_some h]
  exact State.keyDown_releaseKey (s.setV x _) k j

theorem State.pollKeys_of_none_down {s : State} (h : ∀ k, s.keyDown k = false) : s.pollKeys = s := by
  rw [State.pollKeys, if_pos ((State.pressedKeys_eq_nil s).mpr h)]

theorem State.pollKeys_of_some_down {s : State} (h : ∃ k, s.keyDown k = true) :
    s.pressedKeys ≠ [] ∧ s.pollKeys = s.captureKey s.pickKey := by
  obtain ⟨k, hk⟩ := h
  have hne : s.pressedKeys ≠ [] := List.ne_nil_of_mem ((State.mem_pressedKeys s k).mpr hk)
  exact ⟨hne, by rw [State.pollKeys, if_neg hne]⟩

theorem fire_of_enabled {e : Event} {s : State} (h : enabled e s = true) : fire e s = perform e s := by
  rw [fire, if_pos h]

/-- Settles O41: a poll with a key down is `captureKey` of the picked key, whose effects the lemmas above say. -/
theorem pollKeysCapturesAKey : Obligations.PollKeysCapturesAKey := by
  intro s x hl hr hs hx
  have hfire : fire .pollKeys s = .next s.pollKeys := fire_of_enabled (by simp [enabled, hl, hr, hs])
  refine ⟨fun hnone => by rw [hfire, State.pollKeys_of_none_down hnone], fun hsome => ?_⟩
  obtain ⟨hne, hpoll⟩ := State.pollKeys_of_some_down hsome
  refine ⟨s.captureKey s.pickKey, s.pickKey, by rw [hfire, hpoll], State.keyDown_pickKey s hne,
    fun hk _ hj => State.pickKey_lowest s hk hj, ?value, ?regs, State.captureKey_keyDown hx _,
    State.captureKey_waitReg s _, State.captureKey_sched s _, State.captureKey_only s _⟩
  case value =>
    rw [State.captureKey_getV hx, if_pos rfl, BitVec.toNat_setWidth_of_le (by decide)]
  case regs =>
    intro r hr
    rw [State.captureKey_getV hx, if_neg (fun h => hr (List.mem_singleton.mpr h))]

/-! ### Tick60 (R194) -/

theorem fire_tick60 {s : State} (hl : s.loaded = true) (hr : s.running = true) :
    fire .tick60 s = .next s.tick60 := fire_of_enabled (by simp [enabled, hl, hr])

theorem State.tick60_DT (s : State) : s.tick60.DT.toNat = s.DT.toNat - 1 := by
  rw [State.tick60, State.refresh_DT, State.decrementTimers_DT]

theorem State.tick60_ST (s : State) : s.tick60.ST.toNat = s.ST.toNat - 1 := by
  rw [State.tick60, State.refresh_ST, State.decrementTimers_ST]

/-- A tick emits ToneStop exactly when ST goes from 1 to 0, and then one snapshot. -/
theorem State.tick60_emits (s : State) : ∃ m g,
    s.tick60.outputs = .snapshot m g :: (if s.ST = 1 then .toneStop :: s.outputs else s.outputs) := by
  rw [State.tick60_outputs, State.decrementTimers_outputs]
  exact ⟨_, _, rfl⟩

/-- Settles O43: a tick is the countdown and then a refresh, which leaves the timers and emits one snapshot. -/
theorem tickCountsTimersDown : Obligations.TickCountsTimersDown := by
  intro s hl hr
  obtain ⟨m, g, hout⟩ := State.tick60_emits s
  exact ⟨s.tick60, m, g, fire_tick60 hl hr, State.tick60_DT s, State.tick60_ST s, fun h => by rw [hout, if_pos h],
    fun h => by rw [hout, if_neg h], State.tick60_only s⟩

/-! ### The waits (R33) -/

theorem sched_of_enabled_step {s : State} (h : enabled .step s = true) : s.sched = .running := by
  simpa using (Bool.and_eq_true_iff.mp h).2

theorem sched_of_enabled_pollKeys {s : State} (h : enabled .pollKeys s = true) : s.sched = .waitingForKey := by
  simpa using (Bool.and_eq_true_iff.mp h).2

/-- Settles O56: `Step` is not enabled in a wait, `PollKeys` only in a key-wait, where it needs a key to end it;
`tick60_sched` says that a tick ends only the vblank wait, and the host's events leave the mode alone. -/
theorem waitsEndOnlyByTheirEvents : Obligations.WaitsEndOnlyByTheirEvents := by
  intro e s t h
  obtain ⟨he, hp⟩ := fire_eq_next.mp h
  cases e with
  | load im md => exact ⟨fun _ _ => .inr ⟨im, md, rfl⟩, fun _ _ => .inr ⟨im, md, rfl⟩⟩
  | step =>
    have hs := sched_of_enabled_step he
    exact ⟨fun h => (by simp [hs] at h), fun h => (by simp [hs] at h)⟩
  | pollKeys =>
    have hs := sched_of_enabled_pollKeys he
    refine ⟨fun _ hne => .inl ⟨rfl, ?_⟩, fun h => (by simp [hs] at h)⟩
    by_contra hno
    have hnone : ∀ k, s.keyDown k = false := by simpa using hno
    rw [next_inj hp, State.pollKeys_of_none_down hnone] at hne
    exact hne hs
  | tick60 =>
    refine ⟨fun hs hne => absurd ?_ hne, fun _ _ => .inl rfl⟩
    rw [next_inj hp, State.tick60_sched, hs]
    rfl
  | keyDown _ | keyUp _ | stop =>
    have hs : t.sched = s.sched := by rw [next_inj hp]; rfl
    exact ⟨fun h hne => absurd (hs.trans h) hne, fun h hne => absurd (hs.trans h) hne⟩

/-! ### The reference frame (R196) -/

/-- Budgets and accumulator of `n` frames are quotient and remainder of all that was accumulated. -/
theorem frameCounts_eq (ips n acc : Nat) (h : acc < 60) :
    frameCounts ips n acc = ((acc + n * ips) / 60, (acc + n * ips) % 60) := by
  induction n generalizing acc with
  | zero => simp [frameCounts, Nat.div_eq_of_lt h, Nat.mod_eq_of_lt h]
  | succ n ih =>
    have hsum : acc + (n + 1) * ips = (acc + ips) + n * ips := by ring
    rw [frameCounts, ih _ (Nat.mod_lt _ (by decide)), hsum]
    ext
    · simp only; omega
    · simp only; omega

theorem step_frame {s : State} {rest : List Input} (h : s.inputs = .frame :: rest) :
    step s = .next ((s.setAcc s.frameAcc).setInputs (.schedTick s.frameBudget :: rest)) := by
  simp only [step, advance, h]
  rfl

/-- Settles O49: `frameCounts_eq` at 60 frames, and the two cases of the model's `frameBudget` and `frameAcc`. -/
theorem sixtyFramesAttemptIps : Obligations.SixtyFramesAttemptIps := by
  refine ⟨?sum, ?frame⟩
  case sum =>
    intro ips acc h
    rw [frameCounts_eq ips 60 acc h]
    ext
    · simp only; omega
    · simp only; omega
  case frame =>
    intro s rest hq
    rw [step_frame hq]
    refine ⟨fun hr hs => ?_, fun hno => ?_⟩
    · rw [State.frameAcc, State.frameBudget, if_pos ⟨hr, hs⟩, if_pos ⟨hr, hs⟩]
      rfl
    · rw [State.frameAcc, State.frameBudget, if_neg hno, if_neg hno]
      rfl

end Sys2Proof.Machine
end

section
/-! Cells of the grid under the display's operations: outside the grid nothing is listed, and a shifted cell comes
from one cell of the grid or is blank. -/

namespace Sys2Proof.Machine

/-- A display in canonical form lists no cell below the grid. -/
theorem Display.cell_of_row_ge {d : Display} (hd : Display.wf d) (bx : Nat) {r : Nat} (hr : 64 ≤ r) :
    d.cell bx r = Pixel.blank := by
  refine Sparse.get_of_forall_ne Display.initial d _ fun e he => ?_
  have hlt := (hd.2 e he).1
  simp only [backW, backH] at hlt
  simp only [cellKey, backW]
  omega

/-- The cell `(bx', r')` of the grid is the one that a shift by `(dx, dy)` moves to `(bx, r)` (R155). -/
def ShiftSource (dx dy : Int) (bx r bx' r' : Nat) : Prop :=
  bx' < 128 ∧ r' < 64 ∧ (bx : Int) = bx' + dx ∧ (r : Int) = r' + dy

theorem ShiftSource.cell {dx dy : Int} {bx r bx' r' : Nat} (h : ShiftSource dx dy bx r bx' r') (s : State)
    (hx : bx < 128) (hr : r < 64) : (s.shiftGrid dx dy).disp.cell bx r = s.disp.cell bx' r' := by
  obtain ⟨hbx', -, h1, h2⟩ := h
  exact State.cell_shiftGrid_of_source s hx hr hbx' h1 h2

/-- A cell with no source in the grid is blank after `ShiftGrid` (R155). -/
theorem State.cell_shiftGrid_of_no_source {s : State} (hd : Display.wf s.disp) {dx dy : Int} {bx r : Nat}
    (hx : bx < 128) (hr : r < 64) (hno : ∀ bx' r', ¬ ShiftSource dx dy bx r bx' r') :
    (s.shiftGrid dx dy).disp.cell bx r = Pixel.blank := by
  by_cases hbelow : ∃ bx' r' : Nat, bx' < 128 ∧ (bx : Int) = bx' + dx ∧ (r : Int) = r' + dy
  · obtain ⟨bx', r', hbx', h1, h2⟩ := hbelow
    have hr' : 64 ≤ r' := Nat.le_of_not_lt fun hlt => hno bx' r' ⟨hbx', hlt, h1, h2⟩
    rw [State.cell_shiftGrid_of_source s hx hr hbx' h1 h2, Display.cell_of_row_ge hd bx' hr']
  · exact State.cell_shiftGrid_of_none s hx fun bx' hbx' r' h => hbelow ⟨bx', r', hbx', h⟩

theorem clearCell_on (n : Nat) (c : Pixel) : (clearCell n c).on = false := by
  unfold clearCell
  split
  · rfl
  · simpa using ‹¬c.on = true›

theorem State.toggled_on (s : State) (px py : Nat) : (s.toggled px py).on = !s.pixOn px py := by
  unfold State.toggled
  cases s.pixOn px py <;> rfl

@[simp] theorem State.shiftGrid_mode (s : State) (dx dy : Int) : (s.shiftGrid dx dy).mode = s.mode := rfl

theorem State.switchMode_disp (s : State) (m : ResMode) :
    (s.switchMode m).disp = if s.cfg.params.modeSwitchClears then [] else s.disp := by
  unfold State.switchMode
  split <;> rfl

end Sys2Proof.Machine
end

section
/-! Blocks stay uniform (R30) under every instruction that does not switch the mode. -/

namespace Sys2Proof.Machine

/-- Uniform blocks, cell by cell: every cell equals the top-left cell of its block. -/
theorem State.blocksUniform_iff (s : State) : s.BlocksUniform ↔ ∀ bx < 128, ∀ r < 64,
    s.disp.cell bx r = s.disp.cell (bx / s.mode.blockW * s.mode.blockW) (r / s.mode.blockH * s.mode.blockH) := by
  constructor
  · intro h bx hx r hr
    refine h _ ?_ _ ?_ (bx, r) (mem_blockCells.mpr ⟨rfl, rfl⟩)
    · rwa [Nat.div_lt_iff_lt_mul s.mode.blockW_pos, s.mode.width_mul]
    · rwa [Nat.div_lt_iff_lt_mul s.mode.blockH_pos, s.mode.height_mul]
  · intro h x hx y hy p hp
    obtain ⟨hp1, hp2⟩ := blockCells_lt hx hy p hp
    obtain ⟨rfl, rfl⟩ := mem_blockCells.mp hp
    exact h p.1 hp1 p.2 hp2

/-- The top-left cell of a block of the grid lies in the grid. -/
theorem topLeft_lt (m : ResMode) {bx r : Nat} (hx : bx < 128) (hr : r < 64) :
    bx / m.blockW * m.blockW < 128 ∧ r / m.blockH * m.blockH < 64 :=
  ⟨lt_of_le_of_lt (Nat.div_mul_le_self _ _) hx, lt_of_le_of_lt (Nat.div_mul_le_self _ _) hr⟩

theorem State.BlocksUniform.of_only {ps : List Part} {s t : State} (hu : s.BlocksUniform) (h : OnlyChanges ps s t)
    (hd : Part.disp ∉ ps) (hm : Part.mode ∉ ps) : t.BlocksUniform := by
  rw [State.blocksUniform_iff] at hu ⊢
  rw [h.mode hm]
  intro bx hx r hr
  obtain ⟨hx', hr'⟩ := topLeft_lt s.mode hx hr
  rw [h.cell hd hx hr, h.cell hd hx' hr']
  exact hu bx hx r hr

theorem State.BlocksUniform.clearGrid {s : State} (hu : s.BlocksUniform) (hd : Display.wf s.disp) :
    s.clearGrid.BlocksUniform := by
  rw [State.blocksUniform_iff] at hu ⊢
  intro bx hx r hr
  rw [State.cell_clearGrid s hd, State.cell_clearGrid s hd, hu bx hx r hr]
  rfl

/-- A draw gives all cells of a block the same value, or leaves them all (R153). -/
theorem State.BlocksUniform.drawSprite {s : State} (hu : s.BlocksUniform) (d : DrawRequest) :
    (s.drawSprite d).BlocksUniform := by
  rw [State.blocksUniform_iff] at hu ⊢
  rw [(State.drawSprite_drawsOnly s d).mode]
  intro bx hx r hr
  obtain ⟨hx', hr'⟩ := topLeft_lt s.mode hx hr
  rw [State.cell_drawSprite s d hx hr, State.cell_drawSprite s d hx' hr', Nat.mul_div_cancel _ s.mode.blockW_pos,
    Nat.mul_div_cancel _ s.mode.blockH_pos, ← hu bx hx r hr]

/-- The source of a block's top-left cell is the top-left cell of the source's block, for a shift by whole blocks. -/
theorem topLeft_source {w b b' : Nat} {k : Int} (hw : 0 < w) (h : (b : Int) = b' + k * w) :
    ((b / w * w : Nat) : Int) = (b' / w * w : Nat) + k * w := by
  push_cast
  rw [h, Int.add_mul_ediv_right _ _ (by omega)]
  ring

theorem ShiftSource.topLeft {m : ResMode} {i j : Int} {bx r bx' r' : Nat}
    (h : ShiftSource (i * m.blockW) (j * m.blockH) bx r bx' r') :
    ShiftSource (i * m.blockW) (j * m.blockH) (bx / m.blockW * m.blockW) (r / m.blockH * m.blockH)
      (bx' / m.blockW * m.blockW) (r' / m.blockH * m.blockH) := by
  obtain ⟨hbx', hr', h1, h2⟩ := h
  obtain ⟨hx, hy⟩ := topLeft_lt m hbx' hr'
  exact ⟨hx, hy, topLeft_source m.blockW_pos h1, topLeft_source m.blockH_pos h2⟩

/-- Where a block's top-left cell has a source, every cell of the block has one. -/
theorem ShiftSource.of_topLeft {m : ResMode} {i j : Int} {bx r tx tr : Nat}
    (h : ShiftSource (i * m.blockW) (j * m.blockH) (bx / m.blockW * m.blockW) (r / m.blockH * m.blockH) tx tr) :
    ShiftSource (i * m.blockW) (j * m.blockH) bx r (tx + bx % m.blockW) (tr + r % m.blockH) := by
  unfold ShiftSource at *
  cases m
  all_goals
    simp only [ResMode.blockW, ResMode.blockH] at *
    omega

/-- A shift by whole blocks keeps the blocks uniform (R155, R159). -/
theorem State.BlocksUniform.shiftGrid {s : State} (hu : s.BlocksUniform) (hd : Display.wf s.disp) (i j : Int) :
    (s.shiftGrid (i * s.mode.blockW) (j * s.mode.blockH)).BlocksUniform := by
  rw [State.blocksUniform_iff] at hu ⊢
  rw [State.shiftGrid_mode]
  intro bx hx r hr
  obtain ⟨hx', hr'⟩ := topLeft_lt s.mode hx hr
  by_cases hsrc : ∃ bx' r', ShiftSource (i * s.mode.blockW) (j * s.mode.blockH) bx r bx' r'
  · obtain ⟨bx', r', h⟩ := hsrc
    rw [h.cell s hx hr, h.topLeft.cell s hx' hr']
    exact hu bx' h.1 r' h.2.1
  · rw [State.cell_shiftGrid_of_no_source hd hx hr fun bx' r' h => hsrc ⟨bx', r', h⟩,
      State.cell_shiftGrid_of_no_source hd hx' hr' fun tx tr h => hsrc ⟨_, _, h.of_topLeft⟩]

/-- Under SCROLL_UNITS logical a scroll is a shift by whole blocks (R155). -/
theorem State.scrollCols_of_logical {s : State} (h : s.cfg.params.scrollUnits = .logical) (d : Nat) :
    s.scrollCols d = d * s.mode.blockW := by simp [State.scrollCols, h]

theorem State.scrollRows_of_logical {s : State} (h : s.cfg.params.scrollUnits = .logical) (d : Nat) :
    s.scrollRows d = d * s.mode.blockH := by simp [State.scrollRows, h]

theorem State.BlocksUniform.execDrw {s t : State} {x y n : Nibble} (hu : s.BlocksUniform)
    (h : execDrw x y n s = .next t) : t.BlocksUniform := by
  unfold Machine.execDrw at h
  split at h
  · rw [next_inj h]
    exact hu
  · rw [next_inj h]
    exact hu.drawSprite _

/-- Settles O36: an instruction whose frame has no display keeps the blocks (`exec_only`); CLS works cell by cell, DRW
on whole blocks, and the scrolls shift by whole blocks. -/
theorem instrKeepsBlocksUniform : Obligations.InstrKeepsBlocksUniform := by
  intro i s t hlow hhigh hhires hunits hd hu h
  by_cases hp : Part.disp ∈ mayChange i
  · cases i
    case low | high | hires64 => contradiction
    case cls => rw [next_inj h]; exact hu.clearGrid hd
    case drw x y n => exact hu.execDrw h
    case scd n =>
      have hshift := hu.shiftGrid hd 0 n.toNat
      rw [next_inj h, State.scrollRows_of_logical hunits]
      simpa using hshift
    case scr =>
      have hshift := hu.shiftGrid hd scrollH 0
      rw [next_inj h, State.scrollCols_of_logical hunits]
      simpa using hshift
    case scl =>
      have hshift := hu.shiftGrid hd (-scrollH) 0
      rw [next_inj h, State.scrollCols_of_logical hunits]
      simpa using hshift
    all_goals simp [mayChange] at hp
  · have hmode : Part.mode ∉ mayChange i := by
      cases i
      case low | high | hires64 => contradiction
      all_goals simp [mayChange]
    exact hu.of_only (exec_only h) hp hmode

end Sys2Proof.Machine
end

section
/-! Two states that differ in the fade counters only complete every instruction alike (R28, R165): instructions that
leave the display alone commute with its replacement, and the display's operations look at the lit cells only. -/

namespace Sys2Proof.Machine

/-! ### Displays with the same lit cells -/

/-- The same cells of the grid are on. -/
def SameLit (d e : Display) : Prop := ∀ bx < 128, ∀ r < 64, (d.cell bx r).on = (e.cell bx r).on

/-- Equal but for the fade counters: the same state with another display of the same lit cells. -/
theorem equalButFade_iff {s t : State} : EqualButFade s t ↔
    ∃ e, t = s.setDisp e ∧ Display.wf s.disp ∧ Display.wf e ∧ SameLit s.disp e := by
  constructor
  · rintro ⟨hs, ht, hlit, hrest⟩
    exact ⟨t.disp, (congrArg (fun u => State.setDisp u t.disp) hrest).symm, hs, ht, hlit⟩
  · rintro ⟨e, rfl, hs, he, hlit⟩
    exact ⟨hs, he, hlit, rfl⟩

theorem SameLit.pixOn {s : State} {e : Display} (h : SameLit s.disp e) {px py : Nat} (hx : px < s.mode.width)
    (hy : py < s.mode.height) : (s.setDisp e).pixOn px py = s.pixOn px py :=
  have hb := pixel_lt hx hy
  (h _ hb.1 _ hb.2).symm

theorem SameLit.clearGrid {s : State} {e : Display} (hd : Display.wf s.disp) (he : Display.wf e) :
    SameLit s.clearGrid.disp (s.setDisp e).clearGrid.disp := by
  intro bx _ r _
  rw [State.cell_clearGrid s hd, State.cell_clearGrid (s.setDisp e) he, clearCell_on, clearCell_on]

theorem SameLit.shiftGrid {s : State} {e : Display} (h : SameLit s.disp e) (hd : Display.wf s.disp)
    (he : Display.wf e) (dx dy : Int) : SameLit (s.shiftGrid dx dy).disp ((s.setDisp e).shiftGrid dx dy).disp := by
  intro bx hx r hr
  by_cases hsrc : ∃ bx' r', ShiftSource dx dy bx r bx' r'
  · obtain ⟨bx', r', hs⟩ := hsrc
    rw [hs.cell s hx hr, hs.cell (s.setDisp e) hx hr]
    exact h bx' hs.1 r' hs.2.1
  · have hno : ∀ bx' r', ¬ ShiftSource dx dy bx r bx' r' := fun bx' r' hs => hsrc ⟨bx', r', hs⟩
    rw [State.cell_shiftGrid_of_no_source hd hx hr hno,
      State.cell_shiftGrid_of_no_source (s := s.setDisp e) he hx hr hno]

theorem SameLit.switchMode {s : State} {e : Display} (h : SameLit s.disp e) (m : ResMode) :
    SameLit (s.switchMode m).disp ((s.setDisp e).switchMode m).disp := by
  rw [State.switchMode_disp, State.switchMode_disp, State.setDisp_cfg]
  split
  · exact fun _ _ _ _ => rfl
  · exact h

/-! ### A draw looks at the lit cells only -/

theorem DrawsOnly.setDisp (s : State) (e : Display) : DrawsOnly s (s.setDisp e) :=
  ⟨e, s.getV vF, by rw [State.setV_getV]⟩

theorem SameLit.drawSprite {s : State} {e : Display} (h : SameLit s.disp e) (d : DrawRequest) :
    SameLit (s.drawSprite d).disp ((s.setDisp e).drawSprite d).disp := by
  intro bx hx r hr
  have hland := State.landings_drawsOnly (DrawsOnly.setDisp s e) d
  rw [State.cell_drawSprite s d hx hr, State.cell_drawSprite (s.setDisp e) d hx hr, hland, State.setDisp_mode]
  split
  · have hp := State.landings_lt s d _ ‹_›
    rw [State.toggled_on, State.toggled_on, h.pixOn hp.1 hp.2]
  · exact h bx hx r hr

/-- Both draws collide, or neither (R153). -/
theorem SameLit.drawSprite_vF {s : State} {e : Display} (h : SameLit s.disp e) (d : DrawRequest) :
    ((s.setDisp e).drawSprite d).getV vF = (s.drawSprite d).getV vF := by
  have hcol : (∃ p ∈ s.landings d, (s.setDisp e).pixOn p.1 p.2 = true) ↔
      ∃ p ∈ s.landings d, s.pixOn p.1 p.2 = true := by
    refine exists_congr fun p => and_congr_right fun hp => ?_
    have hlt := State.landings_lt s d p hp
    rw [h.pixOn hlt.1 hlt.2]
  rw [State.vF_drawSprite, State.vF_drawSprite, State.landings_drawsOnly (DrawsOnly.setDisp s e), if_congr hcol rfl rfl]

theorem SameLit.drawSprite_setDisp {s : State} {e : Display} (h : SameLit s.disp e) (d : DrawRequest) :
    (s.setDisp e).drawSprite d = (s.drawSprite d).setDisp ((s.setDisp e).drawSprite d).disp := by
  have hvF := h.drawSprite_vF d
  obtain ⟨d₁, f₁, h₁⟩ := State.drawSprite_drawsOnly s d
  obtain ⟨d₂, f₂, h₂⟩ := State.drawSprite_drawsOnly (s.setDisp e) d
  rw [h₁, h₂, State.setDisp_getV, State.setDisp_getV, State.getV_setV, State.getV_setV, if_pos rfl, if_pos rfl] at hvF
  rw [h₁, h₂, hvF]
  rfl

/-! ### Instructions that leave the display alone -/

theorem State.skipIf_setDisp (s : State) (e : Display) (c : Bool) :
    (s.setDisp e).skipIf c = (s.skipIf c).setDisp e := by
  unfold State.skipIf
  split <;> rfl

theorem State.writeLogic_setDisp (s : State) (e : Display) (x : Nibble) (r : Byte) :
    (s.setDisp e).writeLogic x r = (s.writeLogic x r).setDisp e := by
  unfold State.writeLogic
  rw [State.setDisp_cfg]
  split <;> rfl

theorem State.writeST_setDisp (s : State) (e : Display) (v : Byte) :
    (s.setDisp e).writeST v = (s.writeST v).setDisp e := by
  unfold State.writeST
  rw [State.setDisp_ST]
  split
  · rfl
  · split <;> rfl

theorem State.foldl_storeReg_setDisp (s : State) (e : Display) (l : List Nat) :
    l.foldl State.storeReg (s.setDisp e) = (l.foldl State.storeReg s).setDisp e := by
  induction l generalizing s with
  | nil => rfl
  | cons i l ih => exact ih (s.storeReg i)

theorem State.foldl_loadReg_setDisp (s : State) (e : Display) (l : List Nat) :
    l.foldl State.loadReg (s.setDisp e) = (l.foldl State.loadReg s).setDisp e := by
  induction l generalizing s with
  | nil => rfl
  | cons i l ih => exact ih (s.loadReg i)

theorem execRet_setDisp {s t : State} (e : Display) (h : execRet s = .next t) :
    execRet (s.setDisp e) = .next (t.setDisp e) := by
  cases hs : s.stack with
  | nil =>
    rw [next_inj ((exec_ret_of_nil hs).symm.trans h)]
    exact exec_ret_of_nil (s := s.setDisp e) hs
  | cons a rest =>
    rw [next_inj ((exec_ret_of_cons hs).symm.trans h)]
    exact exec_ret_of_cons (s := s.setDisp e) hs

theorem execAddI_setDisp {x : Nibble} {s t : State} (e : Display) (h : execAddI x s = .next t) :
    execAddI x (s.setDisp e) = .next (t.setDisp e) := by
  unfold execAddI at *
  rw [State.setDisp_cfg]
  split at h
  · rw [if_pos ‹_›, next_inj h]
    rfl
  · rw [if_neg ‹_›, next_inj h]
    rfl

/-- An instruction whose frame has no display does the same whatever the display holds. -/
theorem exec_setDisp {i : Instr} {s t : State} (e : Display) (hp : Part.disp ∉ mayChange i)
    (h : exec i s = .next t) : exec i (s.setDisp e) = .next (t.setDisp e) := by
  have key : ∀ {a b : State}, (.next a : Res) = .next t → b = a.setDisp e → (.next b : Res) = .next (t.setDisp e) :=
    fun ha hb => by rw [hb, next_inj ha]
  cases i
  case ret => exact execRet_setDisp e h
  case addI => exact execAddI_setDisp e h
  case or | and | xor => exact key h (State.writeLogic_setDisp _ _ _ _)
  case seImm | sneImm | seReg | sneReg | skp | sknp => exact key h (State.skipIf_setDisp _ _ _)
  case ldSTVx => exact key h (State.writeST_setDisp _ _ _)
  case storeRegs x =>
    exact key h (congrArg (fun u => State.setI u (s.bulkIndex x)) (State.foldl_storeReg_setDisp s e _))
  case loadRegs x =>
    exact key h (congrArg (fun u => State.setI u (s.bulkIndex x)) (State.foldl_loadReg_setDisp s e _))
  case cls | scd | scr | scl | low | high | hires64 | drw => simp [mayChange] at hp
  all_goals exact key h rfl

/-! ### Every instruction -/

theorem State.switchMode_setDisp (s : State) (e : Display) (m : ResMode) :
    (s.setDisp e).switchMode m = (s.switchMode m).setDisp ((s.setDisp e).switchMode m).disp := by
  unfold State.switchMode
  rw [State.setDisp_cfg]
  split <;> rfl

theorem execDrw_sameLit {x y n : Nibble} {s t : State} {e : Display} (hlit : SameLit s.disp e)
    (h : execDrw x y n s = .next t) :
    ∃ e', execDrw x y n (s.setDisp e) = .next (t.setDisp e') ∧ SameLit t.disp e' := by
  unfold execDrw at *
  rw [State.setDisp_cfg]
  split at h
  · rw [if_pos ‹_›, next_inj h]
    exact ⟨e, rfl, hlit⟩
  · rw [if_neg ‹_›, next_inj h]
    exact ⟨_, congrArg _ (hlit.drawSprite_setDisp _), hlit.drawSprite _⟩

/-- From a display with the same lit cells an instruction gives the same state with the same lit cells. -/
theorem exec_sameLit {i : Instr} {s t : State} {e : Display} (hd : Display.wf s.disp) (he : Display.wf e)
    (hlit : SameLit s.disp e) (h : exec i s = .next t) :
    ∃ e', exec i (s.setDisp e) = .next (t.setDisp e') ∧ SameLit t.disp e' := by
  by_cases hp : Part.disp ∈ mayChange i
  · cases i
    case cls => rw [next_inj h]; exact ⟨_, rfl, .clearGrid hd he⟩
    case hires64 => rw [next_inj h]; exact ⟨_, rfl, .clearGrid (s := s.setMode .viphires) hd he⟩
    case scd | scr | scl => rw [next_inj h]; exact ⟨_, rfl, hlit.shiftGrid hd he _ _⟩
    case low | high =>
      rw [next_inj h]
      exact ⟨_, congrArg Host.Outcome.next (State.switchMode_setDisp s e _), hlit.switchMode _⟩
    case drw => exact execDrw_sameLit hlit h
    all_goals simp [mayChange] at hp
  · exact ⟨e, exec_setDisp e hp h, fun bx hx r hr => by rw [(exec_only h).cell hp hx hr, hlit bx hx r hr]⟩

/-- Settles O35: `exec_sameLit` in the terms of `EqualButFade`; the canonical forms are kept by `exec_wf_disp`. -/
theorem fadeNeverInfluencesInstr : Obligations.FadeNeverInfluencesInstr := by
  intro i s t heq
  obtain ⟨e, rfl, hd, he, hlit⟩ := equalButFade_iff.mp heq
  obtain ⟨s', hs⟩ := exec_next i s
  obtain ⟨e', ht, hlit'⟩ := exec_sameLit hd he hlit hs
  exact ⟨s', s'.setDisp e', hs, ht, equalButFade_iff.mpr ⟨e', rfl, exec_wf_disp hd hs, exec_wf_disp he ht, hlit'⟩⟩

end Sys2Proof.Machine
end

section
/-! The machine's invariant (R40): its parts, and that every event keeps them, so every step does. -/

namespace Sys2Proof.Machine

/-! ### The parts of the invariant -/

/-- R40 items 1 and 2: what is pending belongs to the scheduler mode. -/
def State.WaitsOk (s : State) : Prop :=
  (s.sched = .waitingForKey ↔ s.waitReg ≠ none) ∧
  (s.sched = .waitingForVblank ↔ s.pendingDraw ≠ none) ∧
  (s.pendingDraw ≠ none → s.cfg.q.vblankSync = true)

/-- R40 item 3: a fault record only when not running. -/
def State.FaultOk (s : State) : Prop := s.fault ≠ none → s.running = false

/-- R40 item 6 for one cell, under FADE_FRAMES `n`. -/
def Pixel.Ok (n : Nat) (c : Pixel) : Prop := (c.on = true → c.fade = 0) ∧ c.fade ≤ n

/-- R40 item 6: every cell of the grid. -/
def Display.CellsOk (n : Nat) (d : Display) : Prop := ∀ bx < 128, ∀ r < 64, Pixel.Ok n (d.cell bx r)

/-- R37: the flag tells whether the count is positive. -/
def State.UnderflowOk (s : State) : Prop := s.underflowSeen = true ↔ 0 < s.underflowCount

theorem State.loadedInv_iff (s : State) : s.LoadedInv ↔
    s.WaitsOk ∧ s.FaultOk ∧ Display.CellsOk s.cfg.params.fadeFrames s.disp ∧ s.UnderflowOk ∧ s.acc < 60 := by
  constructor
  · rintro ⟨hkey, hvblank, hsync, hfault, hlit, hfade, hunder, hacc⟩
    exact ⟨⟨hkey, hvblank, hsync⟩, hfault, fun bx hx r hr => ⟨hlit bx hx r hr, hfade bx hx r hr⟩, hunder, hacc⟩
  · rintro ⟨⟨hkey, hvblank, hsync⟩, hfault, hcells, hunder, hacc⟩
    exact ⟨hkey, hvblank, hsync, hfault, fun bx hx r hr => (hcells bx hx r hr).1,
      fun bx hx r hr => (hcells bx hx r hr).2, hunder, hacc⟩

/-! ### What is pending, mode by mode -/

theorem State.waitsOk_running {s : State} (h : s.sched = .running) :
    s.WaitsOk ↔ s.waitReg = none ∧ s.pendingDraw = none := by
  simp only [State.WaitsOk, h, reduceCtorEq, false_iff, not_not, ne_eq]
  tauto

theorem State.waitsOk_waitingForKey {s : State} (h : s.sched = .waitingForKey) :
    s.WaitsOk ↔ s.waitReg ≠ none ∧ s.pendingDraw = none := by
  simp only [State.WaitsOk, h, reduceCtorEq, false_iff, true_iff, not_not, ne_eq]
  tauto

theorem State.waitsOk_waitingForVblank {s : State} (h : s.sched = .waitingForVblank) :
    s.WaitsOk ↔ s.waitReg = none ∧ s.pendingDraw ≠ none ∧ s.cfg.q.vblankSync = true := by
  simp only [State.WaitsOk, h, reduceCtorEq, false_iff, true_iff, not_not, ne_eq]
  tauto

/-! ### Cells -/

theorem Pixel.ok_blank (n : Nat) : Pixel.Ok n Pixel.blank := ⟨fun _ => rfl, Nat.zero_le n⟩

theorem Pixel.ok_on (n : Nat) : Pixel.Ok n ⟨true, 0⟩ := ⟨fun _ => rfl, Nat.zero_le n⟩

theorem Pixel.ok_off {n k : Nat} (h : k ≤ n) : Pixel.Ok n ⟨false, k⟩ := ⟨fun hon => Bool.noConfusion hon, h⟩

theorem State.offFade_le (s : State) : s.offFade ≤ s.cfg.params.fadeFrames := by
  rw [State.offFade_eq]
  split
  · exact Nat.zero_le _
  · exact le_refl _

theorem State.ok_toggled (s : State) (px py : Nat) : Pixel.Ok s.cfg.params.fadeFrames (s.toggled px py) := by
  unfold State.toggled
  split
  · exact Pixel.ok_off s.offFade_le
  · exact Pixel.ok_on _

theorem Display.CellsOk.nil (n : Nat) : Display.CellsOk n [] := fun _ _ _ _ => Pixel.ok_blank n

section
variable {s : State} (hc : Display.CellsOk s.cfg.params.fadeFrames s.disp)
include hc

theorem State.cellsOk_clearGrid (hd : Display.wf s.disp) :
    Display.CellsOk s.cfg.params.fadeFrames s.clearGrid.disp := by
  intro bx hx r hr
  rw [State.cell_clearGrid s hd]
  unfold clearCell
  split
  · exact Pixel.ok_off s.offFade_le
  · exact hc bx hx r hr

theorem State.cellsOk_drawSprite (d : DrawRequest) :
    Display.CellsOk s.cfg.params.fadeFrames (s.drawSprite d).disp := by
  intro bx hx r hr
  rw [State.cell_drawSprite s d hx hr]
  split
  · exact s.ok_toggled _ _
  · exact hc bx hx r hr

theorem State.cellsOk_shiftGrid (hd : Display.wf s.disp) (dx dy : Int) :
    Display.CellsOk s.cfg.params.fadeFrames (s.shiftGrid dx dy).disp := by
  intro bx hx r hr
  by_cases hsrc : ∃ bx' r', ShiftSource dx dy bx r bx' r'
  · obtain ⟨bx', r', hs⟩ := hsrc
    rw [hs.cell s hx hr]
    exact hc bx' hs.1 r' hs.2.1
  · rw [State.cell_shiftGrid_of_no_source hd hx hr fun bx' r' hs => hsrc ⟨bx', r', hs⟩]
    exact Pixel.ok_blank _

theorem State.cellsOk_ageFade (hd : Display.wf s.disp) :
    Display.CellsOk s.cfg.params.fadeFrames s.ageFade.disp := by
  intro bx hx r hr
  have hcell := hc bx hx r hr
  rw [State.cell_ageFade s hd]
  unfold ageCell
  split
  · exact hcell
  · exact Pixel.ok_off ((Nat.sub_le _ _).trans hcell.2)

theorem exec_cellsOk {i : Instr} {t : State} (hd : Display.wf s.disp) (h : exec i s = .next t) :
    Display.CellsOk s.cfg.params.fadeFrames t.disp := by
  rcases exec_disp h with e | e | ⟨d, e⟩ | ⟨dx, dy, e⟩ | e <;> rw [e]
  · exact hc
  · exact State.cellsOk_clearGrid hc hd
  · exact State.cellsOk_drawSprite hc d
  · exact State.cellsOk_shiftGrid hc hd dx dy
  · exact .nil _

end

/-! ### Instructions -/

/-- From a running core with nothing pending an instruction that begins a wait leaves exactly what it waits for. -/
theorem exec_waitsOk {i : Instr} {s t : State} (hs : s.sched = .running) (hw : s.WaitsOk) (h : exec i s = .next t) :
    t.WaitsOk := by
  obtain ⟨hreg, hdraw⟩ := (State.waitsOk_running hs).mp hw
  by_cases hp : Part.sched ∈ mayChange i
  · cases i
    case ldVxK x =>
      rw [next_inj h]
      exact (State.waitsOk_waitingForKey rfl).mpr ⟨Option.some_ne_none x, hdraw⟩
    case drw x y n =>
      by_cases hq : s.cfg.q.vblankSync = true
      · rw [exec, execDrw, if_pos hq] at h
        rw [next_inj h]
        exact (State.waitsOk_waitingForVblank rfl).mpr ⟨hreg, Option.some_ne_none _, hq⟩
      · rw [exec, execDrw, if_neg hq] at h
        rw [next_inj h]
        have hf := State.drawSprite_only s ⟨s.getV x, s.getV y, n⟩
        exact (State.waitsOk_running ((hf.sched (by simp)).trans hs)).mpr
          ⟨(hf.waitReg (by simp)).trans hreg, (hf.pendingDraw (by simp)).trans hdraw⟩
    all_goals simp [mayChange] at hp
  · have hno : Part.waitReg ∉ mayChange i ∧ Part.pendingDraw ∉ mayChange i := by
      cases i <;> simp [mayChange] at hp ⊢
    have hf := exec_only h
    exact (State.waitsOk_running ((hf.sched hp).trans hs)).mpr
      ⟨(hf.waitReg hno.1).trans hreg, (hf.pendingDraw hno.2).trans hdraw⟩

/-- SYS alone writes a fault record, and it stops the core (R182). -/
theorem exec_faultOk {i : Instr} {s t : State} (hfault : s.fault = none) (h : exec i s = .next t) : t.FaultOk := by
  by_cases hp : Part.fault ∈ mayChange i
  · cases i
    case sys nnn => rw [next_inj h]; exact fun _ => rfl
    all_goals simp [mayChange] at hp
  · exact fun hne => absurd (((exec_only h).fault hp).trans hfault) hne

theorem signalUnderflow_underflowOk (s : State) : (signalUnderflow s).UnderflowOk :=
  iff_of_true rfl (Nat.succ_pos s.underflowCount)

theorem exec_underflowOk {i : Instr} {s t : State} (hu : s.UnderflowOk) (h : exec i s = .next t) :
    t.UnderflowOk := by
  by_cases hp : Part.underflow ∈ mayChange i
  · cases i
    case ret =>
      cases hs : s.stack with
      | nil =>
        rw [next_inj ((exec_ret_of_nil hs).symm.trans h)]
        exact signalUnderflow_underflowOk s
      | cons a rest =>
        rw [next_inj ((exec_ret_of_cons hs).symm.trans h)]
        exact hu
    all_goals simp [mayChange] at hp
  · obtain ⟨hseen, hcount⟩ := (exec_only h).underflow hp
    unfold State.UnderflowOk at *
    rw [hseen, hcount]
    exact hu

theorem State.Inv.exec {i : Instr} {s t : State} (hinv : s.Inv) (hl : s.loaded = true) (hr : s.running = true)
    (hs : s.sched = .running) (h : exec i s = .next t) : t.Inv := by
  obtain ⟨hmem, hdisp, -, hloaded⟩ := hinv
  obtain ⟨hwaits, hfault, hcells, hunder, hacc⟩ := (State.loadedInv_iff s).mp (hloaded hl)
  obtain ⟨hpl, hpa, hpc⟩ := not_mem_mayChange i
  have hf := exec_only h
  have hnone : s.fault = none := by
    by_contra hne
    exact Bool.false_ne_true ((hfault hne).symm.trans hr)
  refine ⟨exec_wf_mem hmem h, exec_wf_disp hdisp h, fun _ => (hf.loaded hpl).trans hl, fun _ => ?_⟩
  refine (State.loadedInv_iff t).mpr ⟨exec_waitsOk hs hwaits h, exec_faultOk hnone h, ?_, exec_underflowOk hunder h, ?_⟩
  · rw [hf.cfg hpc]
    exact exec_cellsOk hcells hdisp h
  · rw [hf.acc hpa]
    exact hacc

theorem State.Inv.raiseFatal {s : State} (hinv : s.Inv) (hl : s.loaded = true) (a : Addr) (w : Word) :
    (raiseFatal a w s).Inv := by
  obtain ⟨hmem, hdisp, -, hloaded⟩ := hinv
  obtain ⟨hwaits, -, hrest⟩ := (State.loadedInv_iff s).mp (hloaded hl)
  exact ⟨hmem, hdisp, fun _ => hl, fun _ => (State.loadedInv_iff _).mpr ⟨hwaits, fun _ => rfl, hrest⟩⟩

theorem State.Inv.stepInstr {s t : State} (hinv : s.Inv) (hl : s.loaded = true) (hr : s.running = true)
    (hs : s.sched = .running) (h : stepInstr s = .next t) : t.Inv := by
  have hadv : s.advancePc.Inv := hinv
  unfold Machine.stepInstr at h
  split at h
  · exact hadv.exec hl hr hs h
  · rw [next_inj h]
    exact hadv.raiseFatal hl _ _

/-! ### PollKeys -/

/-- The fields a captured key writes (R191). -/
theorem State.captureKey_eq (s : State) (k : Nibble) : ∃ V keys draws,
    s.captureKey k = { s with V := V, keys := keys, waitReg := none, sched := .running, draws := draws } := by
  unfold State.captureKey State.pickDrawn State.writeWaiting
  cases s.waitReg <;> split <;> exact ⟨_, _, _, rfl⟩

theorem State.Inv.pollKeys {s : State} (hinv : s.Inv) (hs : s.sched = .waitingForKey) : s.pollKeys.Inv := by
  unfold State.pollKeys
  split
  · exact hinv
  · obtain ⟨V, keys, draws, e⟩ := State.captureKey_eq s s.pickKey
    obtain ⟨hmem, hdisp, hrun, hloaded⟩ := hinv
    rw [e]
    refine ⟨hmem, hdisp, hrun, fun hl => ?_⟩
    obtain ⟨hwaits, hrest⟩ := (State.loadedInv_iff s).mp (hloaded hl)
    obtain ⟨-, hdraw⟩ := (State.waitsOk_waitingForKey hs).mp hwaits
    exact (State.loadedInv_iff _).mpr ⟨(State.waitsOk_running rfl).mpr ⟨rfl, hdraw⟩, hrest⟩

/-! ### Tick60 -/

/-- The invariant does not look at the timers and the outputs. -/
theorem State.Inv.writeST {s : State} (hinv : s.Inv) (v : Byte) : (s.writeST v).Inv := by
  unfold State.writeST
  split
  · exact hinv
  · split <;> exact hinv

theorem State.Inv.decrementTimers {s : State} (hinv : s.Inv) : s.decrementTimers.Inv := by
  have hDT : (if s.DT ≠ 0 then s.setDT (s.DT - 1) else s).Inv := by split <;> exact hinv
  unfold State.decrementTimers
  simp only
  split
  · exact hDT.writeST _
  · exact hDT

/-- The flushed draw leaves nothing pending and the core running (R192). -/
theorem State.Inv.flushDraw {s : State} (hinv : s.Inv) (hl : s.loaded = true) : s.flushDraw.Inv := by
  by_cases hs : s.sched = .waitingForVblank
  · obtain ⟨hmem, hdisp, hrun, hloaded⟩ := hinv
    obtain ⟨hwaits, hfault, hcells, hunder, hacc⟩ := (State.loadedInv_iff s).mp (hloaded hl)
    obtain ⟨hreg, hdraw, -⟩ := (State.waitsOk_waitingForVblank hs).mp hwaits
    obtain ⟨d, hd⟩ := Option.ne_none_iff_exists'.mp hdraw
    rw [State.flushDraw_of_waiting hs hd]
    have hwf := State.wf_drawSprite s d hdisp
    have hdrawn := State.cellsOk_drawSprite hcells d
    rw [State.drawSprite_eq]
    exact ⟨hmem, hwf, hrun, fun _ => (State.loadedInv_iff _).mpr
      ⟨(State.waitsOk_running rfl).mpr ⟨hreg, rfl⟩, hfault, hdrawn, hunder, hacc⟩⟩
  · rw [State.flushDraw_of_not_waiting hs]
    exact hinv

theorem State.Inv.ageFade {s : State} (hinv : s.Inv) : s.ageFade.Inv := by
  obtain ⟨hmem, hdisp, hrun, hloaded⟩ := hinv
  refine ⟨hmem, State.wf_ageFade s hdisp, hrun, fun hl => ?_⟩
  obtain ⟨hwaits, hfault, hcells, hrest⟩ := (State.loadedInv_iff s).mp (hloaded hl)
  exact (State.loadedInv_iff _).mpr ⟨hwaits, hfault, State.cellsOk_ageFade hcells hdisp, hrest⟩

theorem State.Inv.tick60 {s : State} (hinv : s.Inv) (hl : s.loaded = true) : s.tick60.Inv := by
  have hl' : s.decrementTimers.loaded = true := ((State.decrementTimers_only s).loaded (by simp)).trans hl
  have hflush : s.decrementTimers.flushDraw.Inv := hinv.decrementTimers.flushDraw hl'
  exact State.Inv.ageFade (s := s.decrementTimers.flushDraw.emit _) hflush

/-! ### Load and Stop -/

/-- A core with R42's values in the fields the invariant looks at. -/
theorem State.LoadedInv.of_reset {s : State} (hs : s.sched = .running) (hreg : s.waitReg = none)
    (hdraw : s.pendingDraw = none) (hfault : s.fault = none) (hdisp : s.disp = []) (hseen : s.underflowSeen = false)
    (hcount : s.underflowCount = 0) (hacc : s.acc = 0) : s.LoadedInv := by
  refine (State.loadedInv_iff s).mpr
    ⟨(State.waitsOk_running hs).mpr ⟨hreg, hdraw⟩, fun h => absurd hfault h, ?_, ?_, ?_⟩
  · rw [hdisp]
    exact .nil _
  · unfold State.UnderflowOk
    simp [hseen, hcount]
  · omega

theorem State.inv_resetWith (s : State) (image : List Byte) (cfg : Cfg) : (s.resetWith image cfg).Inv :=
  ⟨wf_loadedMemory _ _, Display.wf_nil, fun _ => rfl, fun _ => .of_reset rfl rfl rfl rfl rfl rfl rfl rfl⟩

theorem unloadedState_inv (n : Nat) (inputs : List Input) (outputs : List Output) :
    (unloadedState n inputs outputs).Inv := by
  obtain ⟨hmem, hdisp⟩ := unloadedState_wf n inputs outputs
  exact ⟨hmem, hdisp, fun h => Bool.noConfusion h, fun h => Bool.noConfusion h⟩

theorem State.inv_load (s : State) (image : Option (List Byte)) (md : Metadata) : (s.load image md).Inv := by
  rcases State.load_cases s image md with ⟨bytes, cfg, e⟩ | e
  · rw [e]
    exact State.inv_resetWith s.silence bytes cfg
  · rw [e]
    exact unloadedState_inv _ _ _

theorem State.Inv.stop {s : State} (hinv : s.Inv) : (s.setRunning false).Inv := by
  obtain ⟨hmem, hdisp, -, hloaded⟩ := hinv
  refine ⟨hmem, hdisp, fun h => Bool.noConfusion h, fun hl => ?_⟩
  obtain ⟨hwaits, -, hrest⟩ := (State.loadedInv_iff s).mp (hloaded hl)
  exact (State.loadedInv_iff _).mpr ⟨hwaits, fun _ => rfl, hrest⟩

/-! ### Every event, every step -/

theorem State.Inv.perform {e : Event} {s t : State} (hinv : s.Inv) (he : enabled e s = true)
    (h : perform e s = .next t) : t.Inv := by
  cases e with
  | load image md => rw [next_inj h]; exact State.inv_load s image md
  | step =>
    have hs := sched_of_enabled_step he
    simp only [enabled, Bool.and_eq_true] at he
    exact hinv.stepInstr he.1.1 he.1.2 hs h
  | pollKeys => rw [next_inj h]; exact hinv.pollKeys (sched_of_enabled_pollKeys he)
  | tick60 =>
    simp only [enabled, Bool.and_eq_true] at he
    rw [next_inj h]
    exact hinv.tick60 he.1
  | keyDown _ | keyUp _ => rw [next_inj h]; exact hinv
  | stop => rw [next_inj h]; exact hinv.stop

theorem State.Inv.setAcc {s : State} (hinv : s.Inv) {a : Nat} (ha : a = s.acc ∨ a < 60) : (s.setAcc a).Inv := by
  obtain ⟨hmem, hdisp, hrun, hloaded⟩ := hinv
  refine ⟨hmem, hdisp, hrun, fun hl => ?_⟩
  obtain ⟨hwaits, hfault, hcells, hunder, hacc⟩ := (State.loadedInv_iff s).mp (hloaded hl)
  have hlt : a < 60 := by omega
  exact (State.loadedInv_iff _).mpr ⟨hwaits, hfault, hcells, hunder, hlt⟩

/-- Settles O51: a step is an enabled event, which keeps the invariant, or it moves only the queue, at which the
invariant does not look, and the accumulator, which stays below 60 (`step_cases`). -/
theorem stepKeepsMachineInvariant : Obligations.StepKeepsMachineInvariant := by
  intro s t hinv h
  have hq : ∀ l, (s.setInputs l).Inv := fun _ => hinv
  rcases step_cases h with ⟨l, e, he, hp⟩ | ⟨l, a, rfl, ha⟩
  · exact (hq l).perform ((enabled_setInputs e s l).trans he) hp
  · exact (hq l).setAcc ha

/-! ### At reset and before the first `Load` -/

theorem State.toneInv_of_no_edges {s : State} (ho : toneEdges s.outputs = []) (hoff : ¬ s.toneOn) : s.ToneInv := by
  unfold State.ToneInv
  rw [ho]
  exact ⟨trivial, iff_of_false hoff (by simp)⟩

/-- Settles O50: R42's values meet `LoadedInv`, the unloaded core meets the rest of the invariant, and neither has
emitted a tone event or has its tone on. -/
theorem resetMeetsInvariants : Obligations.ResetMeetsInvariants := by
  refine ⟨⟨Memory.wf_nil, Display.wf_nil, fun _ => rfl, fun _ => .of_reset rfl rfl rfl rfl rfl rfl rfl rfl⟩,
    State.toneInv_of_no_edges rfl (fun h => h.2 rfl), unloadedState_inv _ _ _,
    State.toneInv_of_no_edges rfl (fun h => Bool.false_ne_true h.1)⟩

end Sys2Proof.Machine
end

section
/-! Memory as the program sees it: the fetched word, the three bytes LD B,Vx stores, a bulk store over the next
instruction, and the events that leave program and memory alone. -/

namespace Sys2Proof.Machine

/-! ### The frame's part for pc -/

theorem OnlyChanges.pc {ps : List Part} {s t : State} (h : OnlyChanges ps s t) (hp : Part.pc ∉ ps) : t.pc = s.pc :=
  h.2.2.1 hp

/-! ### The fetched word (R52, R53) -/

theorem State.fetchWord_eq_append (s : State) :
    s.fetchWord = (s.readByte s.pc ++ s.readByte (s.pc + 1) : BitVec 16) := by
  rw [State.fetchWord_eq, wordOfBytes_eq_append]

/-- Settles O8: `fetchWord_eq_append` for every pc; past the last address `s.pc + 1` is 000. -/
theorem fetchIsBigEndianAndWraps : Obligations.FetchIsBigEndianAndWraps := by
  intro s
  have hfetch := s.fetchWord_eq_append
  refine ⟨hfetch, fun hpc => ?_⟩
  have hwrap : s.pc + 1 = 0x000#12 := by rw [hpc]; decide
  rw [hfetch, hwrap, hpc]

/-! ### LD B,Vx (R144) -/

theorem decode_ldB (x : Nibble) : decode (0xF#4 ++ x ++ 0x33#8 : BitVec 16) = .ok (.ldB x) := by
  rw [show (0xF#4 ++ x ++ 0x33#8 : BitVec 16) = packXNN 0xF#4 x 0x33#8 from (packXNN_eq_append _ _ _).symm]
  simp [decode, decodeFamilyF]

theorem bcdHundreds_toNat (v : Byte) : (bcdHundreds v).toNat = v.toNat / 100 := by
  have := v.isLt
  rw [bcdHundreds, u8_toNat]
  omega

theorem bcdTens_toNat (v : Byte) : (bcdTens v).toNat = v.toNat / 10 % 10 := by
  rw [bcdTens, u8_toNat]
  omega

theorem bcdOnes_toNat (v : Byte) : (bcdOnes v).toNat = v.toNat % 10 := by
  rw [bcdOnes, u8_toNat]
  omega

/-- A byte after LD B,Vx. -/
theorem exec_ldB_readByte {s t : State} {x : Nibble} (h : exec (.ldB x) s = .next t) (a : Addr) :
    t.readByte a =
      if a = s.effAddr 2 then bcdOnes (s.getV x)
      else if a = s.effAddr 1 then bcdTens (s.getV x)
      else if a = s.effAddr 0 then bcdHundreds (s.getV x)
      else s.readByte a := by
  rw [next_inj h]
  simp only [State.readByte_writeByte]

/-- Settles O24: `exec_ldB_readByte` at the three addresses, which differ (`effAddr_inj`), and away from them; the
frame is `exec_only`. -/
theorem bcdStoresThreeDigits : Obligations.BcdStoresThreeDigits := by
  intro s x
  obtain ⟨t, h⟩ := exec_next (.ldB x) s
  have hbyte := exec_ldB_readByte h
  have h01 : s.effAddr 0 ≠ s.effAddr 1 := by simp [State.effAddr_inj]
  have h02 : s.effAddr 0 ≠ s.effAddr 2 := by simp [State.effAddr_inj]
  have h12 : s.effAddr 1 ≠ s.effAddr 2 := by simp [State.effAddr_inj]
  refine ⟨decode_ldB x, t, h, ?hundreds, ?tens, ?ones, ?addr0, State.effAddr_eq_add s 1, State.effAddr_eq_add s 2,
    ?others, exec_only h⟩
  case hundreds => rw [hbyte, if_neg h02, if_neg h01, if_pos rfl, bcdHundreds_toNat]
  case tens => rw [hbyte, if_neg h12, if_pos rfl, bcdTens_toNat]
  case ones => rw [hbyte, if_pos rfl, bcdOnes_toNat]
  case addr0 => rw [State.effAddr_eq_add, BitVec.add_zero]
  case others =>
    intro a ha
    simp only [List.mem_cons, List.not_mem_nil, or_false, not_or] at ha
    obtain ⟨h0, h1, h2⟩ := ha
    rw [hbyte, if_neg h2, if_neg h1, if_neg h0]

/-! ### A bulk store over the next instruction (R63, R145) -/

theorem State.effAddr_succ (s : State) (i : Nat) : s.effAddr (i + 1) = s.effAddr i + 1 := by
  rw [State.effAddr_eq_add, State.effAddr_eq_add, BitVec.ofNat_add, BitVec.add_assoc]
  rfl

/-- LD [I],Vx puts each register up to V[x] at its offset from I. -/
theorem exec_storeRegs_readByte {s t : State} {x i : Nibble} (h : exec (.storeRegs x) s = .next t)
    (hi : i.toNat ≤ x.toNat) : t.readByte (s.effAddr i.toNat) = s.getV i := by
  have hx := x.isLt
  have hoff : (s.effAddr i.toNat - s.I).toNat = i.toNat := by
    rw [State.effAddr_eq_add, add_sub_cancel_left, BitVec.toNat_ofNat]
    omega
  have hread := State.readByte_storeRegs s (n := x.toNat + 1) (by omega) (s.effAddr i.toNat)
  rw [hoff, if_pos (by omega), regOfNat_toNat_self] at hread
  rw [next_inj h]
  exact hread

/-- Settles O28: the store leaves pc, so the fetch reads the bytes at the offsets of V[i] and V[i + 1]. -/
theorem storeIsSeenByNextFetch : Obligations.StoreIsSeenByNextFetch := by
  intro s x i hi hpc
  obtain ⟨t, h⟩ := exec_next (.storeRegs x) s
  have hx := x.isLt
  have hsucc : (i + 1).toNat = i.toNat + 1 := by
    have h1 : (1 : Nibble).toNat = 1 := rfl
    rw [BitVec.toNat_add, h1]
    omega
  have hkeep : t.pc = s.effAddr i.toNat := ((exec_only h).pc (by simp [mayChange])).trans hpc
  have hlow : t.readByte (t.pc + 1) = s.getV (i + 1) := by
    rw [hkeep, ← State.effAddr_succ, ← hsucc]
    exact exec_storeRegs_readByte h (by omega)
  refine ⟨t, h, ?_⟩
  rw [State.fetchWord_eq_append, hlow, hkeep, exec_storeRegs_readByte h (by omega)]

/-! ### Events that are no step and no load (R64, R185) -/

/-- Settles O55: each of the other events is enabled and then only its own operation, whose frame is known. -/
theorem onlyStepAndLoadMoveProgram : Obligations.OnlyStepAndLoadMoveProgram := by
  intro e s t hstep hload h
  obtain ⟨-, hp⟩ := fire_eq_next.mp h
  cases e with
  | load im md => exact absurd rfl (hload im md)
  | step => exact absurd rfl hstep
  | pollKeys => exact .of_next hp ((State.pollKeys_only s).mono (by simp))
  | tick60 => exact .of_next hp ((State.tick60_only s).mono (by simp))
  | keyDown i => exact .of_next hp ((State.pressKey_only s i).mono (by simp))
  | keyUp i => exact .of_next hp ((State.releaseKey_only s i).mono (by simp))
  | stop => exact .of_next hp ((State.setRunning_only s false).mono (by simp))

end Sys2Proof.Machine
end

section
/-! Decoding undoes encoding, and the words written out from the formats of R72 decode (R71 to R75). -/

namespace Sys2Proof

/-! ### A word from some of its fields -/

theorem packNNN_of_field {w : Word} {op : Nibble} (hop : fieldOp w = op) : packNNN op (fieldNNN w) = w := by
  rw [← hop, packNNN_fields]

theorem packXNN_of_fields {w : Word} {op : Nibble} {nn : Byte} (hop : fieldOp w = op) (hnn : fieldNN w = nn) :
    packXNN op (fieldX w) nn = w := by
  rw [← hop, ← hnn, packXNN_fields]

theorem packXYN_of_fields {w : Word} {op n : Nibble} (hop : fieldOp w = op) (hn : fieldN w = n) :
    packXYN op (fieldX w) (fieldY w) n = w := by
  rw [← hop, ← hn, packXYN_fields]

/-! ### Concatenations of R72 as packed words -/

theorem append_eq_packNNN (op : Nibble) (nnn : Addr) : (op ++ nnn : BitVec 16) = packNNN op nnn :=
  (packNNN_eq_append op nnn).symm

theorem append_eq_packXNN (op x : Nibble) (nn : Byte) : (op ++ x ++ nn : BitVec 16) = packXNN op x nn :=
  (packXNN_eq_append op x nn).symm

theorem append_eq_packXYN (op x y n : Nibble) : (op ++ x ++ y ++ n : BitVec 16) = packXYN op x y n :=
  (packXYN_eq_append op x y n).symm

/-! ### Family 0: the decoder's tests as tests of the operand -/

theorem eq_ofNat_iff {w : Word} (hop : fieldOp w = 0x0#4) {k : Nat} (hk : k < 4096) :
    w = BitVec.ofNat 16 k ↔ fieldNNN w = BitVec.ofNat 12 k := by
  have hzero : w.toNat / 4096 = 0 := by rw [← fieldOp_toNat, hop]; rfl
  rw [← BitVec.toNat_inj, ← BitVec.toNat_inj, fieldNNN_toNat, BitVec.toNat_ofNat, BitVec.toNat_ofNat]
  omega

theorem scdTest_iff {w : Word} (hop : fieldOp w = 0x0#4) :
    w.extractLsb' 4 12 = 0x00C#12 ↔ (fieldNNN w).toNat / 16 = 0x0C := by
  have hzero : w.toNat / 4096 = 0 := by rw [← fieldOp_toNat, hop]; rfl
  rw [← BitVec.toNat_inj, BitVec.extractLsb'_toNat, fieldNNN_toNat, Nat.shiftRight_eq_div_pow, BitVec.toNat_ofNat]
  omega

theorem sysOperandOk_iff (nnn : Addr) : sysOperandOk nnn = true ↔
    nnn ∉ [0x0E0#12, 0x0EE#12, 0x0FB#12, 0x0FC#12, 0x0FE#12, 0x0FF#12, 0x230#12] ∧ nnn.toNat / 16 ≠ 0x0C := by
  simp [sysOperandOk, notScdWord, notFixedWord, and_comm]

/-- Family 0 reads an operand no other row takes as SYS. -/
theorem decodeFamily0_of_sysOperandOk {w : Word} (hop : fieldOp w = 0x0#4) (h : sysOperandOk (fieldNNN w) = true) :
    decodeFamily0 w = .sys (fieldNNN w) := by
  obtain ⟨hfixed, hscd⟩ := (sysOperandOk_iff _).mp h
  simp only [List.mem_cons, List.not_mem_nil, or_false, not_or] at hfixed
  simp [decodeFamily0, eq_ofNat_iff hop, scdTest_iff hop, hfixed, hscd]

/-! ### Decoding an encoding -/

theorem decode_encode_scd : ∀ n : Nibble, decode (encode (.scd n)) = .ok (.scd n) := by decide

theorem decode_encode_sys {nnn : Addr} (h : sysOperandOk nnn = true) : decode (encode (.sys nnn)) = .ok (.sys nnn) := by
  have hsys : decodeFamily0 (packNNN 0x0#4 nnn) = .sys (fieldNNN (packNNN 0x0#4 nnn)) :=
    decodeFamily0_of_sysOperandOk (by simp) (by simpa using h)
  simp [encode, decode, hsys]

/-- Settles O1: the fixed words compute, SCD has 16 words, SYS is `decode_encode_sys`; the other constructors are packed
from fields, which the decoder reads back. -/
theorem decodeOfEncodeGivesInstr : Obligations.DecodeOfEncodeGivesInstr := by
  intro i hwf
  cases i
  case cls | ret | scr | scl | low | high | hires64 => rfl
  case scd n => exact decode_encode_scd n
  case sys nnn => exact decode_encode_sys hwf
  case ldReg | or | and | xor | addReg | sub | shr | subn | shl => simp [encode, decode, decodeFamily8]
  case skp | sknp => simp [encode, decode, decodeFamilyE]
  case ldVxDT | ldVxK | ldDTVx | ldSTVx | addI | ldF | ldHF | ldB | storeRegs | loadRegs =>
    simp [encode, decode, decodeFamilyF]
  all_goals simp [encode, decode]

theorem decode_of_encode_eq {i : Instr} {w : Word} (hw : encode i = w) (hwf : i.wellFormed = true) :
    decode w = .ok i := hw ▸ decodeOfEncodeGivesInstr i hwf

/-- Settles O5: each word is the encoding of its instruction. -/
theorem writtenWordsDecode : Obligations.WrittenWordsDecode :=
  ⟨decode_of_encode_eq rfl rfl, decode_of_encode_eq rfl rfl, decode_of_encode_eq rfl rfl, decode_of_encode_eq rfl rfl,
    decode_of_encode_eq rfl rfl, decode_of_encode_eq rfl rfl, decode_of_encode_eq rfl rfl, decode_of_encode_eq rfl rfl,
    decode_of_encode_eq rfl rfl, decode_of_encode_eq rfl rfl⟩

theorem decode_xyn {i : Instr} {op x y n : Nibble} (henc : encode i = packXYN op x y n) (hwf : i.wellFormed = true) :
    decode (op ++ x ++ y ++ n : BitVec 16) = .ok i :=
  decode_of_encode_eq (henc.trans (append_eq_packXYN op x y n).symm) hwf

theorem decode_xnn {i : Instr} {op x : Nibble} {nn : Byte} (henc : encode i = packXNN op x nn)
    (hwf : i.wellFormed = true) : decode (op ++ x ++ nn : BitVec 16) = .ok i :=
  decode_of_encode_eq (henc.trans (append_eq_packXNN op x nn).symm) hwf

/-- Settles O6: each concatenation is what the encoder packs. -/
theorem registerPatternsDecode : Obligations.RegisterPatternsDecode := fun _ _ =>
  ⟨decode_xyn rfl rfl, decode_xyn rfl rfl, decode_xyn rfl rfl, decode_xyn rfl rfl, decode_xyn rfl rfl,
    decode_xyn rfl rfl, decode_xyn rfl rfl, decode_xyn rfl rfl, decode_xnn rfl rfl⟩

end Sys2Proof
end

section
/-! The decoder's tests are the rows of the opcode table, family by family (R74, R75). -/

namespace Sys2Proof

/-! ### Masks as tests of fields -/

theorem and_opMask_eq_iff (w : Word) (op : Nibble) : w &&& 0xF000#16 = packNNN op 0x000#12 ↔ fieldOp w = op := by
  have hmask : w &&& 0xF000#16 = packNNN (fieldOp w) 0x000#12 := by
    rw [← Laws.TableRow.packNNN_and (fieldOp w) (fieldNNN w), packNNN_fields]
  rw [hmask]
  exact ⟨fun h => by simpa using congrArg fieldOp h, fun h => by rw [h]⟩

theorem and_nnMask_eq_iff {w : Word} {op : Nibble} (hop : fieldOp w = op) (nn : Byte) :
    w &&& 0xF0FF#16 = packXNN op 0x0#4 nn ↔ fieldNN w = nn := by
  have hmask : w &&& 0xF0FF#16 = packXNN op 0x0#4 (fieldNN w) := by
    rw [← Laws.TableRow.packXNN_and_low op (fieldX w) (fieldNN w), packXNN_of_fields hop rfl]
  rw [hmask]
  exact ⟨fun h => by simpa using congrArg fieldNN h, fun h => by rw [h]⟩

theorem and_nMask_eq_iff {w : Word} {op : Nibble} (hop : fieldOp w = op) (n : Nibble) :
    w &&& 0xF00F#16 = packXYN op 0x0#4 0x0#4 n ↔ fieldN w = n := by
  have hmask : w &&& 0xF00F#16 = packXYN op 0x0#4 0x0#4 (fieldN w) := by
    rw [← Laws.TableRow.packXYN_and_low op (fieldX w) (fieldY w) (fieldN w), packXYN_of_fields hop rfl]
  rw [hmask]
  exact ⟨fun h => by simpa using congrArg fieldN h, fun h => by rw [h]⟩

theorem and_scdMask_eq_iff {w : Word} : w &&& 0xFFF0#16 = 0x00C0#16 ↔ w.extractLsb' 4 12 = 0x00C#12 := by
  have hmask : w &&& 0xFFF0#16 = packXYN (fieldOp w) (fieldX w) (fieldY w) 0x0#4 := by
    rw [← Laws.TableRow.packXYN_and_high _ _ _ (fieldN w), packXYN_fields]
  have hbits := w.isLt
  rw [hmask, ← BitVec.toNat_inj, ← BitVec.toNat_inj, packXYN_toNat, fieldOp_toNat, fieldX_toNat, fieldY_toNat,
    BitVec.extractLsb'_toNat, Nat.shiftRight_eq_div_pow]
  simp only [BitVec.toNat_ofNat]
  omega

theorem packXYN_of_scdTest {w : Word} (h : w.extractLsb' 4 12 = 0x00C#12) :
    packXYN 0x0#4 0x0#4 0xC#4 (fieldN w) = w := by
  rw [← BitVec.toNat_inj, BitVec.extractLsb'_toNat, Nat.shiftRight_eq_div_pow, BitVec.toNat_ofNat] at h
  apply BitVec.eq_of_toNat_eq
  rw [packXYN_toNat, fieldN_toNat]
  have := w.isLt
  simp only [BitVec.toNat_ofNat]
  omega

/-! ### The opcode table, family by family -/

/-- The rows of R75 whose match value has `op` in its top nibble. -/
def familyRows (op : Nibble) : List TableRow := opcodeTable.filter (fun r => fieldOp r.pattern == op)

theorem fieldOp_of_selects {r : TableRow} (hr : r ∈ opcodeTable) {w : Word} (h : r.selects w = true) :
    fieldOp r.pattern = fieldOp w := by
  have hmask : fieldOp r.mask = BitVec.allOnes 4 := (by decide : ∀ r ∈ opcodeTable, fieldOp r.mask = 0xF#4) r hr
  rw [← eq_of_beq h, fieldOp, BitVec.extractLsb'_and]
  exact (congrArg _ hmask).trans BitVec.and_allOnes

/-- Rows of other families never match, so a word is looked up in its own family. -/
theorem firstRow_eq_find?_familyRows (w : Word) :
    firstRow w = (familyRows (fieldOp w)).find? (fun r => r.selects w) := by
  rw [familyRows, List.find?_filter]
  apply List.find?_congr
  intro r hr
  cases hsel : r.selects w with
  | false => simp
  | true => simp [fieldOp_of_selects hr hsel]

/-! ### The decoder against rows -/

/-- `d` is what reading `w` by the listed rows gives: an instruction whose encoding is `w` and whose row is the first to
match, or `w` rejected and no row that matches. -/
def Reads (w : Word) (rows : List TableRow) : Except Reject Instr → Prop
  | .ok i => encode i = w ∧ i.wellFormed = true ∧ rows.find? (fun r => r.selects w) = some i.row
  | .error r => r = .unrecognized w ∧ rows.find? (fun r => r.selects w) = none

section
variable {w : Word} {i : Instr} {rows : List TableRow} {d : Except Reject Instr} {op : Nibble}

theorem Reads.unrecognized : Reads w [] (.error (.unrecognized w)) := ⟨rfl, rfl⟩

theorem Reads.ok (hsel : w &&& i.row.mask = i.row.pattern) (henc : encode i = w) (hwf : i.wellFormed = true) :
    Reads w (i.row :: rows) (.ok i) := by
  have hfirst : i.row.selects w = true := beq_iff_eq.mpr hsel
  exact ⟨henc, hwf, by simp [hfirst]⟩

/-- A row that does not match may be put in front. -/
theorem Reads.cons {row : TableRow} (hnot : row.selects w = false) (h : Reads w rows d) : Reads w (row :: rows) d := by
  cases d <;> simpa [Reads, hnot] using h

/-- One more test of the decoder is one more row of the table. -/
theorem Reads.ite {c : Prop} [Decidable c] (hsel : w &&& i.row.mask = i.row.pattern ↔ c) (henc : c → encode i = w)
    (hwf : i.wellFormed = true) (hrest : ¬ c → Reads w rows d) :
    Reads w (i.row :: rows) (if c then .ok i else d) := by
  by_cases hc : c
  · rw [if_pos hc]
    exact .ok (hsel.mpr hc) (henc hc) hwf
  · rw [if_neg hc]
    exact .cons (beq_eq_false_iff_ne.mpr (fun h => hc (hsel.mp h))) (hrest hc)

/-- A test of the whole word, for a row with mask FFFF. -/
theorem Reads.iteFixed {v : Word} (hrest : w ≠ v → Reads w rows d) (henc : encode i = v := by rfl)
    (hwf : i.wellFormed = true := by rfl) (hmask : i.row.mask = BitVec.allOnes 16 := by rfl)
    (hpat : i.row.pattern = v := by rfl) :
    Reads w (i.row :: rows) (if w = v then .ok i else d) :=
  .ite (by rw [hmask, hpat, BitVec.and_allOnes]) (fun h => henc.trans h.symm) hwf hrest

/-- A test of `nn`, for a row with mask F0FF. -/
theorem Reads.iteNN {nn : Byte} (hop : fieldOp w = op) (hrest : Reads w rows d)
    (henc : encode i = packXNN op (fieldX w) nn := by rfl) (hwf : i.wellFormed = true := by rfl)
    (hmask : i.row.mask = 0xF0FF#16 := by rfl) (hpat : i.row.pattern = packXNN op 0x0#4 nn := by rfl) :
    Reads w (i.row :: rows) (if fieldNN w = nn then .ok i else d) :=
  .ite (by rw [hmask, hpat, and_nnMask_eq_iff hop]) (fun h => henc.trans (packXNN_of_fields hop h)) hwf fun _ => hrest

/-- A test of `n`, for a row with mask F00F. -/
theorem Reads.iteN {n : Nibble} (hop : fieldOp w = op) (hrest : Reads w rows d)
    (henc : encode i = packXYN op (fieldX w) (fieldY w) n := by rfl) (hwf : i.wellFormed = true := by rfl)
    (hmask : i.row.mask = 0xF00F#16 := by rfl) (hpat : i.row.pattern = packXYN op 0x0#4 0x0#4 n := by rfl) :
    Reads w (i.row :: rows) (if fieldN w = n then .ok i else d) :=
  .ite (by rw [hmask, hpat, and_nMask_eq_iff hop]) (fun h => henc.trans (packXYN_of_fields hop h)) hwf fun _ => hrest

/-- No test beyond the family's, for a row with mask F000. -/
theorem Reads.family (hop : fieldOp w = op) (henc : encode i = w) (hwf : i.wellFormed = true := by rfl)
    (hmask : i.row.mask = 0xF000#16 := by rfl) (hpat : i.row.pattern = packNNN op 0x000#12 := by rfl) :
    Reads w (i.row :: rows) (.ok i) :=
  .ok (by rw [hmask, hpat, and_opMask_eq_iff, hop]) henc hwf

end

/-! ### Each family -/

theorem decodeFamilyF_reads {w : Word} (hop : fieldOp w = 0xF#4) : Reads w (familyRows 0xF#4) (decodeFamilyF w) :=
  .iteNN hop <| .iteNN hop <| .iteNN hop <| .iteNN hop <| .iteNN hop <| .iteNN hop <| .iteNN hop <| .iteNN hop <|
    .iteNN hop <| .iteNN hop .unrecognized

theorem decodeFamilyE_reads {w : Word} (hop : fieldOp w = 0xE#4) : Reads w (familyRows 0xE#4) (decodeFamilyE w) :=
  .iteNN hop <| .iteNN hop .unrecognized

/-- Family 8 as tests of `n`. -/
theorem decodeFamily8_eq_ite (w : Word) : decodeFamily8 w =
    if fieldN w = 0x0#4 then .ok (.ldReg (fieldX w) (fieldY w))
    else if fieldN w = 0x1#4 then .ok (.or (fieldX w) (fieldY w))
    else if fieldN w = 0x2#4 then .ok (.and (fieldX w) (fieldY w))
    else if fieldN w = 0x3#4 then .ok (.xor (fieldX w) (fieldY w))
    else if fieldN w = 0x4#4 then .ok (.addReg (fieldX w) (fieldY w))
    else if fieldN w = 0x5#4 then .ok (.sub (fieldX w) (fieldY w))
    else if fieldN w = 0x6#4 then .ok (.shr (fieldX w) (fieldY w))
    else if fieldN w = 0x7#4 then .ok (.subn (fieldX w) (fieldY w))
    else if fieldN w = 0xE#4 then .ok (.shl (fieldX w) (fieldY w))
    else .error (.unrecognized w) := by
  simp only [decodeFamily8, ← BitVec.toNat_inj]
  split
  case h_10 => simp_all
  all_goals simp [*]

theorem decodeFamily8_reads {w : Word} (hop : fieldOp w = 0x8#4) : Reads w (familyRows 0x8#4) (decodeFamily8 w) := by
  rw [decodeFamily8_eq_ite]
  exact .iteN hop <| .iteN hop <| .iteN hop <| .iteN hop <| .iteN hop <| .iteN hop <| .iteN hop <| .iteN hop <|
    .iteN hop .unrecognized

/-- Family 0 has a row for every word: SYS takes what the tests before it leave. -/
theorem decodeFamily0_reads {w : Word} (hop : fieldOp w = 0x0#4) :
    Reads w (familyRows 0x0#4) (.ok (decodeFamily0 w)) := by
  simp only [decodeFamily0, apply_ite (@Except.ok Reject Instr)]
  refine .iteFixed fun hcls => .iteFixed fun hret => .ite and_scdMask_eq_iff packXYN_of_scdTest rfl fun hscd =>
    .iteFixed fun hscr => .iteFixed fun hscl => .iteFixed fun hlow => .iteFixed fun hhigh => .iteFixed fun hhires =>
    .family hop (packNNN_of_field hop) ((sysOperandOk_iff _).mpr ⟨?_, ?_⟩)
  · simp [← eq_ofNat_iff hop, hcls, hret, hscr, hscl, hlow, hhigh, hhires]
  · rwa [scdTest_iff hop] at hscd

/-- The decoder is right about every word, by its family. -/
theorem decode_reads (w : Word) : Reads w (familyRows (fieldOp w)) (decode w) := by
  obtain ⟨k, hk, hop⟩ : ∃ k < 16, fieldOp w = BitVec.ofNat 4 k :=
    ⟨(fieldOp w).toNat, (fieldOp w).isLt, by simp⟩
  rw [decode, hop]
  interval_cases k
  · exact decodeFamily0_reads hop
  · exact .family hop (packNNN_of_field hop)
  · exact .family hop (packNNN_of_field hop)
  · exact .family hop (packXNN_of_fields hop rfl)
  · exact .family hop (packXNN_of_fields hop rfl)
  · exact .iteN hop .unrecognized
  · exact .family hop (packXNN_of_fields hop rfl)
  · exact .family hop (packXNN_of_fields hop rfl)
  · exact decodeFamily8_reads hop
  · exact .iteN hop .unrecognized
  · exact .family hop (packNNN_of_field hop)
  · exact .family hop (packNNN_of_field hop)
  · exact .family hop (packXNN_of_fields hop rfl)
  · exact .family hop (packXYN_of_fields hop rfl)
  · exact decodeFamilyE_reads hop
  · exact decodeFamilyF_reads hop

/-- Settles O2: the first two parts of `decode_reads`. -/
theorem encodeOfDecodeGivesWord : Obligations.EncodeOfDecodeGivesWord := by
  intro w i h
  have hreads := decode_reads w
  rw [h] at hreads
  obtain ⟨henc, hwf, -⟩ := hreads
  exact ⟨henc, hwf⟩

/-- Settles O3: `decode_reads`, looked up in the word's own family. -/
theorem decoderSelectsFirstTableRow : Obligations.DecoderSelectsFirstTableRow := by
  intro w
  have hreads := decode_reads w
  rw [firstRow_eq_find?_familyRows]
  constructor
  · intro i h
    rw [h] at hreads
    obtain ⟨-, -, hrow⟩ := hreads
    exact hrow
  · intro r h
    rw [h] at hreads
    exact hreads

end Sys2Proof
end

section
/-! The words no row matches and SYS: which they are (R76), and that stepping one takes Fatal (R100, R101, R182). -/

namespace Sys2Proof

/-! ### The rejected words (R76) -/

/-- A word is rejected when every test of the decoder fails. -/
theorem exists_error_ite_iff {c : Prop} [Decidable c] {i : Instr} {d : Except Reject Instr} :
    (∃ r, (if c then .ok i else d) = .error r) ↔ ¬ c ∧ ∃ r, d = .error r := by
  by_cases hc : c <;> simp [hc]

theorem rejected_family5_iff (x y n : Nibble) :
    (∃ r, decode (0x5#4 ++ x ++ y ++ n : BitVec 16) = .error r) ↔ n ≠ 0 := by
  simp [append_eq_packXYN, decode, exists_error_ite_iff]

theorem rejected_family9_iff (x y n : Nibble) :
    (∃ r, decode (0x9#4 ++ x ++ y ++ n : BitVec 16) = .error r) ↔ n ≠ 0 := by
  simp [append_eq_packXYN, decode, exists_error_ite_iff]

theorem decode_of_family8 {w : Word} (hop : fieldOp w = 0x8#4) : decode w = decodeFamily8 w := by
  simp [decode, hop]

theorem rejected_family8_iff (x y n : Nibble) : (∃ r, decode (0x8#4 ++ x ++ y ++ n : BitVec 16) = .error r) ↔
    n ∈ [0x8#4, 0x9#4, 0xA#4, 0xB#4, 0xC#4, 0xD#4, 0xF#4] := by
  rw [append_eq_packXYN, decode_of_family8 (fieldOp_packXYN _ x y n), decodeFamily8_eq_ite]
  simp only [exists_error_ite_iff, fieldN_packXYN, Except.error.injEq, exists_eq']
  revert n
  decide

theorem rejected_familyE_iff (x : Nibble) (nn : Byte) :
    (∃ r, decode (0xE#4 ++ x ++ nn : BitVec 16) = .error r) ↔ nn ∉ [0x9E#8, 0xA1#8] := by
  simp [append_eq_packXNN, decode, decodeFamilyE, exists_error_ite_iff]

theorem rejected_familyF_iff (x : Nibble) (nn : Byte) : (∃ r, decode (0xF#4 ++ x ++ nn : BitVec 16) = .error r) ↔
    nn ∉ [0x07#8, 0x0A#8, 0x15#8, 0x18#8, 0x1E#8, 0x29#8, 0x30#8, 0x33#8, 0x55#8, 0x65#8] := by
  simp [append_eq_packXNN, decode, decodeFamilyF, exists_error_ite_iff]

theorem total_family_cases : ∀ op : Nibble, op ∉ [0x5#4, 0x8#4, 0x9#4, 0xE#4, 0xF#4] →
    op = 0x0#4 ∨ op = 0x1#4 ∨ op = 0x2#4 ∨ op = 0x3#4 ∨ op = 0x4#4 ∨ op = 0x6#4 ∨ op = 0x7#4 ∨ op = 0xA#4 ∨
      op = 0xB#4 ∨ op = 0xC#4 ∨ op = 0xD#4 := by decide

/-- The families outside R76's list read every word. -/
theorem decode_ok_of_family (op : Nibble) (nnn : Addr) (h : op ∉ [0x5#4, 0x8#4, 0x9#4, 0xE#4, 0xF#4]) :
    ∃ i, decode (op ++ nnn : BitVec 16) = .ok i := by
  rw [append_eq_packNNN, decode, fieldOp_packNNN]
  rcases total_family_cases op h with rfl | rfl | rfl | rfl | rfl | rfl | rfl | rfl | rfl | rfl | rfl <;>
    exact ⟨_, rfl⟩

/-- SYS takes exactly the operands no other row of family 0 takes. -/
theorem decode_eq_sys_iff (nnn : Addr) :
    decode (0x0#4 ++ nnn : BitVec 16) = .ok (.sys nnn) ↔ sysOperandOk nnn = true := by
  rw [append_eq_packNNN]
  exact ⟨fun h => (encodeOfDecodeGivesWord _ _ h).2, fun h => decode_of_encode_eq rfl h⟩

end Sys2Proof

namespace Sys2Proof.Machine

/-! ### Stepping one -/

theorem exec_sys (nnn : Addr) (s : State) :
    exec (.sys nnn) s = .next (raiseFatal (s.pc - 2) (encode (.sys nnn)) s) := rfl

/-- Stepping a word that is rejected, or SYS, takes Fatal with the word and its address. -/
theorem stepInstr_of_fatal_word {s : State}
    (h : (∃ r, decode s.fetchWord = .error r) ∨ (∃ nnn, decode s.fetchWord = .ok (.sys nnn))) :
    stepInstr s = .next (raiseFatal s.pc s.fetchWord s.advancePc) := by
  rcases h with ⟨r, hr⟩ | ⟨nnn, hsys⟩
  · rw [stepInstr, hr]
  · have hpc : s.advancePc.pc - 2 = s.pc := BitVec.add_sub_cancel _ _
    have henc : encode (.sys nnn) = s.fetchWord := (encodeOfDecodeGivesWord _ _ hsys).1
    rw [stepInstr, hsys]
    exact (exec_sys nnn s.advancePc).trans (by rw [hpc, henc])

/-- Settles O4: the lists are the decoder's tests negated, SYS is `sysOperandOk`, and the step is `raiseFatal` after the
advance of pc. -/
theorem listedWordsTakeFatal : Obligations.ListedWordsTakeFatal := by
  refine ⟨fun x y n => ⟨rejected_family5_iff x y n, rejected_family8_iff x y n, rejected_family9_iff x y n⟩,
    fun x nn => ⟨rejected_familyE_iff x nn, rejected_familyF_iff x nn⟩, decode_ok_of_family,
    fun nnn => (decode_eq_sys_iff nnn).trans (sysOperandOk_iff nnn), fun s hl hr hs hword => ?_⟩
  have hen : enabled .step s = true := by simp [enabled, hl, hr, hs]
  exact ⟨_, (fire_of_enabled hen).trans (stepInstr_of_fatal_word hword), rfl, rfl, rfl,
    ((State.setPc_only s _).seq (raiseFatal_only _ _ _)).mono (by simp)⟩

end Sys2Proof.Machine
end

section
/-! Stepping the instruction at pc (R100, R193) and the control-flow instructions: jumps, compare-and-skip, a call with
its return, SYS, and the jump to itself that ends a program (R101 to R109, R217). -/

namespace Sys2Proof

/-! ### Words of format NNN (R72) -/

theorem decode_nnn {i : Instr} {op : Nibble} {nnn : Addr} (henc : encode i = packNNN op nnn)
    (hwf : i.wellFormed = true) : decode (op ++ nnn : BitVec 16) = .ok i :=
  decode_of_encode_eq (henc.trans (append_eq_packNNN op nnn).symm) hwf

theorem decode_jp (nnn : Addr) : decode (0x1#4 ++ nnn : BitVec 16) = .ok (.jp nnn) := decode_nnn rfl rfl

end Sys2Proof

namespace Sys2Proof.Machine

/-! ### What a step runs (R100, R193) -/

theorem enabled_step_iff {s : State} :
    enabled .step s = true ↔ s.loaded = true ∧ s.running = true ∧ s.sched = .running := by
  simp [enabled, and_assoc]

theorem fire_of_not_enabled {e : Event} {s : State} (h : enabled e s = false) : fire e s = .fault .notEnabled := by
  simp [fire, h]

theorem fire_step_of_decode {s : State} {i : Instr} (hen : enabled .step s = true)
    (hdec : decode s.fetchWord = .ok i) : fire .step s = exec i s.advancePc := by
  rw [fire_of_enabled hen]
  simp only [perform, stepInstr, hdec]

/-- With nothing queued and `Step` enabled, `Step` is the event that comes by itself. -/
theorem step_eq_fire_step {s : State} (hen : enabled .step s = true) (hq : s.inputs = []) : step s = fire .step s := by
  have hown : s.ownEvent = .step := by simp [State.ownEvent, sched_of_enabled_step hen]
  simp only [step, advance, hq, State.runAlone, hown, if_pos hen, fire_of_enabled hen]

theorem step_of_decode {s : State} {i : Instr} (hen : enabled .step s = true) (hq : s.inputs = [])
    (hdec : decode s.fetchWord = .ok i) : step s = exec i s.advancePc :=
  (step_eq_fire_step hen hq).trans (fire_step_of_decode hen hdec)

theorem step_of_queued_event {s : State} {e : Event} {rest : List Input} (hq : s.inputs = .event e :: rest) :
    step s = fire e (s.setInputs rest) := by
  simp only [step, advance, hq, State.take]

/-- Settles O7: `Step` is what comes by itself with nothing queued, and both are `exec` after the advance of pc. -/
theorem stepRunsDecodedInstr : Obligations.StepRunsDecodedInstr := by
  refine ⟨fun s i hl hr hs hdec => ?_, fun s e rest hq => step_of_queued_event hq,
    fun s e h => fire_of_not_enabled h⟩
  have hen : enabled .step s = true := enabled_step_iff.mpr ⟨hl, hr, hs⟩
  exact ⟨fire_step_of_decode hen hdec, fun hq => step_of_decode hen hq hdec⟩

/-! ### CALL and then RET (R102, R104) -/

theorem exec_call (nnn : Addr) (s : State) : exec (.call nnn) s = .next ((s.push s.pc).setPc nnn) := rfl

/-- A step of CALL jumps and pushes the address after it. -/
theorem step_call {s : State} {nnn : Addr} (hen : enabled .step s = true) (hq : s.inputs = [])
    (hw : s.fetchWord = (0x2#4 ++ nnn : BitVec 16)) : step s = .next ((s.push (s.pc + 2)).setPc nnn) :=
  (step_of_decode hen hq (hw ▸ decode_call nnn)).trans (exec_call nnn s.advancePc)

/-- A step of RET goes to the address on top of the stack. -/
theorem step_ret {t : State} {a : Addr} {rest : List Addr} (hen : enabled .step t = true) (hq : t.inputs = [])
    (hw : t.fetchWord = 0x00EE#16) (hstack : t.stack = a :: rest) : step t = .next ((t.setStack rest).setPc a) :=
  (step_of_decode hen hq (hw ▸ decode_ret)).trans (exec_ret_of_cons hstack)

/-- Settles O14: RET takes back the push of CALL, so the second step ends in the first state with pc advanced. -/
theorem callThenRetReturns : Obligations.CallThenRetReturns := by
  intro s t nnn hl hr hs hq hcall hstep hret
  have hen : enabled .step s = true := enabled_step_iff.mpr ⟨hl, hr, hs⟩
  have ht : t = (s.push (s.pc + 2)).setPc nnn := next_inj ((step_call hen hq hcall).symm.trans hstep)
  subst ht
  have hback : step ((s.push (s.pc + 2)).setPc nnn) = .next s.advancePc :=
    step_ret (a := s.pc + 2) (rest := s.stack) hen hq hret rfl
  exact ⟨s.advancePc, hback, rfl, State.advancePc_only s⟩

/-! ### SYS (R101) -/

/-- Settles O10: SYS is `raiseFatal`, and the encoding it records is the concatenation of R72. -/
theorem sysTakesFatal : Obligations.SysTakesFatal := by
  intro s nnn
  have henc : encode (.sys nnn) = (0x0#4 ++ nnn : BitVec 16) := packNNN_eq_append 0x0#4 nnn
  exact ⟨_, exec_sys nnn s, by rw [← henc]; rfl, rfl, raiseFatal_only _ _ s⟩

/-! ### Jumps (R103, R109) -/

theorem exec_jp (nnn : Addr) (s : State) : exec (.jp nnn) s = .next (s.setPc nnn) := rfl

theorem exec_jpV0 (nnn : Addr) (s : State) : exec (.jpV0 nnn) s = .next (s.setPc (s.jumpTarget nnn)) := rfl

theorem State.jumpTarget_toNat (s : State) (nnn : Addr) :
    (s.jumpTarget nnn).toNat = (nnn.toNat + (s.getV (s.jumpReg nnn)).toNat) % 4096 := u12_toNat _

theorem State.jumpReg_of_v0 {s : State} (h : s.cfg.q.jumpSource = .v0) (nnn : Addr) : s.jumpReg nnn = 0x0#4 := by
  simp only [State.jumpReg, h]

/-- The top nibble of the operand is its quotient by 256. -/
theorem State.jumpReg_of_vx {s : State} (h : s.cfg.q.jumpSource = .vx) (nnn : Addr) :
    s.jumpReg nnn = BitVec.ofNat 4 (nnn.toNat / 256) := by
  simp only [State.jumpReg, h, jumpRegField, BitVec.extractLsb', Nat.shiftRight_eq_div_pow, Nat.reducePow]

/-- Settles O12: both jumps only set pc; JP V0 to `jumpTarget`, whose register the quirk selects. -/
theorem jumpsLoadPc : Obligations.JumpsLoadPc := by
  intro s nnn
  refine ⟨⟨decode_jp nnn, _, exec_jp nnn s, rfl, State.setPc_only s nnn⟩,
    decode_nnn rfl rfl, _, exec_jpV0 nnn s, fun hv0 => ?_, fun hvx => ?_, State.setPc_only s _⟩
  · rw [State.setPc_pc, State.jumpTarget_toNat, State.jumpReg_of_v0 hv0]
  · rw [State.setPc_pc, State.jumpTarget_toNat, State.jumpReg_of_vx hvx]

/-! ### Compare and skip (R105 to R108) -/

theorem State.skipIf_beq_pc (s : State) (a b : Byte) :
    (s.skipIf (a == b)).pc.toNat = if a = b then (s.pc.toNat + 2) % 4096 else s.pc.toNat := by
  simp only [State.skipIf_pc, beq_iff_eq]

theorem State.skipIf_bne_pc (s : State) (a b : Byte) :
    (s.skipIf (a != b)).pc.toNat = if a = b then s.pc.toNat else (s.pc.toNat + 2) % 4096 := by
  simp only [State.skipIf_pc, bne_iff_ne, ne_eq, ite_not]

/-- Settles O15: each is `skipIf` of an equality or of its negation. -/
theorem compareSkipsAddTwo : Obligations.CompareSkipsAddTwo := fun s _ _ _ =>
  ⟨⟨decode_xnn rfl rfl, _, rfl, State.skipIf_beq_pc s _ _, State.skipIf_only s _⟩,
    ⟨decode_xnn rfl rfl, _, rfl, State.skipIf_bne_pc s _ _, State.skipIf_only s _⟩,
    ⟨decode_xyn rfl rfl, _, rfl, State.skipIf_beq_pc s _ _, State.skipIf_only s _⟩,
    ⟨decode_xyn rfl rfl, _, rfl, State.skipIf_bne_pc s _ _, State.skipIf_only s _⟩⟩

/-! ### A program that has ended normally (R217) -/

/-- Settles O58: the jump at `a` loads pc with `a`, where it was before the advance. -/
theorem selfJumpStepsInPlace : Obligations.SelfJumpStepsInPlace := by
  intro s a ⟨hl, hr, hs, hpc, hword⟩
  have hen : enabled .step s = true := enabled_step_iff.mpr ⟨hl, hr, hs⟩
  have hstay : s.advancePc.setPc a = s := by
    rw [← hpc]
    rfl
  have hfire : fire .step s = .next s := by
    rw [fire_step_of_decode hen (hword ▸ decode_jp a), exec_jp, hstay]
  exact ⟨hfire, fun hq => (step_eq_fire_step hen hq).trans hfire⟩

end Sys2Proof.Machine
end

section
/-! Loads, arithmetic, logic, shifts and RND (R120 to R133): each writes its result to V[x] by one of three register
writes, `setV`, `writeWithFlag` and `writeLogic`. What each write leaves in the registers comes first. -/

namespace Sys2Proof.Machine

/-! ### The registers after a result and its flag (R22, R132) -/

theorem State.getV_setV_self (s : State) (x : Nibble) (v : Byte) : (s.setV x v).getV x = v := by
  rw [State.getV_setV, if_pos rfl]

theorem State.setV_regs (s : State) (x : Nibble) (v : Byte) : RegsSameExcept [x] s (s.setV x v) := fun y hy => by
  rw [State.getV_setV, if_neg (List.ne_of_not_mem_cons hy)]

section
variable (s : State) (x : Nibble) (r f : Byte)

theorem State.writeWithFlag_flag : (s.writeWithFlag x r f).getV vF = f := State.getV_setV_self _ vF f

theorem State.writeWithFlag_result (hx : x ≠ vF) : (s.writeWithFlag x r f).getV x = r := by
  rw [State.getV_writeWithFlag, if_neg hx, if_pos rfl]

theorem State.writeWithFlag_regs : RegsSameExcept [x, vF] s (s.writeWithFlag x r f) := fun y hy => by
  have hx : y ≠ x := List.ne_of_not_mem_cons hy
  have hF : y ≠ vF := List.ne_of_not_mem_cons (List.not_mem_of_not_mem_cons hy)
  rw [State.getV_writeWithFlag, if_neg hF, if_neg hx]

end

/-! ### Sum and difference (R126, R127, R129) -/

/-- Settles O18: ADD is `writeWithFlag` of the sum and its carry. -/
theorem addSetsCarry : Obligations.AddSetsCarry := fun s x y =>
  ⟨_, rfl, fun hx => by rw [s.writeWithFlag_result x _ _ hx, add8_toNat],
    (s.writeWithFlag_flag x _ _).trans (carryFlag_eq _ _), s.writeWithFlag_regs x _ _, s.writeWithFlag_only x _ _⟩

/-- Settles O19: SUB and SUBN are one `writeWithFlag` of a difference and its no-borrow, the operands exchanged. -/
theorem subtractionsSetNoBorrow : Obligations.SubtractionsSetNoBorrow := by
  intro s x y i a b hi
  have hexec : exec i s = .next (s.writeWithFlag x (sub8 a b) (noBorrowFlag a b)) := by
    rcases hi with ⟨rfl, rfl, rfl⟩ | ⟨rfl, rfl, rfl⟩
    · rfl
    · rfl
  exact ⟨_, hexec, fun hx => by rw [s.writeWithFlag_result x _ _ hx, sub8_toNat],
    (s.writeWithFlag_flag x _ _).trans (noBorrowFlag_eq a b), s.writeWithFlag_regs x _ _, s.writeWithFlag_only x _ _⟩

/-! ### Loads and the immediate sum (R120 to R122) -/

/-- Settles O16: the three are `setV` of one value. -/
theorem loadsAndImmediateAddLeaveFlag : Obligations.LoadsAndImmediateAddLeaveFlag := fun s x _ _ =>
  ⟨⟨decode_xnn rfl rfl, _, rfl, s.getV_setV_self x _, s.setV_regs x _, s.setV_only x _⟩,
    ⟨decode_xyn rfl rfl, _, rfl, s.getV_setV_self x _, s.setV_regs x _, s.setV_only x _⟩,
    ⟨decode_xnn rfl rfl, _, rfl, by rw [s.getV_setV_self, add8_toNat], s.setV_regs x _, s.setV_only x _⟩⟩

/-! ### Logic (R123 to R125) -/

theorem State.writeLogic_of_keep {s : State} (h : s.cfg.q.logicClearsVF = false) (x : Nibble) (r : Byte) :
    s.writeLogic x r = s.setV x r := if_neg (Bool.eq_false_iff.mp h)

/-- Under the quirk a logic operation is a result whose flag is 0. -/
theorem State.writeLogic_of_clear {s : State} (h : s.cfg.q.logicClearsVF = true) (x : Nibble) (r : Byte) :
    s.writeLogic x r = s.writeWithFlag x r 0#8 := if_pos h

/-- Settles O17: the three are `writeLogic` of their result, which is `setV` or, under the quirk, `writeWithFlag`. -/
theorem logicOpsClearFlagByQuirk : Obligations.LogicOpsClearFlagByQuirk := by
  intro s x y i r hi
  have hexec : exec i s = .next (s.writeLogic x r) := by
    rcases hi with ⟨rfl, rfl⟩ | ⟨rfl, rfl⟩ | ⟨rfl, rfl⟩
    · rfl
    · rfl
    · rfl
  refine ⟨_, hexec, fun hkeep => ?_, fun hclear => ?_, s.writeLogic_only x r⟩
  · rw [State.writeLogic_of_keep hkeep]
    exact ⟨s.getV_setV_self x r, s.setV_regs x r⟩
  · rw [State.writeLogic_of_clear hclear]
    exact ⟨s.writeWithFlag_flag x r _, s.writeWithFlag_result x r _, s.writeWithFlag_regs x r _⟩

/-! ### Shifts (R128, R130) -/

theorem State.shiftOperand_of_quirk {s : State} {x y : Nibble} {v : Byte}
    (h : s.cfg.q.shiftSource = .vx ∧ v = s.getV x ∨ s.cfg.q.shiftSource = .vy ∧ v = s.getV y) :
    s.shiftOperand x y = v := by
  rcases h with ⟨hq, rfl⟩ | ⟨hq, rfl⟩
  · simp only [State.shiftOperand, hq]
  · simp only [State.shiftOperand, hq]

theorem exec_shr (x y : Nibble) (s : State) : exec (.shr x y) s =
    .next (s.writeWithFlag x (shr8 (s.shiftOperand x y)) (shiftedOutLow (s.shiftOperand x y))) := rfl

theorem exec_shl (x y : Nibble) (s : State) : exec (.shl x y) s =
    .next (s.writeWithFlag x (shl8 (s.shiftOperand x y)) (shiftedOutHigh (s.shiftOperand x y))) := rfl

/-- Settles O20: both are `writeWithFlag` of the operand the quirk selects, moved by one bit, and of the bit out. -/
theorem shiftsPutBitOutInFlag : Obligations.ShiftsPutBitOutInFlag := by
  intro s x y v hv
  rw [exec_shr, exec_shl, State.shiftOperand_of_quirk hv]
  exact ⟨⟨_, rfl, fun hx => (s.writeWithFlag_result x _ _ hx).trans (shr8_eq v),
      (s.writeWithFlag_flag x _ _).trans (shiftedOutLow_eq v), s.writeWithFlag_regs x _ _, s.writeWithFlag_only x _ _⟩,
    _, rfl, fun hx => (s.writeWithFlag_result x _ _ hx).trans (shl8_eq v),
      (s.writeWithFlag_flag x _ _).trans (shiftedOutHigh_eq v), s.writeWithFlag_regs x _ _, s.writeWithFlag_only x _ _⟩

/-! ### The random byte (R131) -/

theorem and_mask_and_not_mask (r nn : Byte) : r &&& nn &&& ~~~nn = 0 := by
  rw [BitVec.and_assoc, BitVec.and_not_self]
  exact BitVec.and_zero

theorem exec_rnd (x : Nibble) (nn : Byte) (s : State) :
    exec (.rnd x nn) s = .next (s.setV x (Config.rand8 s.draws &&& nn)).drawn := rfl

/-- Settles O21: RND is `setV` of the masked draw, and then `drawn`, which leaves the registers alone. -/
theorem rndMasksFreshFreeByte : Obligations.RndMasksFreshFreeByte := by
  intro s x nn
  have hresult : (s.setV x (Config.rand8 s.draws &&& nn)).drawn.getV x = Config.rand8 s.draws &&& nn :=
    s.getV_setV_self x _
  exact ⟨decode_xnn rfl rfl, _, exec_rnd x nn s, hresult, by rw [hresult, and_mask_and_not_mask], rfl,
    s.setV_regs x _, (s.setV_only x _).seq (State.drawn_only _)⟩

end Sys2Proof.Machine
end

section
/-! The index register and the bulk moves (R140 to R143, R145, R146): what LD I, LD F, LD HF and ADD I,Vx put in I, and
what a bulk store and a bulk load leave in memory, in the registers and in I. -/

namespace Sys2Proof.Machine

/-! ### Glyph addresses (R142, R143) -/

/-- The small font lies below 4096 wherever its base is, so the glyph address does not wrap. -/
theorem State.smallGlyphAddr_toNat (s : State) (v : Byte) :
    (s.smallGlyphAddr v).toNat = s.cfg.params.smallFontBase.toNat + 5 * (v.toNat % 16) := by
  have hbase := s.cfg.params.smallFontBase.isLt
  rw [State.smallGlyphAddr, u12_toNat, lowNibble_toNat]
  omega

theorem State.bigGlyphAddr_toNat (s : State) (v : Byte) :
    (s.bigGlyphAddr v).toNat = s.cfg.params.bigFontBase.toNat + 10 * (v.toNat % 16) := by
  have hbase := s.cfg.params.bigFontBase.isLt
  rw [State.bigGlyphAddr, u12_toNat, lowNibble_toNat]
  omega

/-- Settles O22: each of the three is `setI` of its address. -/
theorem indexLoadsSelectGlyphs : Obligations.IndexLoadsSelectGlyphs := fun s _ x =>
  ⟨⟨decode_nnn rfl rfl, _, rfl, rfl, s.setI_only _⟩,
    ⟨decode_xnn rfl rfl, _, rfl, s.smallGlyphAddr_toNat (s.getV x), s.setI_only _⟩,
    ⟨decode_xnn rfl rfl, _, rfl, s.bigGlyphAddr_toNat (s.getV x), s.setI_only _⟩⟩

/-! ### ADD I,Vx (R141) -/

/-- `I` after ADD I,Vx, the same under both values of the compatibility switch. -/
def State.indexSum (s : State) (x : Nibble) : Addr := u12 (s.I.toNat + (s.getV x).toNat)

theorem exec_addI_of_off {s : State} (h : s.cfg.params.addISetsVF = false) (x : Nibble) :
    exec (.addI x) s = .next (s.setI (s.indexSum x)) := if_neg (Bool.eq_false_iff.mp h)

theorem exec_addI_of_on {s : State} (h : s.cfg.params.addISetsVF = true) (x : Nibble) :
    exec (.addI x) s = .next ((s.setI (s.indexSum x)).setV vF (indexWrapFlag s.I (s.getV x))) := if_pos h

/-- Settles O23: with the switch off ADD I,Vx is `setI` of the sum, with it on `setV` of the wrap follows, which leaves
`I` alone. -/
theorem addIndexWrapsAndSparesFlag : Obligations.AddIndexWrapsAndSparesFlag := by
  intro s x
  have hsum : (s.indexSum x).toNat = (s.I.toNat + (s.getV x).toNat) % 4096 := u12_toNat _
  refine ⟨decode_xnn rfl rfl, ?_⟩
  cases hq : s.cfg.params.addISetsVF
  case false =>
    exact ⟨_, exec_addI_of_off hq x, hsum, fun _ => s.setI_only _, fun hon => absurd hon Bool.false_ne_true⟩
  case true =>
    refine ⟨_, exec_addI_of_on hq x, hsum, fun hoff => absurd hoff.symm Bool.false_ne_true, fun _ => ⟨?flag, ?regs,
      (s.setI_only _).seq (State.setV_only _ _ _)⟩⟩
    case flag => exact (State.getV_setV_self _ vF _).trans (indexWrapFlag_eq s.I (s.getV x))
    case regs => exact (s.setI (s.indexSum x)).setV_regs vF _

/-! ### LD [I],Vx (R145) -/

/-- Every address is an effective address, at its own offset from `I`. -/
theorem State.effAddr_sub_I (s : State) (a : Addr) : s.effAddr (a - s.I).toNat = a := by
  rw [State.effAddr_eq_add, BitVec.ofNat_toNat, BitVec.setWidth_eq, add_sub_cancel]

theorem exec_storeRegs_I {s t : State} {x : Nibble} (h : exec (.storeRegs x) s = .next t) : t.I = s.bulkIndex x := by
  rw [next_inj h]
  rfl

/-- LD [I],Vx leaves every byte that is at none of the offsets 0 to x from `I`. -/
theorem exec_storeRegs_memSameExcept {s t : State} {x : Nibble} (h : exec (.storeRegs x) s = .next t) :
    MemSameExcept ((List.range (x.toNat + 1)).map s.effAddr) s t := by
  intro a ha
  have hx := x.isLt
  have hoff : ¬ (a - s.I).toNat < x.toNat + 1 := fun hlt =>
    ha (List.mem_map.mpr ⟨_, List.mem_range.mpr hlt, s.effAddr_sub_I a⟩)
  have hread := State.readByte_storeRegs s (n := x.toNat + 1) (by omega) a
  rw [if_neg hoff] at hread
  rw [next_inj h]
  exact hread

/-- Settles O25: the stored bytes by `exec_storeRegs_readByte`, the others by `exec_storeRegs_memSameExcept`, `I` by
`bulkIndex_toNat`, the frame by `exec_only`. -/
theorem bulkStoreWritesRegisters : Obligations.BulkStoreWritesRegisters := by
  intro s x
  obtain ⟨t, h⟩ := exec_next (.storeRegs x) s
  have hindex := s.bulkIndex_toNat x
  rw [← exec_storeRegs_I h] at hindex
  obtain ⟨hplus, hbyX, hstay⟩ := hindex
  exact ⟨t, h, fun i hi => ⟨exec_storeRegs_readByte h hi, s.effAddr_toNat i.toNat⟩, exec_storeRegs_memSameExcept h,
    hplus, hbyX, hstay, exec_only h⟩

/-! ### LD Vx,[I] (R146) -/

theorem exec_loadRegs_I {s t : State} {x : Nibble} (h : exec (.loadRegs x) s = .next t) : t.I = s.bulkIndex x := by
  rw [next_inj h]
  rfl

/-- A register after LD Vx,[I]. -/
theorem exec_loadRegs_getV {s t : State} {x : Nibble} (h : exec (.loadRegs x) s = .next t) (i : Nibble) :
    t.getV i = if i.toNat < x.toNat + 1 then s.readByte (s.effAddr i.toNat) else s.getV i := by
  have hx := x.isLt
  rw [next_inj h, State.setI_getV, State.getV_loadRegs s (by omega)]

theorem exec_loadRegs_getV_of_le {s t : State} {x i : Nibble} (h : exec (.loadRegs x) s = .next t)
    (hi : i.toNat ≤ x.toNat) : t.getV i = s.readByte (s.effAddr i.toNat) := by
  rw [exec_loadRegs_getV h, if_pos (Nat.lt_succ_of_le hi)]

theorem exec_loadRegs_getV_of_lt {s t : State} {x i : Nibble} (h : exec (.loadRegs x) s = .next t)
    (hi : x.toNat < i.toNat) : t.getV i = s.getV i := by
  rw [exec_loadRegs_getV h, if_neg (Nat.not_lt_of_le hi)]

/-- Settles O26: the registers by the two cases of `exec_loadRegs_getV`, `I` by `bulkIndex_toNat`, the frame by
`exec_only`. -/
theorem bulkLoadReadsRegisters : Obligations.BulkLoadReadsRegisters := by
  intro s x
  obtain ⟨t, h⟩ := exec_next (.loadRegs x) s
  have hindex := s.bulkIndex_toNat x
  rw [← exec_loadRegs_I h] at hindex
  obtain ⟨hplus, hbyX, hstay⟩ := hindex
  exact ⟨decode_xnn rfl rfl, t, h, fun _ => exec_loadRegs_getV_of_le h, fun _ => exec_loadRegs_getV_of_lt h,
    hplus, hbyX, hstay, exec_only h⟩

/-! ### A bulk load after a bulk store -/

/-- Effective addresses depend on `I` alone. -/
theorem State.effAddr_congr {s u : State} (hI : u.I = s.I) (i : Nat) : u.effAddr i = s.effAddr i := by
  rw [State.effAddr, State.effAddr, hI]

/-- Settles O27: the load reads V[i]'s address of the same base, where the store put V[i]. -/
theorem bulkStoreLoadRoundTrip : Obligations.BulkStoreLoadRoundTrip := by
  intro s t u x hstore hmem hI
  obtain ⟨z, hload⟩ := exec_next (.loadRegs x) u
  refine ⟨z, hload, fun i hi => ?_⟩
  calc z.getV i = u.readByte (u.effAddr i.toNat) := exec_loadRegs_getV_of_le hload hi
    _ = t.readByte (s.effAddr i.toNat) := by rw [State.effAddr_congr hI, hmem]
    _ = s.getV i := exec_storeRegs_readByte hstore hi

end Sys2Proof.Machine
end

section
/-! The display instructions but for the immediate DRW, and the refresh: clearing, mode switches, scrolling, a sprite
drawn twice, the two instructions that begin a wait, and what a tick shows and ages (R150 to R165, R175, R192, R194). -/

namespace Sys2Proof.Machine

/-! ### CLS and HIRES64 (R150, R151, R162) -/

/-- What `clearCell` makes of a cell, with the filter policy written out. -/
theorem State.clearCell_offFade (s : State) (c : Pixel) : clearCell s.offFade c =
    if c.on = true then ⟨false, if s.cfg.params.filter = .none then 0 else s.cfg.params.fadeFrames⟩ else c := by
  rw [← State.offFade_eq]
  rfl

theorem State.clearGrid_pixOn (s : State) (hd : Display.wf s.disp) (px py : Nat) :
    s.clearGrid.pixOn px py = false := by
  unfold State.pixOn State.pixel
  rw [State.cell_clearGrid s hd]
  exact clearCell_on _ _

theorem exec_cls (s : State) : exec .cls s = .next s.clearGrid := rfl

theorem exec_hires64 (s : State) : exec .hires64 s = .next (s.setMode .viphires).clearGrid := rfl

/-- Settles O29: both clear the grid after setting the mode, which CLS sets to what it was. -/
theorem clearingTurnsOffEveryCell : Obligations.ClearingTurnsOffEveryCell := by
  intro s i w m ps hd hi
  have hdec : decode w = .ok i := by
    rcases hi with ⟨rfl, rfl, -⟩ | ⟨rfl, rfl, -⟩ <;> exact decode_of_encode_eq rfl rfl
  have hexec : exec i s = .next (s.setMode m).clearGrid := by
    rcases hi with ⟨rfl, -, rfl, -⟩ | ⟨rfl, -, rfl, -⟩
    · exact exec_cls s
    · exact exec_hires64 s
  have honly : OnlyChanges ps s (s.setMode m).clearGrid := by
    rcases hi with ⟨-, -, rfl, rfl⟩ | ⟨-, -, -, rfl⟩
    · exact State.clearGrid_only s
    · exact (State.setMode_only s m).seq (State.clearGrid_only _)
  exact ⟨hdec, _, hexec, rfl,
    fun bx _ row _ => ((s.setMode m).cell_clearGrid hd bx row).trans (s.clearCell_offFade _),
    fun px _ py _ => (s.setMode m).clearGrid_pixOn hd px py, honly⟩

/-! ### LOW and HIGH (R160, R161, R163) -/

theorem State.switchMode_of_keep {s : State} (h : s.cfg.params.modeSwitchClears = false) (m : ResMode) :
    s.switchMode m = s.setMode m := if_neg (Bool.eq_false_iff.mp h)

theorem State.switchMode_of_clear {s : State} (h : s.cfg.params.modeSwitchClears = true) (m : ResMode) :
    s.switchMode m = (s.setMode m).setDisp [] := if_pos h

theorem exec_low (s : State) : exec .low s = .next (s.switchMode .lores) := rfl

theorem exec_high (s : State) : exec .high s = .next (s.switchMode .hires) := rfl

/-- Settles O34: both are `switchMode`, which only sets the mode, or sets it and empties the display's store. -/
theorem lowAndHighSwitchMode : Obligations.LowAndHighSwitchMode := by
  intro s i w m hi
  have hdec : decode w = .ok i := by
    rcases hi with ⟨rfl, rfl, -⟩ | ⟨rfl, rfl, -⟩ <;> exact decode_of_encode_eq rfl rfl
  have hexec : exec i s = .next (s.switchMode m) := by
    rcases hi with ⟨rfl, -, rfl⟩ | ⟨rfl, -, rfl⟩
    · exact exec_low s
    · exact exec_high s
  refine ⟨hdec, _, hexec, ?_⟩
  cases hq : s.cfg.params.modeSwitchClears
  case false =>
    rw [State.switchMode_of_keep hq]
    exact ⟨rfl, fun _ => State.setMode_only s m, fun hon => absurd hon Bool.false_ne_true⟩
  case true =>
    rw [State.switchMode_of_clear hq]
    exact ⟨rfl, fun hoff => absurd hoff.symm Bool.false_ne_true, fun _ => ⟨fun _ _ _ _ => rfl,
      (State.setMode_only s m).seq (State.setDisp_only _ [])⟩⟩

/-! ### Scrolls (R155 to R158) -/

theorem State.scrollRows_eq (s : State) (d : Nat) :
    s.scrollRows d = if s.cfg.params.scrollUnits = .logical then d * s.mode.blockH else d := by
  unfold State.scrollRows
  cases s.cfg.params.scrollUnits <;> rfl

theorem State.scrollCols_eq (s : State) (d : Nat) :
    s.scrollCols d = if s.cfg.params.scrollUnits = .logical then d * s.mode.blockW else d := by
  unfold State.scrollCols
  cases s.cfg.params.scrollUnits <;> rfl

theorem State.cellsAre_shiftGrid_down (s : State) (rows : Nat) : CellsAre (s.shiftGrid 0 rows)
    (fun bx row => if rows ≤ row then s.disp.cell bx (row - rows) else ⟨false, 0⟩) := by
  intro bx hx row hr
  by_cases h : rows ≤ row
  · exact (State.cell_shiftGrid_of_source s hx hr hx (by omega) (by omega)).trans (if_pos h).symm
  · exact (State.cell_shiftGrid_of_none s hx (by omega)).trans (if_neg h).symm

theorem State.cellsAre_shiftGrid_right (s : State) (cols : Nat) : CellsAre (s.shiftGrid cols 0)
    (fun bx row => if cols ≤ bx then s.disp.cell (bx - cols) row else ⟨false, 0⟩) := by
  intro bx hx row hr
  by_cases h : cols ≤ bx
  · exact (State.cell_shiftGrid_of_source s hx hr (by omega) (by omega) (by omega)).trans (if_pos h).symm
  · exact (State.cell_shiftGrid_of_none s hx (by omega)).trans (if_neg h).symm

theorem State.cellsAre_shiftGrid_left (s : State) (cols : Nat) : CellsAre (s.shiftGrid (-(cols : Int)) 0)
    (fun bx row => if bx + cols < 128 then s.disp.cell (bx + cols) row else ⟨false, 0⟩) := by
  intro bx hx row hr
  by_cases h : bx + cols < 128
  · exact (State.cell_shiftGrid_of_source s hx hr h (by omega) (by omega)).trans (if_pos h).symm
  · exact (State.cell_shiftGrid_of_none s hx (by omega)).trans (if_neg h).symm

theorem exec_scd (n : Nibble) (s : State) : exec (.scd n) s = .next (s.shiftGrid 0 (s.scrollRows n.toNat)) := rfl

theorem exec_scr (s : State) : exec .scr s = .next (s.shiftGrid (s.scrollCols 4) 0) := rfl

theorem exec_scl (s : State) : exec .scl s = .next (s.shiftGrid (-(s.scrollCols 4 : Int)) 0) := rfl

/-- Settles O33: the distances are `scrollRows` and `scrollCols`, and each scroll is one direction of `shiftGrid`. -/
theorem scrollsMoveCells : Obligations.ScrollsMoveCells := by
  intro s n rows cols hrows hcols
  rw [← State.scrollRows_eq] at hrows
  rw [← State.scrollCols_eq] at hcols
  subst hrows hcols
  exact ⟨⟨decode_xyn rfl rfl, _, exec_scd n s, s.cellsAre_shiftGrid_down _, s.shiftGrid_only _ _⟩,
    ⟨decode_of_encode_eq rfl rfl, _, exec_scr s, s.cellsAre_shiftGrid_right _, s.shiftGrid_only _ _⟩,
    ⟨decode_of_encode_eq rfl rfl, _, exec_scl s, s.cellsAre_shiftGrid_left _, s.shiftGrid_only _ _⟩⟩

/-! ### A sprite drawn twice (R153, R154) -/

/-- The second draw lands on the same pixels as the first and inverts them back. -/
theorem State.pixOn_drawSprite_drawSprite (s : State) (d : DrawRequest) {px py : Nat} (hx : px < s.mode.width)
    (hy : py < s.mode.height) : ((s.drawSprite d).drawSprite d).pixOn px py = s.pixOn px py := by
  have hdraw := State.drawSprite_drawsOnly s d
  have hsecond := State.pixOn_drawSprite (s.drawSprite d) d (hdraw.mode.symm ▸ hx) (hdraw.mode.symm ▸ hy)
  rw [State.landings_drawsOnly hdraw, State.pixOn_drawSprite s d hx hy] at hsecond
  rw [hsecond]
  by_cases hm : (px, py) ∈ s.landings d
  · rw [if_pos hm, if_pos hm, Bool.not_not]
  · rw [if_neg hm, if_neg hm]

/-- VF after a draw is 1 exactly at a collision. -/
theorem State.vF_drawSprite_eq_one_iff (s : State) (d : DrawRequest) :
    (s.drawSprite d).getV vF = 1 ↔ SpriteCollides s d := by
  rw [State.vF_drawSprite, spriteCollides_iff]
  split <;> simp [*]

theorem State.vF_drawSprite_of_not_collides {s : State} {d : DrawRequest} (h : ¬ SpriteCollides s d) :
    (s.drawSprite d).getV vF = 0 := by
  rw [State.vF_drawSprite, if_neg (mt (spriteCollides_iff s d).mpr h)]

/-- Coverage looks at nothing a draw changes. -/
theorem spriteCovers_drawSprite (s : State) (d : DrawRequest) (px py : Nat) :
    SpriteCovers (s.drawSprite d) d px py ↔ SpriteCovers s d px py := by
  rw [State.drawSprite_eq]
  rfl

/-- After a draw on an empty display the pixels that are on are the covered ones, so drawing again collides exactly if
there is one. -/
theorem spriteCollides_drawSprite_of_empty {s : State} {d : DrawRequest}
    (hempty : ∀ px < s.mode.width, ∀ py < s.mode.height, s.pixOn px py = false) :
    SpriteCollides (s.drawSprite d) d ↔ ∃ px < s.mode.width, ∃ py < s.mode.height, SpriteCovers s d px py := by
  unfold SpriteCollides
  rw [(State.drawSprite_drawsOnly s d).mode]
  refine exists_congr fun px => and_congr_right fun hx => exists_congr fun py => and_congr_right fun hy => ?_
  rw [spriteCovers_drawSprite, and_iff_left_iff_imp]
  intro hcover
  rw [State.pixOn_drawSprite s d hx hy, if_pos ((spriteCovers_iff s d hx hy).mp hcover), hempty px hx py hy]
  rfl

/-- Settles O32: the second draw inverts the same pixels back; on an empty display the first collides with nothing, the
second with what the first turned on. -/
theorem drawTwiceRestoresPixels : Obligations.DrawTwiceRestoresPixels := by
  rintro s _ d rfl
  refine ⟨fun px hx py hy => s.pixOn_drawSprite_drawSprite d hx hy, fun hempty => ⟨?once, ?twice⟩⟩
  case once =>
    refine State.vF_drawSprite_of_not_collides ?_
    rintro ⟨px, hx, py, hy, -, hlit⟩
    exact Bool.false_ne_true ((hempty px hx py hy).symm.trans hlit)
  case twice => exact ((s.drawSprite d).vF_drawSprite_eq_one_iff d).trans (spriteCollides_drawSprite_of_empty hempty)

/-! ### The two instructions that begin a wait (R152, R175) -/

theorem exec_ldVxK (x : Nibble) (s : State) :
    exec (.ldVxK x) s = .next ((s.setWaitReg (some x)).setSched .waitingForKey) := rfl

theorem exec_drw_of_vblankSync {s : State} (h : s.cfg.q.vblankSync = true) (x y n : Nibble) : exec (.drw x y n) s =
    .next ((s.setPendingDraw (some ⟨s.getV x, s.getV y, n⟩)).setSched .waitingForVblank) := if_pos h

/-- Settles O40: each records what it waits for and sets the scheduler mode. -/
theorem suspendingInstrsBeginTheirWait : Obligations.SuspendingInstrsBeginTheirWait := fun s x y n =>
  ⟨⟨decode_xnn rfl rfl, _, exec_ldVxK x s, rfl, rfl, (s.setWaitReg_only _).seq (State.setSched_only _ _)⟩,
    decode_xyn rfl rfl, fun h => ⟨_, exec_drw_of_vblankSync h x y n, rfl, rfl,
      (s.setPendingDraw_only _).seq (State.setSched_only _ _)⟩⟩

/-! ### Refresh (R164, R165, R192, R194) -/

/-- `t` comes from a refresh that showed `u`: its newest output is a snapshot of the logical pixels of `u`, and its
cells are those of `u` one frame later. -/
def RefreshShows (u t : State) : Prop :=
  ∃ g rest, t.outputs = .snapshot u.mode g :: rest ∧
    (∀ px < u.mode.width, ∀ py < u.mode.height,
      Sparse.get Display.initial g (py * 128 + px) = ⟨u.pixOn px py, u.pixFade px py⟩) ∧
    CellsAre t (fun bx row => ageCell (u.disp.cell bx row))

/-- A tick shows the state its flush left. -/
theorem State.tick60_refreshShows {s : State} (hd : Display.wf s.decrementTimers.flushDraw.disp) :
    RefreshShows s.decrementTimers.flushDraw s.tick60 :=
  ⟨_, _, rfl, fun _ hx _ hy => State.get_snapshot _ hx hy, fun bx _ row _ => State.cell_ageFade _ hd bx row⟩

/-- What a refresh shows is the mode and the display alone. -/
theorem RefreshShows.congr {u v t : State} (h : RefreshShows u t) (hm : u.mode = v.mode) (hdisp : u.disp = v.disp) :
    RefreshShows v t := by
  unfold RefreshShows State.pixOn State.pixFade State.pixel at *
  rwa [hm, hdisp] at h

theorem State.decrementTimers_flushDraw_of_not_waiting {s : State} (h : s.sched ≠ .waitingForVblank) :
    s.decrementTimers.flushDraw = s.decrementTimers :=
  State.flushDraw_of_not_waiting (by rwa [State.decrementTimers_sched])

theorem State.decrementTimers_flushDraw_of_waiting {s : State} {d : DrawRequest} (h : s.sched = .waitingForVblank)
    (hq : s.pendingDraw = some d) :
    s.decrementTimers.flushDraw = ((s.decrementTimers.drawSprite d).setPendingDraw none).setSched .running :=
  State.flushDraw_of_waiting (s.decrementTimers_sched.trans h) (s.decrementTimers_pendingDraw.trans hq)

/-- After its flush a refresh changes the outputs and the display. -/
theorem State.refresh_only_after_flush (s : State) : OnlyChanges [.outputs, .disp] s.flushDraw s.refresh :=
  (State.emit_only _ _).seq (State.ageFade_only _)

/-- Without a waiting draw a tick changes the timers, the outputs and the display. -/
theorem State.tick60_only_of_not_waiting {s : State} (h : s.sched ≠ .waitingForVblank) :
    OnlyChanges [.DT, .ST, .outputs, .disp] s s.tick60 := by
  have hrefresh := s.decrementTimers.refresh_only_after_flush
  rw [State.decrementTimers_flushDraw_of_not_waiting h] at hrefresh
  exact (s.decrementTimers_only.seq hrefresh).mono (by simp)

/-- Settles O44: nothing is flushed, and the timers' countdown leaves what the refresh shows. -/
theorem tickSnapshotsThenAgesFade : Obligations.TickSnapshotsThenAgesFade := by
  intro s hl hr hs hd
  obtain ⟨-, -, hmode, -, hdisp, -⟩ := s.decrementTimers_view
  rw [← State.decrementTimers_flushDraw_of_not_waiting hs] at hmode hdisp
  have hshow : RefreshShows s s.tick60 := (State.tick60_refreshShows (hdisp.symm ▸ hd)).congr hmode hdisp
  obtain ⟨g, rest, hout, hpix, hcells⟩ := hshow
  exact ⟨s.tick60, g, rest, fire_tick60 hl hr, hout, hpix, hcells, State.tick60_only_of_not_waiting hs⟩

theorem SameDrawView.setPendingDraw {s t : State} (h : SameDrawView s t) (q : Option DrawRequest) :
    SameDrawView s (t.setPendingDraw q) := h

theorem SameDrawView.setSched {s t : State} (h : SameDrawView s t) (m : SchedMode) :
    SameDrawView s (t.setSched m) := h

/-- A flush in a tick makes of the mode, the display and the registers what the draw makes of them before the timers
count down. -/
theorem State.decrementTimers_flushDraw_view {s : State} {d : DrawRequest} (h : s.sched = .waitingForVblank)
    (hq : s.pendingDraw = some d) : SameDrawView (s.drawSprite d) s.decrementTimers.flushDraw := by
  rw [State.decrementTimers_flushDraw_of_waiting h hq]
  exact ((s.decrementTimers_view.drawSprite d).setPendingDraw none).setSched .running

/-- Settles O45: the tick shows the state the flush left, which looks to a draw like what `DrawSprite` makes of `s`. -/
theorem tickFlushesQueuedDraw : Obligations.TickFlushesQueuedDraw := by
  rintro s u d hl hr hs hq hd rfl
  obtain ⟨-, -, hmode, -, hdisp, hV⟩ := State.decrementTimers_flushDraw_view hs hq
  have hshow : RefreshShows (s.drawSprite d) s.tick60 :=
    (State.tick60_refreshShows (hdisp.symm ▸ s.wf_drawSprite d hd)).congr hmode hdisp
  have hsched : s.tick60.sched = .running := by rw [State.tick60_sched, if_pos hs]
  have hrefresh := s.decrementTimers.refresh_only_after_flush
  have hdraw : s.tick60.pendingDraw = none := by
    rw [State.tick60, hrefresh.pendingDraw (by simp), State.decrementTimers_flushDraw_of_waiting hs hq,
      State.setSched_pendingDraw, State.setPendingDraw_pendingDraw]
  have hregs : ∀ x, s.tick60.getV x = (s.drawSprite d).getV x := fun x => by
    rw [State.tick60, hrefresh.getV (by simp), State.getV, State.getV, hV]
  unfold RefreshShows at hshow
  rw [(State.drawSprite_drawsOnly s d).mode] at hshow
  obtain ⟨g, rest, hout, hpix, hcells⟩ := hshow
  exact ⟨s.tick60, g, rest, fire_tick60 hl hr, hsched, hdraw, hregs, hout, hpix, hcells, s.tick60_only⟩

end Sys2Proof.Machine
end

section
/-! The delay-timer moves (R170, R171) and the key skips (R173, R174). -/

namespace Sys2Proof.Machine

/-! ### The delay timer -/

/-- Settles O37: the two moves are `setV` of DT and `setDT` of V[x]. -/
theorem delayTimerMoves : Obligations.DelayTimerMoves := fun s x =>
  ⟨⟨decode_xnn rfl rfl, _, rfl, s.getV_setV_self x s.DT, s.setV_regs x _, s.setV_only x _⟩,
    decode_xnn rfl rfl, _, rfl, s.setDT_DT (s.getV x), s.setDT_only _⟩

/-! ### The key skips -/

theorem lowNibble_eq_of_toNat {v : Byte} {k : Nibble} (h : k.toNat = v.toNat % 16) : lowNibble v = k :=
  BitVec.eq_of_toNat_eq ((lowNibble_toNat v).trans h.symm)

theorem exec_skp {s : State} {x k : Nibble} (h : lowNibble (s.getV x) = k) :
    exec (.skp x) s = .next (s.skipIf (s.keyDown k)) := h ▸ rfl

theorem exec_sknp {s : State} {x k : Nibble} (h : lowNibble (s.getV x) = k) :
    exec (.sknp x) s = .next (s.skipIf (!s.keyDown k)) := h ▸ rfl

/-- A skip on the negation of `c` stays where `c` holds. -/
theorem State.skipIf_not_pc (s : State) (c : Bool) :
    (s.skipIf (!c)).pc.toNat = if c then s.pc.toNat else (s.pc.toNat + 2) % 4096 := by
  cases c <;> exact s.skipIf_pc _

/-- Settles O39: the two are `skipIf` of the key of V[x]'s low nibble and of its negation. -/
theorem keySkipsTestLowNibble : Obligations.KeySkipsTestLowNibble := by
  intro s x k hk
  have hkey : lowNibble (s.getV x) = k := lowNibble_eq_of_toNat hk
  exact ⟨⟨decode_xnn rfl rfl, _, exec_skp hkey, s.skipIf_pc _, s.skipIf_only _⟩,
    decode_xnn rfl rfl, _, exec_sknp hkey, s.skipIf_not_pc _, s.skipIf_only _⟩

end Sys2Proof.Machine
end

section
/-! The events (R193): each happens exactly when it is enabled, a key event moves one key, and a core that is not running
lets nothing but its keys change before the next `Load`. -/

namespace Sys2Proof.Machine

/-! ### The frame's parts for the queue and the keys -/

theorem OnlyChanges.inputs {ps : List Part} {s t : State} (h : OnlyChanges ps s t) (hp : Part.inputs ∉ ps) :
    t.inputs = s.inputs := h.2.2.2.2.2.2.2.2.2.2.2.2.2.2.2.2.2.2.2.1 hp

theorem OnlyChanges.keyDown {ps : List Part} {s t : State} (h : OnlyChanges ps s t) (hp : Part.keys ∉ ps) (k : Nibble) :
    t.keyDown k = s.keyDown k := by
  have hkeys : t.keys = s.keys := h.2.2.2.2.2.2.2.2.2.1 hp
  simp only [State.keyDown, hkeys]

/-! ### When each event happens (R193) -/

/-- An enabled event has a transition, and no other has. -/
theorem exists_fire_eq_next_iff (e : Event) (s : State) : (∃ t, fire e s = .next t) ↔ enabled e s = true := by
  simp only [fire_eq_next, exists_and_left, perform_next, and_true]

theorem enabled_pollKeys_iff {s : State} :
    enabled .pollKeys s = true ↔ s.loaded = true ∧ s.running = true ∧ s.sched = .waitingForKey := by
  simp [enabled, and_assoc]

theorem enabled_tick60_iff {s : State} : enabled .tick60 s = true ↔ s.loaded = true ∧ s.running = true := by
  simp [enabled]

theorem enabled_keyDown_iff {s : State} {i : Nat} :
    enabled (.keyDown i) s = true ↔ s.loaded = true ∧ i ≤ 15 := by
  simp [enabled]

theorem enabled_keyUp_iff {s : State} {i : Nat} : enabled (.keyUp i) s = true ↔ s.loaded = true ∧ i ≤ 15 := by
  simp [enabled]

/-- Settles O9: an event happens exactly when it is enabled, and `enabled` is R193's table. -/
theorem eventsHappenExactlyWhenEnabled : Obligations.EventsHappenExactlyWhenEnabled := by
  intro s e
  rw [exists_fire_eq_next_iff]
  cases e with
  | load image md => exact iff_of_true rfl trivial
  | step => exact enabled_step_iff
  | pollKeys => exact enabled_pollKeys_iff
  | tick60 => exact enabled_tick60_iff
  | keyDown i => exact enabled_keyDown_iff
  | keyUp i => exact enabled_keyUp_iff
  | stop => exact Iff.rfl

/-! ### Key events (R197) -/

/-- Settles O42: the two events are `pressKey` and `releaseKey`, whose keys and frame are known. -/
theorem keyEventsChangeOneKey : Obligations.KeyEventsChangeOneKey := by
  intro s i hl
  have hi : i.toNat ≤ 15 := Nat.le_of_lt_succ i.isLt
  exact ⟨⟨s.pressKey i.toNat, fire_of_enabled (enabled_keyDown_iff.mpr ⟨hl, hi⟩), s.keyDown_pressKey i,
      s.pressKey_only _⟩,
    s.releaseKey i.toNat, fire_of_enabled (enabled_keyUp_iff.mpr ⟨hl, hi⟩), s.keyDown_releaseKey i,
    s.releaseKey_only _⟩

/-! ### A core that is not running (R182, R187, R198) -/

theorem running_of_enabled_step {s : State} (h : enabled .step s = true) : s.running = true :=
  (enabled_step_iff.mp h).2.1

theorem running_of_enabled_pollKeys {s : State} (h : enabled .pollKeys s = true) : s.running = true :=
  (enabled_pollKeys_iff.mp h).2.1

theorem running_of_enabled_tick60 {s : State} (h : enabled .tick60 s = true) : s.running = true :=
  (enabled_tick60_iff.mp h).2

theorem State.setRunning_of_eq {s : State} {b : Bool} (h : s.running = b) : s.setRunning b = s := h ▸ rfl

/-- Settles O57: `Step`, `PollKeys` and `Tick60` need a running core, and a second `Stop` changes nothing. -/
theorem stoppedCoreAwaitsLoad : Obligations.StoppedCoreAwaitsLoad := by
  refine ⟨fun s hl => ⟨s.setRunning false, fire_of_enabled hl, rfl, s.setRunning_only false⟩, ?frozen⟩
  intro e s t hr h hload
  obtain ⟨he, hp⟩ := fire_eq_next.mp h
  cases e with
  | load image md => exact absurd rfl (hload image md)
  | step => exact absurd (running_of_enabled_step he) (by simp [hr])
  | pollKeys => exact absurd (running_of_enabled_pollKeys he) (by simp [hr])
  | tick60 => exact absurd (running_of_enabled_tick60 he) (by simp [hr])
  | keyDown i => exact .of_next hp (s.pressKey_only i)
  | keyUp i => exact .of_next hp (s.releaseKey_only i)
  | stop =>
    rw [next_inj hp, State.setRunning_of_eq hr]
    exact .refl _ s

end Sys2Proof.Machine
end

section
/-! A queued scheduling tick, step by step, against `schedTick` as one operation (R186, R195). -/

namespace Sys2Proof.Machine

/-! ### Finitely many steps -/

/-- Finitely many steps of the machine lead from `s` to `t`. -/
def Reaches (s t : State) : Prop := ∃ n, runSteps n s = .next t

theorem Reaches.refl (s : State) : Reaches s s := ⟨0, rfl⟩

theorem Reaches.head {s t u : State} (hstep : step s = .next t) (h : Reaches t u) : Reaches s u := by
  obtain ⟨n, hn⟩ := h
  refine ⟨n + 1, ?_⟩
  rw [runSteps, hstep]
  exact hn

theorem Reaches.trans {s t u : State} (h : Reaches s t) (g : Reaches t u) : Reaches s u := by
  obtain ⟨n, hn⟩ := h
  induction n generalizing s with
  | zero => exact next_inj hn ▸ g
  | succ n ih =>
    rw [runSteps] at hn
    split at hn
    · exact .head ‹_› (ih hn)
    · cases hn
    · cases hn

/-! ### The queue in front of a state -/

theorem State.setInputs_of_inputs_eq {s : State} {l : List Input} (h : s.inputs = l) : s.setInputs l = s := h ▸ rfl

theorem step_setInputs_cons (s : State) (i : Input) (rest : List Input) :
    step (s.setInputs (i :: rest)) = (s.setInputs rest).take i := rfl

theorem stepInstr_inputs {s t : State} (h : stepInstr s = .next t) : t.inputs = s.inputs := by
  have hq : stepInstr s = .next (t.setInputs s.inputs) := stepInstr_setInputs s.inputs h
  rw [next_inj (hq.symm.trans h)]
  rfl

/-! ### The pieces of a tick (R195) -/

theorem State.endTick_eq (s : State) : s.endTick = .next (tickEnd s) := by
  unfold State.endTick tickEnd
  split <;> rfl

/-- The tick's last line, queued, is `tickEnd`. -/
theorem reaches_tickEnd {s : State} (hq : s.inputs = []) : Reaches (s.setInputs [.endTick]) (tickEnd s) := by
  refine .head ?_ (.refl _)
  rw [step_setInputs_cons, State.setInputs_of_inputs_eq hq]
  exact s.endTick_eq

/-- An instruction of the loop leaves the rest of the loop in front of the queue. -/
theorem step_cpu_of_stepInstr {s t : State} {k : Nat} {q : List Input} (hen : enabled .step s = true)
    (h : stepInstr s = .next t) :
    step (s.setInputs (.cpu (k + 1) :: q)) = .next (t.setInputs (.cpu k :: q)) := by
  rw [step_setInputs_cons, State.take, State.cpuLoop, enabled_setInputs, if_pos hen]
  exact (stepInstr_setInputs (.cpu k :: q) h : stepInstr (s.setInputs (.cpu k :: q)) = _)

/-- A loop that has run its budget, or that no instruction continues, leaves the queue. -/
theorem step_cpu_of_done {s : State} {k : Nat} {q : List Input} (h : k = 0 ∨ ¬ enabled .step s = true) :
    step (s.setInputs (.cpu k :: q)) = .next (s.setInputs q) := by
  rw [step_setInputs_cons, State.take]
  cases k with
  | zero => rfl
  | succ k => rw [State.cpuLoop, enabled_setInputs, if_neg (h.resolve_left k.succ_ne_zero)]

/-- One turn of `cpuPart`: done, or one instruction and then the rest. -/
theorem cpuPart_cases {k : Nat} {s t : State} (h : cpuPart k s = .next t) :
    (t = s ∧ (k = 0 ∨ ¬ enabled .step s = true)) ∨
    ∃ j u, k = j + 1 ∧ enabled .step s = true ∧ stepInstr s = .next u ∧ cpuPart j u = .next t := by
  cases k with
  | zero => exact .inl ⟨next_inj h, .inl rfl⟩
  | succ j =>
    rw [cpuPart] at h
    split at h
    · obtain ⟨u, hu⟩ := stepInstr_next s
      rw [hu] at h
      exact .inr ⟨j, u, rfl, ‹_›, hu, h⟩
    · exact .inl ⟨next_inj h, .inr ‹_›⟩

theorem cpuPart_inputs {k : Nat} {s t : State} (h : cpuPart k s = .next t) : t.inputs = s.inputs := by
  induction k generalizing s with
  | zero => rw [next_inj h]
  | succ k ih =>
    obtain ⟨rfl, -⟩ | ⟨j, u, hj, -, hu, hrest⟩ := cpuPart_cases h
    · rfl
    · cases hj
      exact (ih hrest).trans (stepInstr_inputs hu)

/-- The queued loop does what `cpuPart` does. -/
theorem reaches_cpuPart {k : Nat} {s t : State} (q : List Input) (h : cpuPart k s = .next t) :
    Reaches (s.setInputs (.cpu k :: q)) (t.setInputs q) := by
  induction k generalizing s with
  | zero =>
    rw [next_inj h]
    exact .head (step_cpu_of_done (.inl rfl)) (.refl _)
  | succ k ih =>
    obtain ⟨rfl, hdone⟩ | ⟨j, u, hj, hen, hu, hrest⟩ := cpuPart_cases h
    · exact .head (step_cpu_of_done hdone) (.refl _)
    · cases hj
      exact .head (step_cpu_of_stepInstr hen hu) (ih hrest)

/-- A queued key poll is `pollKeys`. -/
theorem step_pollKeys {s : State} {q : List Input} (hen : enabled .pollKeys s = true) :
    step (s.setInputs (.event .pollKeys :: q)) = .next (s.pollKeys.setInputs q) := by
  rw [step_setInputs_cons, State.take, fire_of_enabled (by rwa [enabled_setInputs]), perform, State.pollKeys_setInputs]

/-! ### The whole tick -/

/-- What the first step of a queued tick leaves in an otherwise empty queue, mode by mode (R195). -/
def tickQueue (k : Nat) (s : State) : List Input :=
  if s.running then
    match s.sched with
    | .waitingForKey => [.event .pollKeys, .endTick]
    | .waitingForVblank => [.endTick]
    | .running => [.cpu k, .endTick]
  else []

theorem step_schedTick (k : Nat) (s : State) :
    step (s.setInputs [.schedTick k]) = .next (s.setInputs (tickQueue k s)) := by
  rw [step_setInputs_cons, State.take, State.beginTick, tickQueue, State.setInputs_running, State.setInputs_sched]
  split
  · cases s.sched <;> rfl
  · rfl

/-- Settles O48: the queued tick begins with the queue of its mode, and each piece of that queue does what R195's
operation does. -/
theorem queuedTickRefinesSchedTick : Obligations.QueuedTickRefinesSchedTick := by
  intro s t k hload hq h
  refine Reaches.head (step_schedTick k s) ?_
  unfold schedTick at h
  unfold tickQueue
  by_cases hr : s.running = true
  case neg =>
    rw [if_neg hr] at h ⊢
    rw [next_inj h, State.setInputs_of_inputs_eq hq]
    exact .refl s
  rw [if_pos hr] at h ⊢
  cases hs : s.sched with
  | waitingForKey =>
    rw [hs] at h
    rw [next_inj h]
    have hpoll : s.pollKeys.inputs = [] := ((s.pollKeys_only).inputs (by simp)).trans hq
    exact .head (step_pollKeys (enabled_pollKeys_iff.mpr ⟨hload hr, hr, hs⟩)) (reaches_tickEnd hpoll)
  | waitingForVblank =>
    rw [hs] at h
    rw [next_inj h]
    exact reaches_tickEnd hq
  | running =>
    simp only [hs] at h
    split at h
    · rename_i u hcpu
      rw [next_inj h]
      exact (reaches_cpuPart [.endTick] hcpu).trans (reaches_tickEnd ((cpuPart_inputs hcpu).trans hq))
    · cases h
    · cases h

end Sys2Proof.Machine
end

section
/-! The waits under weak fairness (R219): a proof rule for one fair event, and its use for the vblank wait and for the
key-wait. -/

namespace Sys2Proof.Machine

/-! ### One fair event -/

section
variable {σ : Nat → State} {P Q : State → Prop} {n : Nat}

/-- What every event keeps until the goal is reached holds for ever, or the goal is reached. -/
theorem holds_or_reached (hstep : ∀ m ≥ n, P (σ m) → P (σ (m + 1)) ∨ Q (σ (m + 1))) (hP : P (σ n)) (m : Nat)
    (hm : n ≤ m) : P (σ m) ∨ ∃ j > n, Q (σ j) := by
  induction m, hm using Nat.le_induction with
  | base => exact .inl hP
  | succ m hm ih =>
    obtain hPm | hQ := ih
    · exact (hstep m hm hPm).imp_right fun hQ => ⟨m + 1, Nat.lt_succ_of_le hm, hQ⟩
    · exact .inr hQ

/-- The rule of weak fairness: if `P` is kept until `Q` holds, enables the fair event, and that event leads from `P`
to `Q`, then `P` is followed by `Q`. -/
theorem WeaklyFair.leadsTo {ev : Event} {e : Nat → Event} (hfair : WeaklyFair ev σ e)
    (hstep : ∀ m ≥ n, P (σ m) → P (σ (m + 1)) ∨ Q (σ (m + 1))) (henabled : ∀ s, P s → enabled ev s = true)
    (hevent : ∀ m ≥ n, P (σ m) → e m = ev → Q (σ (m + 1))) (hP : P (σ n)) : ∃ m > n, Q (σ m) := by
  by_contra hnever
  have hall : ∀ m ≥ n, P (σ m) := fun m hm => (holds_or_reached hstep hP m hm).resolve_right hnever
  obtain ⟨m, hm, hev⟩ := hfair n fun m hm => henabled _ (hall m hm)
  exact hnever ⟨m + 1, Nat.lt_succ_of_le hm, hevent m hm (hall m hm) hev⟩

end

/-! ### A running core that waits -/

/-- A loaded and running core in scheduler mode `w`. -/
def State.Waits (w : SchedMode) (s : State) : Prop := s.loaded = true ∧ s.running = true ∧ s.sched = w

/-- A change that leaves `loaded` and `running` alone and the mode in the wait or RUNNING keeps the wait or ends it. -/
theorem State.Waits.of_only {w : SchedMode} {ps : List Part} {s t : State} (h : s.Waits w) (hc : OnlyChanges ps s t)
    (hl : Part.loaded ∉ ps) (hr : Part.running ∉ ps) (hs : t.sched = s.sched ∨ t.sched = .running) :
    t.Waits w ∨ t.sched = .running := by
  obtain ⟨hload, hrun, hw⟩ := h
  exact hs.imp_left fun hs => ⟨(hc.loaded hl).trans hload, (hc.running hr).trans hrun, hs.trans hw⟩

theorem State.pollKeys_sched (s : State) : s.pollKeys.sched = s.sched ∨ s.pollKeys.sched = .running := by
  unfold State.pollKeys
  split
  · exact .inl rfl
  · exact .inr (s.captureKey_sched _)

theorem State.tick60_sched_or (s : State) : s.tick60.sched = s.sched ∨ s.tick60.sched = .running := by
  rw [State.tick60_sched]
  split
  · exact .inr rfl
  · exact .inl rfl

/-- An event that neither stops nor reloads a waiting core keeps it waiting or sets it RUNNING. -/
theorem State.Waits.fire {w : SchedMode} {e : Event} {s t : State} (h : s.Waits w) (hw : w ≠ .running)
    (hstop : e ≠ .stop) (hload : ∀ im md, e ≠ .load im md) (hfire : fire e s = .next t) :
    t.Waits w ∨ t.sched = .running := by
  obtain ⟨he, hp⟩ := fire_eq_next.mp hfire
  cases e with
  | load im md => exact absurd rfl (hload im md)
  | stop => exact absurd rfl hstop
  | step => exact absurd (h.2.2.symm.trans (sched_of_enabled_step he)) hw
  | pollKeys => exact next_inj hp ▸ h.of_only s.pollKeys_only (by simp) (by simp) s.pollKeys_sched
  | tick60 => exact next_inj hp ▸ h.of_only s.tick60_only (by simp) (by simp) s.tick60_sched_or
  | keyDown i => exact next_inj hp ▸ h.of_only (s.pressKey_only i) (by simp) (by simp) (.inl rfl)
  | keyUp i => exact next_inj hp ▸ h.of_only (s.releaseKey_only i) (by simp) (by simp) (.inl rfl)

/-! ### The vblank wait -/

/-- Settles O59: a waiting core stays enabled for `Tick60`, and a tick ends the vblank wait. -/
theorem fairTickEndsVblankWait : Obligations.FairTickEndsVblankWait := by
  intro σ e n hrun hfair hl hr hs hkeep
  refine hfair.leadsTo (P := State.Waits .waitingForVblank) (Q := fun s => s.sched = .running) ?step ?enabled ?event
    ⟨hl, hr, hs⟩
  case step => exact fun m hm h => h.fire (by simp) (hkeep m hm).1 (hkeep m hm).2 (hrun m)
  case enabled => exact fun s ⟨hl, hr, _⟩ => enabled_tick60_iff.mpr ⟨hl, hr⟩
  case event =>
    intro m _ ⟨hl, hr, hs⟩ hev
    have hfire := hrun m
    rw [hev, fire_tick60 hl hr] at hfire
    rw [next_inj hfire, State.tick60_sched, if_pos hs]

/-! ### The key-wait -/

theorem exists_nibble_of_le {i : Nat} (h : i ≤ 15) : ∃ k : Nibble, k.toNat = i :=
  ⟨BitVec.ofNat 4 i, (BitVec.toNat_ofNat i 4).trans (Nat.mod_eq_of_lt (by omega))⟩

theorem keyDown_of_fire_keyDown {s t : State} {k : Nibble} (h : fire (.keyDown k.toNat) s = .next t) :
    t.keyDown k = true := by
  rw [next_inj (fire_eq_next.mp h).2, State.keyDown_pressKey]
  simp

/-- A poll of a key-wait with a key down ends it. -/
theorem sched_of_fire_pollKeys {s t : State} (hk : ∃ k, s.keyDown k = true) (h : fire .pollKeys s = .next t) :
    t.sched = .running := by
  rw [next_inj (fire_eq_next.mp h).2, (State.pollKeys_of_some_down hk).2, State.captureKey_sched]

/-- In a key-wait a key that is down stays down until it is released, or the wait ends. -/
theorem keyDown_of_fire {e : Event} {s t : State} {k : Nibble} (hs : s.sched = .waitingForKey)
    (hk : s.keyDown k = true) (hload : ∀ im md, e ≠ .load im md) (hup : ∀ i, e ≠ .keyUp i)
    (hfire : fire e s = .next t) : t.keyDown k = true ∨ t.sched = .running := by
  obtain ⟨he, hp⟩ := fire_eq_next.mp hfire
  cases e with
  | load im md => exact absurd rfl (hload im md)
  | keyUp i => exact absurd rfl (hup i)
  | step => exact absurd (hs.symm.trans (sched_of_enabled_step he)) (by simp)
  | pollKeys => exact .inr (sched_of_fire_pollKeys ⟨k, hk⟩ hfire)
  | tick60 => exact .inl (next_inj hp ▸ (s.tick60_only.keyDown (by simp) k).trans hk)
  | keyDown i =>
    obtain ⟨j, rfl⟩ := exists_nibble_of_le (enabled_keyDown_iff.mp he).2
    rw [next_inj hp, State.keyDown_pressKey, hk]
    exact .inl rfl
  | stop => exact .inl (next_inj hp ▸ hk)

/-- A key-wait with key `k` down. -/
def State.WaitsWithKey (k : Nibble) (s : State) : Prop := s.Waits .waitingForKey ∧ s.keyDown k = true

theorem State.WaitsWithKey.fire {e : Event} {s t : State} {k : Nibble} (h : s.WaitsWithKey k) (hstop : e ≠ .stop)
    (hload : ∀ im md, e ≠ .load im md) (hup : ∀ i, e ≠ .keyUp i) (hfire : fire e s = .next t) :
    t.WaitsWithKey k ∨ t.sched = .running := by
  obtain ⟨hw, hk⟩ := h
  obtain hw' | hdone := hw.fire (by simp) hstop hload hfire
  · exact (keyDown_of_fire hw.2.2 hk hload hup hfire).imp_left fun hk' => ⟨hw', hk'⟩
  · exact .inr hdone

/-- Settles O60: the core waits until the host's next key press, after it with a key down; then a poll, which is fair,
ends the wait. -/
theorem fairPollAndKeyEndKeyWait : Obligations.FairPollAndKeyEndKeyWait := by
  intro σ e n hrun hfair hpress hl hr hs hkeep
  have hwait : ∀ m ≥ n, (σ m).Waits .waitingForKey ∨ ∃ j > n, (σ j).sched = .running :=
    holds_or_reached (P := State.Waits .waitingForKey) (Q := fun s => s.sched = .running)
      (fun m hm h => h.fire (by simp) (hkeep m hm).1 (hkeep m hm).2.1 (hrun m)) ⟨hl, hr, hs⟩
  obtain ⟨p, hp, i, hi, hev⟩ := hpress n
  obtain ⟨k, rfl⟩ := exists_nibble_of_le hi
  have hdown : (σ (p + 1)).keyDown k = true := keyDown_of_fire_keyDown (hev ▸ hrun p)
  obtain hw | hdone := hwait (p + 1) (by omega)
  case inr => exact hdone
  have hpolled : ∃ m > p + 1, (σ m).sched = .running := by
    refine hfair.leadsTo (P := State.WaitsWithKey k) (Q := fun s => s.sched = .running) ?step ?enabled ?event
      ⟨hw, hdown⟩
    case step =>
      intro m hm h
      obtain ⟨hstop, hload, hup⟩ := hkeep m (by omega)
      exact h.fire hstop hload hup (hrun m)
    case enabled => exact fun s ⟨hw, _⟩ => enabled_pollKeys_iff.mpr hw
    case event => exact fun m _ ⟨_, hk⟩ hev => sched_of_fire_pollKeys ⟨k, hk⟩ (hev ▸ hrun m)
  obtain ⟨m, hm, hdone⟩ := hpolled
  exact ⟨m, by omega, hdone⟩

end Sys2Proof.Machine
end
